-- ==== Sys2Proof/Word.lean ====
section
/-! DEFINITION. Bytes, 16-bit words and the two kinds of address (00_scope.md R6, R7): the plainest data of the block. -/

namespace Sys2Proof

/-- A byte, 8 bits (00_scope.md R6). -/
abbrev Byte := BitVec 8

/-- An unsigned 16-bit number (30_encoding.md R77). -/
abbrev U16 := BitVec 16

/-- A hardware address: 6 bytes in wire order, `b0` first on the wire; never read as a number
(20_memory.md R41, 30_encoding.md R77). -/
structure Mac where
  b0 : Byte
  b1 : Byte
  b2 : Byte
  b3 : Byte
  b4 : Byte
  b5 : Byte
  deriving DecidableEq, Repr, Inhabited

/-- An IPv4 address: 4 bytes in wire order (20_memory.md R41, 30_encoding.md R77). -/
structure Ip4 where
  b0 : Byte
  b1 : Byte
  b2 : Byte
  b3 : Byte
  deriving DecidableEq, Repr, Inhabited

/-- A link-layer address: an interface index and a hardware address (10_state.md R23). The index is a number
of `IFINDEX_W` bits, an OPEN width; that it fits is checked in WellFormed (log 10). -/
structure LinkAddr where
  ifindex : Nat
  hw : Mac
  deriving DecidableEq, Repr

/-- The ethertype filter of a socket: every frame, or the frames of one ethertype (10_state.md R24). -/
inductive EtherFilter where
  | all
  | single (e : U16)
  deriving DecidableEq, Repr

end Sys2Proof
end

