-- ==== Sys2Proof/Config.lean ====
section
/-! DEFINITION. What an implementation fixes (00_scope.md R5), and the free answers of the link (log 4). A parameter the spec
leaves OPEN is a constant without a body: a proof can use its stated bound and nothing else (log 9). -/

namespace Sys2Proof

/-- What the link answers to `LinkOpen` and `LinkSend` (20_memory.md R52, R57). -/
inductive LinkAck where
  | ok
  | fail
  deriving DecidableEq, Repr, Inhabited

/-- Number of socket slots (00_scope.md R5; decision D17 gives 2). -/
def Config.nsock : Nat := 2

/-- How far `TX_CAP` is above its least value 42 (OPEN). -/
opaque Config.txCapExtra : Nat

/-- Capacity of the transmit buffer: OPEN, at least 42 (00_scope.md R5). -/
def Config.txCap : Nat := Config.txCapExtra + 42

/-- How far `CAP_MAX` is above its least value 42 (OPEN). -/
opaque Config.capMaxExtra : Nat

/-- Largest capacity `SOCK.OPEN` accepts, also the size of `RXB`: OPEN, at least 42 (00_scope.md R5). -/
def Config.capMax : Nat := Config.capMaxExtra + 42

/-- The byte that fills the target hardware address of an ARP request (00_scope.md R5, decision D22). -/
def Config.arpThaFill : Byte := 0x00#8

/-- Width of an interface index (OPEN, 00_scope.md R5). -/
opaque Config.ifindexW : Nat

/-- A number from which `ARP_IFINDEX` is cut to its width (OPEN). -/
opaque Config.arpIfindexRaw : Nat

/-- Interface index in the link destination of an ARP request: OPEN, of `IFINDEX_W` bits (00_scope.md R5). -/
def Config.arpIfindex : Nat := Config.arpIfindexRaw % 2 ^ Config.ifindexW

/-- The local hardware address, supplied at start-up (OPEN, 10_state.md R30). -/
opaque Config.lmac : Mac

/-- DESIGN CHOICE (log 4). What the link answers to `LinkOpen` when the script of answers is used up: a free value. -/
opaque Config.openAck : Nat → LinkAck

/-- DESIGN CHOICE (log 4). What the link answers to `LinkSend` when the script of answers is used up: a free value. -/
opaque Config.sendAck : Nat → LinkAck

/-- What comes of asking the link for a frame (20_memory.md R53): a frame with its source address, a transport failure, or no
answer. DESIGN CHOICE (log 3): `silence` is no answer in this step; an operation that is never answered meets it for ever. -/
inductive RecvAnswer where
  | frame (bytes : List Byte) (src : LinkAddr)
  | fail
  | silence
  deriving DecidableEq, Repr, Inhabited

/-- The answer with its interface index cut to `IFINDEX_W` bits, the width an index has (10_state.md R23, log 10). -/
def RecvAnswer.fit : RecvAnswer → RecvAnswer
  | .frame f src => .frame f ⟨src.ifindex % 2 ^ Config.ifindexW, src.hw⟩
  | .fail => .fail
  | .silence => .silence

/-- A free value from which `Config.recvAnswer` is cut. -/
opaque Config.recvAnswerRaw : Nat → RecvAnswer

/-- DESIGN CHOICE (log 4). What the link answers to `LinkRecv` when no script says: a free value. -/
def Config.recvAnswer (n : Nat) : RecvAnswer := (Config.recvAnswerRaw n).fit

end Sys2Proof
end

