-- ==== Sys2Proof/Syntax.lean ====
section
/-! DEFINITION. The 29 operations of the block, one constructor per row of spec/opcode_table.json (30_encoding.md R76), and
the commands that name them: a selector byte with typed operands (R77, log 2). -/

namespace Sys2Proof

/-- An operation with its operands, in the operand order of 30_encoding.md R76. -/
inductive Instr where
  /-- `CSUM buf` (40_checksum.md R92) -/
  | csum (buf : List Byte)
  /-- `ETH.LOAD dst, src, etype` (42_ether.md R114) -/
  | ethLoad (dst src : Mac) (etype : U16)
  /-- `ETH.DEC` (42_ether.md R115) -/
  | ethDec
  /-- `ETH.ENC` (42_ether.md R116) -/
  | ethEnc
  /-- `IP.NEW id` (43_ipv4.md R124) -/
  | ipNew (id : U16)
  /-- `IP.TTL ttl` (43_ipv4.md R125) -/
  | ipTtl (ttl : Byte)
  /-- `IP.PROTOCOL proto` (43_ipv4.md R126) -/
  | ipProtocol (proto : Byte)
  /-- `IP.DESTINATION dst` (43_ipv4.md R127) -/
  | ipDestination (dst : Ip4)
  /-- `IP.APPEND_OPT opt` (43_ipv4.md R130) -/
  | ipAppendOpt (opt : List Byte)
  /-- `IP.CHECKSUM` (43_ipv4.md R131) -/
  | ipChecksum
  /-- `IP.DEC` (43_ipv4.md R132) -/
  | ipDec
  /-- `IP.ENC` (43_ipv4.md R136) -/
  | ipEnc
  /-- `IP.LOAD ver, hlen, tos, tlen, id, df, mf, foff, ttl, proto, csum, src, dst, opts`; `hlen` in bytes (43_ipv4.md R133) -/
  | ipLoad (ver : BitVec 4) (hlen : Nat) (tos : Byte) (tlen id : U16) (df mf : Bool) (foff : BitVec 13)
      (ttl proto : Byte) (csum : U16) (src dst : Ip4) (opts : List Byte)
  /-- `ICMP.LOAD type, code, ident, seq` (44_icmp.md R154) -/
  | icmpLoad (type code : Byte) (ident seq : U16)
  /-- `ICMP.DEC` (44_icmp.md R155) -/
  | icmpDec
  /-- `ICMP.ENC` (44_icmp.md R156) -/
  | icmpEnc
  /-- `ICMP.CHECKSUM payload` (44_icmp.md R157) -/
  | icmpChecksum (payload : List Byte)
  /-- `SOCK.OPEN s, filter, cap` (45_socket.md R166) -/
  | sockOpen (slot : Nat) (filter : EtherFilter) (cap : Nat)
  /-- `SOCK.SEND s, dest` (45_socket.md R171) -/
  | sockSend (slot : Nat) (dest : LinkAddr)
  /-- `SOCK.RECV s` (45_socket.md R175) -/
  | sockRecv (slot : Nat)
  /-- `TX.CLEAR` (45_socket.md R180) -/
  | txClear
  /-- `TX.APPEND data` (45_socket.md R181) -/
  | txAppend (data : List Byte)
  /-- `RX.REST` (45_socket.md R182) -/
  | rxRest
  /-- `RX.REWIND` (45_socket.md R183) -/
  | rxRewind
  /-- `ARP.START s, target, lip, lmac` (46_arp.md R193) -/
  | arpStart (slot : Nat) (target lip : Ip4) (lmac : Mac)
  /-- `ARP.POLL` (46_arp.md R195) -/
  | arpPoll
  /-- `ANA.STEP s` (47_consumers.md R211) -/
  | anaStep (slot : Nat)
  /-- `FLT.SET smac, dmac, sip, dip`; `none` is the spec's `unset` (47_consumers.md R215) -/
  | fltSet (smac dmac : Option Mac) (sip dip : Option Ip4)
  /-- `FLT.STEP s` (47_consumers.md R217) -/
  | fltStep (slot : Nat)
  deriving DecidableEq, Repr

/-- The types an operand can have (30_encoding.md R77, and the field widths of 10_state.md R15 for `IP.LOAD`). -/
inductive OperandTy where
  | u4 | u8 | u13 | u16 | bit | nat | mac | ip4 | bytes | slot | filter | linkaddr | optMac | optIp4
  deriving DecidableEq, Repr

/-- A typed operand value (30_encoding.md R77). -/
inductive Operand where
  | u4 (v : BitVec 4)
  | u8 (v : Byte)
  | u13 (v : BitVec 13)
  | u16 (v : U16)
  | bit (v : Bool)
  | nat (v : Nat)
  | mac (v : Mac)
  | ip4 (v : Ip4)
  | bytes (v : List Byte)
  | slot (v : Nat)
  | filter (v : EtherFilter)
  | linkaddr (v : LinkAddr)
  | optMac (v : Option Mac)
  | optIp4 (v : Option Ip4)
  deriving DecidableEq, Repr

/-- The type of an operand value. -/
def Operand.ty : Operand → OperandTy
  | .u4 _ => .u4
  | .u8 _ => .u8
  | .u13 _ => .u13
  | .u16 _ => .u16
  | .bit _ => .bit
  | .nat _ => .nat
  | .mac _ => .mac
  | .ip4 _ => .ip4
  | .bytes _ => .bytes
  | .slot _ => .slot
  | .filter _ => .filter
  | .linkaddr _ => .linkaddr
  | .optMac _ => .optMac
  | .optIp4 _ => .optIp4

/-- One command of the host: an operation selector and its operands in order (30_encoding.md R76, R77). -/
structure Command where
  sel : Byte
  args : List Operand
  deriving DecidableEq, Repr

end Sys2Proof
end

