-- ==== Sys2Proof/Machine/State.lean ====
section
/-! DEFINITION. Everything that can change (10_state.md R10 to R32), as plain data, and its value after reset. -/

namespace Sys2Proof.Machine

open Sys2Proof

/-- How an operation ends: its status (60_exceptions.md R231). -/
inductive Status where
  | ok
  | eIo
  | eTrunc
  | eInval
  | eNoMatch
  | eNoReply
  | eNoValue
  deriving DecidableEq, Repr

/-- An EtherHeader value (10_state.md R13, 42_ether.md R110). -/
structure EthHeader where
  dst : Mac
  src : Mac
  etype : U16
  deriving DecidableEq, Repr

/-- An IPv4Header value (10_state.md R15); `hlen` is in bytes. -/
structure Ip4Header where
  ver : BitVec 4
  hlen : Nat
  tos : Byte
  tlen : U16
  id : U16
  df : Bool
  mf : Bool
  foff : BitVec 13
  ttl : Byte
  proto : Byte
  csum : U16
  src : Ip4
  dst : Ip4
  opts : List Byte
  deriving DecidableEq, Repr

/-- An ICMPHeader value (10_state.md R18); `ident` and `seq` are 0 when the type has no pair (R19). -/
structure IcmpHeader where
  type : Byte
  code : Byte
  csum : U16
  ident : U16
  seq : U16
  deriving DecidableEq, Repr

/-- The register `ETH` with its valid bit (10_state.md R11, R13). -/
structure EthReg where
  valid : Bool
  hdr : EthHeader
  deriving DecidableEq, Repr

/-- The register `IP4` with its valid bit (10_state.md R11, R15). -/
structure Ip4Reg where
  valid : Bool
  hdr : Ip4Header
  deriving DecidableEq, Repr

/-- The register `ICMP` with its valid bit (10_state.md R11, R18). -/
structure IcmpReg where
  valid : Bool
  hdr : IcmpHeader
  deriving DecidableEq, Repr

/-- The two byte spaces (20_memory.md R40). A buffer is the bytes at indices 0, 1, ... up to its length, and no other byte exists
(10_state.md R21, R22; log 13): `TXLEN` and `RXLEN` are the lengths. -/
structure Memory where
  txb : List Byte
  rxb : List Byte
  deriving DecidableEq, Repr

/-- The registers that go with `RXB`: `RXV`, `RXPOS`, `RXSRC` (10_state.md R22). -/
structure RxReg where
  valid : Bool
  pos : Nat
  src : LinkAddr
  deriving DecidableEq, Repr

/-- One socket slot (10_state.md R24). -/
structure SockSlot where
  isOpen : Bool
  filter : EtherFilter
  cap : Nat
  deriving DecidableEq, Repr

/-- The states of the ARP resolver (10_state.md R25, 90_conflicts.md C1). -/
inductive ArpState where
  | idle
  | awaitingReply
  | resolved
  | failed
  deriving DecidableEq, Repr

/-- The ARP resolver's registers (10_state.md R25). -/
structure ArpReg where
  state : ArpState
  sock : Nat
  mac : Mac
  err : Status
  deriving DecidableEq, Repr

/-- The filter predicate; `none` is `unset` (10_state.md R27). -/
structure FltReg where
  smac : Option Mac
  dmac : Option Mac
  sip : Option Ip4
  dip : Option Ip4
  deriving DecidableEq, Repr

/-- The protocol tally: protocol number and count, keys rising (10_state.md R26, log 16). -/
abbrev Tally := List (Byte × Nat)

/-- The ghost values of 70_reset_and_hazards.md R271: read by no operation, no effect on any result (log 15). -/
structure Ghost where
  ipFresh : Bool
  icmpFresh : Bool
  icmpOver : List Byte
  deriving DecidableEq, Repr

/-- The environment's side of the link: the answers it will give, in the order they are asked for. What comes to receives is first
`inbound`, then `cycle` over and over, and with both empty a free answer each time; `draws` counts the free answers
(20_memory.md R52, R53, R57; log 3, log 4). -/
structure LinkEnv where
  openAcks : List LinkAck
  sendAcks : List LinkAck
  inbound : List RecvAnswer
  cycle : List RecvAnswer
  draws : Nat
  deriving DecidableEq, Repr

/-- An entry of the record of link events (20_memory.md R54, R57; log 12). -/
inductive LinkEvent where
  | opened (slot : Nat) (filter : EtherFilter) (ack : LinkAck)
  | sent (slot : Nat) (frame : List Byte) (dest : LinkAddr) (ack : LinkAck)
  | received (slot : Nat) (answer : RecvAnswer)
  deriving DecidableEq, Repr

/-- What the filter emits on a match (47_consumers.md R219); `opts` is absent when empty. -/
structure FltRecord where
  ver : BitVec 4
  hlen : Nat
  tos : Byte
  tlen : U16
  id : U16
  df : Bool
  mf : Bool
  foff : BitVec 13
  ttl : Byte
  proto : Byte
  csum : U16
  src : Ip4
  dst : Ip4
  opts : Option (List Byte)
  payload : List Byte
  deriving DecidableEq, Repr

/-- The results an operation returns beside its status (30_encoding.md R76, R78). -/
inductive Result where
  /-- no results -/
  | none
  /-- a checksum `c` -/
  | csum (c : U16)
  /-- the Ethernet header decoded -/
  | eth (h : EthHeader)
  /-- the IPv4 header decoded -/
  | ip4 (h : Ip4Header)
  /-- the ICMP header decoded -/
  | icmp (h : IcmpHeader)
  /-- `n` captured bytes from `src` -/
  | recv (n : Nat) (src : LinkAddr)
  /-- the remainder -/
  | rest (b : List Byte)
  /-- the resolved hardware address -/
  | mac (m : Mac)
  /-- a snapshot of the tally -/
  | tally (t : Tally)
  /-- `matched = false` -/
  | noMatch
  /-- `matched = true` with its record -/
  | isMatch (r : FltRecord)
  /-- a loop step captured a frame that did not decode: reported and skipped, told apart from the slot's `E_INVAL`
  (47_consumers.md R211, log 17) -/
  | frameSkipped
  deriving DecidableEq, Repr

/-- What the host gets back from an operation (30_encoding.md R78). -/
structure Reply where
  status : Status
  result : Result
  deriving DecidableEq, Repr

/-- What the host does next: issue an operation, or apply reset (10_state.md R12, 70_reset_and_hazards.md R260; log 1). -/
inductive HostInput where
  | issue (c : Command)
  | reset
  deriving DecidableEq, Repr

/-- The whole state. `eth` to `lmac` are the spec's own (10_state.md R10), `ghost` and `trace` the records it tells a model to carry
(70_reset_and_hazards.md R271, 20_memory.md R54); `link`, `host`, `busy` and `reply` are the model's own (log 1, 3, 5, 11). -/
structure State where
  eth : EthReg
  ip4 : Ip4Reg
  icmp : IcmpReg
  acc : Nat
  mem : Memory
  rx : RxReg
  sock : Vector SockSlot Config.nsock
  arp : ArpReg
  tally : Tally
  flt : FltReg
  lmac : Mac
  ghost : Ghost
  link : LinkEnv
  trace : List LinkEvent
  host : List HostInput
  busy : Option Instr
  reply : Option Reply
  deriving DecidableEq, Repr

/-- Why the machine stops. The spec's own error conditions are statuses, not faults (60_exceptions.md R230, R238). -/
inductive Fault where
  /-- A `MemRead` outside the defined part of a buffer, which 00_scope.md R8 leaves undefined and 20_memory.md R45 rules out.
  Raised by `ETH.DEC`, `IP.DEC`, `ICMP.DEC`, `RX.REST` in a state whose cursor `RXPOS` stands beyond `RXLEN`; no run reaches one.
  Safe (log 14). -/
  | outOfBuffer
  deriving DecidableEq, Repr

/-- Why the machine gives an input no meaning. -/
inductive Refusal where
  /-- An operation whose arm has no meaning yet: raised by no arm of this model. Safe. -/
  | notModelled (mnemonic : String)
  /-- A command whose operands are not of the types of its row, which 30_encoding.md R77 says cannot be expressed: raised by
  the step, never by an operation. Safe (log 2). -/
  | operandOutOfType (sel : Byte)
  deriving DecidableEq, Repr

/-- `TXLEN` (10_state.md R21). -/
def State.txlen (s : State) : Nat := s.mem.txb.length

/-- `RXLEN` (10_state.md R22). -/
def State.rxlen (s : State) : Nat := s.mem.rxb.length

/-- DESIGN CHOICE (log 6). The content of an address register nothing has written. -/
def Mac.zero : Mac := ⟨0, 0, 0, 0, 0, 0⟩

/-- `0.0.0.0`: what `IP.NEW` writes (43_ipv4.md R124), and DESIGN CHOICE (log 6) at reset. -/
def Ip4.zero : Ip4 := ⟨0, 0, 0, 0⟩

/-- The machine right after reset (10_state.md R32). What that table calls unspecified is zero here, DESIGN CHOICE (log 6). -/
def State.reset : State where
  eth := ⟨false, ⟨Mac.zero, Mac.zero, 0⟩⟩
  ip4 := ⟨false, ⟨0, 0, 0, 0, 0, false, false, 0, 0, 0, 0, Ip4.zero, Ip4.zero, []⟩⟩
  icmp := ⟨false, ⟨0, 0, 0, 0, 0⟩⟩
  acc := 0
  mem := ⟨[], []⟩
  rx := ⟨false, 0, ⟨0, Mac.zero⟩⟩
  sock := Vector.replicate Config.nsock ⟨false, .all, 0⟩
  arp := ⟨.idle, 0, Mac.zero, .ok⟩
  tally := []
  flt := ⟨none, none, none, none⟩
  lmac := Config.lmac
  ghost := ⟨false, false, []⟩
  link := ⟨[], [], [], [], 0⟩
  trace := []
  host := []
  busy := none
  reply := none

end Sys2Proof.Machine
end

