-- ==== Sys2Proof/Machine/Operands.lean ====
section
/-! DEFINITION. Byte sequences, byte order and the views of operands and fields (00_scope.md R7, 20_memory.md R41). -/

namespace Sys2Proof.Machine

open Sys2Proof

/-- The byte at index `i` of a sequence; every rule tests the length before it reads, so the default is never seen (00_scope.md R7). -/
def byteAt (b : List Byte) (i : Nat) : Byte := b.getD i 0

/-- The big-endian 16-bit word at index `i` (00_scope.md R7). -/
def be16 (b : List Byte) (i : Nat) : U16 := byteAt b i ++ byteAt b (i + 1)

/-- The two wire bytes of a 16-bit number, high byte first (00_scope.md R7). -/
def bytes16 (v : U16) : List Byte := [v.extractLsb' 8 8, v.extractLsb' 0 8]

/-- The half-open slice `b[off..off+n)` (00_scope.md R7). -/
def slice (b : List Byte) (off n : Nat) : List Byte := (b.drop off).take n

/-- `zeros(n)` (00_scope.md R7). -/
def zeros (n : Nat) : List Byte := List.replicate n 0

/-- The six bytes of a hardware address in wire order (20_memory.md R41). -/
def macBytes (m : Mac) : List Byte := [m.b0, m.b1, m.b2, m.b3, m.b4, m.b5]

/-- The four bytes of an IPv4 address in wire order (20_memory.md R41). -/
def ip4Bytes (a : Ip4) : List Byte := [a.b0, a.b1, a.b2, a.b3]

/-- The hardware address in the six bytes from index `i`. -/
def macAt (b : List Byte) (i : Nat) : Mac :=
  ⟨byteAt b i, byteAt b (i + 1), byteAt b (i + 2), byteAt b (i + 3), byteAt b (i + 4), byteAt b (i + 5)⟩

/-- The IPv4 address in the four bytes from index `i`. -/
def ip4At (b : List Byte) (i : Nat) : Ip4 := ⟨byteAt b i, byteAt b (i + 1), byteAt b (i + 2), byteAt b (i + 3)⟩

/-- `FF:FF:FF:FF:FF:FF`, the broadcast hardware address (46_arp.md R192, R193). -/
def macBroadcast : Mac := ⟨0xFF, 0xFF, 0xFF, 0xFF, 0xFF, 0xFF⟩

/-- The ethertype as the source's variant (10_state.md R14, 30_encoding.md R63). -/
inductive EtherView where
  | ip
  | arp
  | other (e : U16)
  deriving DecidableEq, Repr

/-- `etype_view` (10_state.md R14). -/
def etypeView (e : U16) : EtherView := if e = 0x0800 then .ip else if e = 0x0806 then .arp else .other e

/-- The protocol as the source's variant (10_state.md R17, 30_encoding.md R69). -/
inductive ProtoView where
  | icmp
  | tcp
  | udp
  | other (p : Byte)
  deriving DecidableEq, Repr

/-- `proto_view` (10_state.md R17). -/
def protoView (p : Byte) : ProtoView :=
  if p = 1 then .icmp else if p = 6 then .tcp else if p = 17 then .udp else .other p

/-- `has_pair`: the ICMP types that carry an identifier and a sequence number (10_state.md R19, 30_encoding.md R71). -/
def hasPair (t : Byte) : Bool := t.toNat ∈ [0, 8, 9, 10, 13, 14, 15, 16, 17, 18]

/-- `pad4`: zero-pads to the next multiple of 4 (43_ipv4.md R128). -/
def pad4 (b : List Byte) : List Byte := b ++ zeros ((4 - b.length % 4) % 4)

/-- `passes`: does a frame pass a socket's filter (45_socket.md R174). -/
def passes (flt : EtherFilter) (f : List Byte) : Bool :=
  match flt with
  | .all => true
  | .single e => decide (14 ≤ f.length) && be16 f 12 == e

/-- The number of a status (60_exceptions.md R231). -/
def statusCode : Status → Nat
  | .ok => 0
  | .eIo => 1
  | .eTrunc => 2
  | .eInval => 3
  | .eNoMatch => 4
  | .eNoReply => 5
  | .eNoValue => 6

end Sys2Proof.Machine
end

