-- ==== Sys2Proof/Machine/Codec.lean ====
section
/-! DEFINITION. The header codec contract, the three codecs, their composition, and the checksum function: pure functions on
values and byte sequences (40_checksum.md, 41_header_codec.md, 42_ether.md, 43_ipv4.md, 44_icmp.md). -/

namespace Sys2Proof.Machine

open Sys2Proof

/-- The answer of a decode: a value with the remaining bytes, or a status (41_header_codec.md R100). -/
inductive CodecResult (α : Type) where
  | ok (value : α) (rest : List Byte)
  | err (e : Status)
  deriving DecidableEq, Repr

/-- A codec: a decode and an encode (41_header_codec.md R100). -/
structure Codec (α : Type) where
  decode : List Byte → CodecResult α
  encode : α → List Byte

/-- Two codecs in sequence: decode the first, feed its remainder to the second, concatenate on encode (41_header_codec.md R103). -/
def Codec.seq {α β : Type} (A : Codec α) (B : Codec β) : Codec (α × β) where
  decode b :=
    match A.decode b with
    | .err e => .err e
    | .ok a r1 =>
      match B.decode r1 with
      | .err e => .err e
      | .ok b' r2 => .ok (a, b') r2
  encode p := A.encode p.1 ++ B.encode p.2

/-- The sum of the consecutive big-endian 16-bit words of a sequence; an odd last byte is the high byte of a word whose low byte is
zero (40_checksum.md R91). -/
def wordSum : List Byte → Nat
  | [] => 0
  | [hi] => hi.toNat * 256
  | hi :: lo :: rest => hi.toNat * 256 + lo.toNat + wordSum rest

/-- The fold: add the high part into the low 16 bits until the high part is zero (40_checksum.md R91). `fuel` bounds the passes; every
pass but the last lowers `acc`, so `acc` passes are always enough. -/
def foldCarry : Nat → Nat → Nat
  | 0, acc => acc
  | fuel + 1, acc => if acc / 65536 = 0 then acc else foldCarry fuel (acc % 65536 + acc / 65536)

/-- What `ACC` holds after the fold (40_checksum.md R91). -/
def foldedSum (b : List Byte) : Nat := foldCarry (wordSum b) (wordSum b)

/-- `csum16` (40_checksum.md R91). -/
def csum16 (b : List Byte) : U16 := ~~~ (BitVec.ofNat 16 (foldedSum b))

/-- `eth_decode` (42_ether.md R111). -/
def ethDecode (b : List Byte) : CodecResult EthHeader :=
  if b.length < 14 then .err .eTrunc
  else .ok ⟨macAt b 0, macAt b 6, be16 b 12⟩ (b.drop 14)

/-- `eth_encode` (42_ether.md R112). -/
def ethEncode (h : EthHeader) : List Byte := macBytes h.dst ++ macBytes h.src ++ bytes16 h.etype

/-- The invariant of a valid IPv4Header value (10_state.md R16). -/
def Ip4Header.wf (h : Ip4Header) : Bool :=
  h.hlen % 4 == 0 && decide (20 ≤ h.hlen) && decide (h.hlen ≤ 60) && h.opts.length == h.hlen - 20 &&
    decide (h.hlen ≤ h.tlen.toNat)

/-- `ip_encode` (43_ipv4.md R121, 30_encoding.md R67): bit 7 of byte 6 is 0; the header length goes out in words. -/
def ipEncode (h : Ip4Header) : List Byte :=
  [(h.ver ++ BitVec.ofNat 4 (h.hlen / 4) : BitVec 8), h.tos] ++ bytes16 h.tlen ++ bytes16 h.id ++
    [(0#1 ++ BitVec.ofBool h.df ++ BitVec.ofBool h.mf ++ h.foff.extractLsb' 8 5 : BitVec 8), h.foff.extractLsb' 0 8, h.ttl,
      h.proto] ++
    bytes16 h.csum ++ ip4Bytes h.src ++ ip4Bytes h.dst ++ h.opts

/-- Stage 2 of `ip_decode`: the fields of the fixed prefix, the options left empty (43_ipv4.md R122, 30_encoding.md R67). -/
def ipFixedFields (b : List Byte) : Ip4Header where
  ver := (byteAt b 0).extractLsb' 4 4
  hlen := ((byteAt b 0).extractLsb' 0 4).toNat * 4
  tos := byteAt b 1
  tlen := be16 b 2
  id := be16 b 4
  df := (byteAt b 6).getLsbD 6
  mf := (byteAt b 6).getLsbD 5
  foff := (be16 b 6).extractLsb' 0 13
  ttl := byteAt b 8
  proto := byteAt b 9
  csum := be16 b 10
  src := ip4At b 12
  dst := ip4At b 16
  opts := []

/-- `ip_decode`, its four stages in order (43_ipv4.md R122). -/
def ipDecode (b : List Byte) : CodecResult Ip4Header :=
  if b.length < 20 then .err .eTrunc
  else
    let h := ipFixedFields b
    if h.hlen < 20 then .err .eInval
    else if h.tlen.toNat < h.hlen then .err .eInval
    else
      let r := b.drop 20
      let n := h.hlen - 20
      if r.length < n then .err .eTrunc
      else .ok { h with opts := r.take n } (r.drop n)

/-- A valid ICMPHeader value: no identifier and no sequence number outside the family (10_state.md R19, 44_icmp.md R150). -/
def IcmpHeader.wf (h : IcmpHeader) : Bool := hasPair h.type || (h.ident == 0 && h.seq == 0)

/-- `icmp_encode` (44_icmp.md R151). -/
def icmpEncode (h : IcmpHeader) : List Byte :=
  [h.type, h.code] ++ bytes16 h.csum ++ (if hasPair h.type then bytes16 h.ident ++ bytes16 h.seq else [])

/-- `icmp_decode` (44_icmp.md R152). -/
def icmpDecode (b : List Byte) : CodecResult IcmpHeader :=
  if b.length < 4 then .err .eTrunc
  else if hasPair (byteAt b 0) then
    if b.length < 8 then .err .eTrunc
    else .ok ⟨byteAt b 0, byteAt b 1, be16 b 2, be16 b 4, be16 b 6⟩ (b.drop 8)
  else .ok ⟨byteAt b 0, byteAt b 1, be16 b 2, 0, 0⟩ (b.drop 4)

/-- The Ethernet header codec (42_ether.md). -/
def ethCodec : Codec EthHeader := ⟨ethDecode, ethEncode⟩

/-- The IPv4 header codec (43_ipv4.md). -/
def ipCodec : Codec Ip4Header := ⟨ipDecode, ipEncode⟩

/-- The ICMP header codec (44_icmp.md). -/
def icmpCodec : Codec IcmpHeader := ⟨icmpDecode, icmpEncode⟩

/-- The header checksum: the checksum of the serialised header with its checksum field zeroed (43_ipv4.md R131). -/
def ipHeaderBytes (h : Ip4Header) : List Byte := ipEncode { h with csum := 0 }

/-- The bytes an ICMP checksum covers: the serialised header with its checksum field zeroed, then the payload (44_icmp.md R157). -/
def icmpSummedBytes (h : IcmpHeader) (payload : List Byte) : List Byte := icmpEncode { h with csum := 0 } ++ payload

end Sys2Proof.Machine
end

