-- ==== Sys2Proof/Machine/Flags.lean ====
section
/-! DEFINITION. The block has no status flags and no condition codes (10_state.md R28): no operation computes a flag. What stands
in their place is the ghost bookkeeping of 70_reset_and_hazards.md R271, which no operation reads (log 15). -/

namespace Sys2Proof.Machine

/-- `IP4.fresh <- true`: `IP.CHECKSUM` returned `OK` (70_reset_and_hazards.md R271). -/
def Ghost.ipSummed (g : Ghost) : Ghost := { g with ipFresh := true }

/-- `IP4.fresh <- false`: any other write of `IP4` (70_reset_and_hazards.md R271). -/
def Ghost.ipTouched (g : Ghost) : Ghost := { g with ipFresh := false }

/-- `ICMP.fresh <- true` with `ICMP.over <- p`: `ICMP.CHECKSUM p` returned `OK` (70_reset_and_hazards.md R271). -/
def Ghost.icmpSummed (g : Ghost) (p : List Sys2Proof.Byte) : Ghost := { g with icmpFresh := true, icmpOver := p }

/-- `ICMP.fresh <- false`: `ICMP.LOAD` or `ICMP.DEC` returned `OK` (70_reset_and_hazards.md R271). -/
def Ghost.icmpTouched (g : Ghost) : Ghost := { g with icmpFresh := false }

end Sys2Proof.Machine
end

