-- ==== Sys2Proof/Machine/Ops.lean ====
section
/-! DEFINITION. The named operations over registers, buffers and the link that the 29 meanings share, and the one way an operation
ends: with a status (60_exceptions.md R230, R238). -/

namespace Sys2Proof.Machine

open Sys2Proof

/-! ### Register writes, one per register (00_scope.md R8) -/

def State.setEth (s : State) (v : EthReg) : State := { s with eth := v }
def State.setIp4 (s : State) (v : Ip4Reg) : State := { s with ip4 := v }
def State.setIcmp (s : State) (v : IcmpReg) : State := { s with icmp := v }
def State.setAcc (s : State) (v : Nat) : State := { s with acc := v }
def State.setMem (s : State) (v : Memory) : State := { s with mem := v }
def State.setRx (s : State) (v : RxReg) : State := { s with rx := v }
def State.setSock (s : State) (v : Vector SockSlot Config.nsock) : State := { s with sock := v }
def State.setArp (s : State) (v : ArpReg) : State := { s with arp := v }
def State.setTally (s : State) (v : Tally) : State := { s with tally := v }
def State.setFlt (s : State) (v : FltReg) : State := { s with flt := v }
def State.setGhost (s : State) (v : Ghost) : State := { s with ghost := v }
def State.setLink (s : State) (v : LinkEnv) : State := { s with link := v }
def State.setTrace (s : State) (v : List LinkEvent) : State := { s with trace := v }
def State.setHost (s : State) (v : List HostInput) : State := { s with host := v }
def State.setBusy (s : State) (v : Option Instr) : State := { s with busy := v }
def State.setReply (s : State) (v : Option Reply) : State := { s with reply := v }

/-! ### How an operation ends -/

/-- The three ways an operation ends (60_exceptions.md R230): with a status and results; not yet (a blocked receive); or, in a state no
run reaches, at a `MemRead` outside its buffer (log 14). -/
inductive OpEnd where
  | done (s : State) (status : Status) (result : Result)
  | blocked (s : State)
  | outOfBuffer
  deriving DecidableEq, Repr

/-- `raise`: taking what this hardware has for an exception. The operation ends with a status and no results; nothing is saved, no
mode changes, control stays with the host (60_exceptions.md R238). There is no return from it: the host issues its next
operation (R240). -/
def raise (s : State) (e : Status) : OpEnd := .done s e .none

/-- One operation after another inside a compound operation: go on when the first ended `OK`, else judge its status. -/
def OpEnd.andThen (r : OpEnd) (onOk : State → OpEnd) (onErr : State → Status → OpEnd) : OpEnd :=
  match r with
  | .done s .ok _ => onOk s
  | .done s e _ => onErr s e
  | .blocked s => .blocked s
  | .outOfBuffer => .outOfBuffer

/-- The end of an operation as a step: the host gets the status and the results (30_encoding.md R78), or the operation stays in progress
with no reply (45_socket.md R175, log 5). -/
def OpEnd.outcome (i : Instr) : OpEnd → Host.Outcome State Fault Refusal
  | .done s status result => .next ((s.setBusy none).setReply (some ⟨status, result⟩))
  | .blocked s => .next ((s.setBusy (some i)).setReply none)
  | .outOfBuffer => .fault .outOfBuffer

/-- The reset event: any operation in progress is discarded without a status and every item of state takes its reset value;
`LMAC`, the link and its record, and what the host does next are not touched (70_reset_and_hazards.md R260, R261; log 7). What the
link has yet to answer is as open after a reset as before it: the rest of `inbound`, then `cycle`, then free answers. -/
def State.applyReset (s : State) : State :=
  { State.reset with lmac := s.lmac, link := s.link, trace := s.trace, host := s.host }

/-! ### The two byte spaces -/

/-- The byte spaces (20_memory.md R40). -/
inductive Space where
  | txb
  | rxb
  deriving DecidableEq, Repr

/-- The bytes of a space, index 0 first. -/
def Memory.buf (m : Memory) : Space → List Byte
  | .txb => m.txb
  | .rxb => m.rxb

/-- The memory with one space replaced. -/
def Memory.setBuf (m : Memory) (sp : Space) (b : List Byte) : Memory :=
  match sp with
  | .txb => { m with txb := b }
  | .rxb => { m with rxb := b }

/-- One byte of a space; `none` at an index where no byte exists (10_state.md R21, R22; log 13). -/
def Memory.readByte (m : Memory) (sp : Space) (a : Nat) : Option Byte := (m.buf sp)[a]?

/-- A space as address and byte pairs, addresses rising. -/
def Memory.cells (m : Memory) (sp : Space) : List Host.Cell := (m.buf sp).zipIdx.map fun p => (p.2, p.1)

/-- `MemRead(B, off, n)`: defined only when `off + n` is at most the buffer's length (00_scope.md R8). -/
def Memory.memRead (m : Memory) (sp : Space) (off n : Nat) : Option (List Byte) :=
  if off + n ≤ (m.buf sp).length then some (slice (m.buf sp) off n) else none

/-- `MemWrite(B, off, n, v)` with `n = len(v)`: replaces, and at the buffer's end appends (00_scope.md R8). -/
def Memory.memWrite (m : Memory) (sp : Space) (off : Nat) (v : List Byte) : Memory :=
  m.setBuf sp ((m.buf sp).take off ++ v ++ (m.buf sp).drop (off + v.length))

/-- `LEN <- n` on a buffer that is at least `n` long: the bytes from `n` on no longer exist (10_state.md R21). -/
def Memory.setLen (m : Memory) (sp : Space) (n : Nat) : Memory := m.setBuf sp ((m.buf sp).take n)

/-- A buffer overwritten whole: `MemWrite(B, 0, n, v) ; LEN <- n` (45_socket.md R175, 46_arp.md R193). -/
def Memory.overwrite (m : Memory) (sp : Space) (v : List Byte) : Memory := (m.memWrite sp 0 v).setLen sp v.length

/-- The buffers keep within their capacities (10_state.md R21, R22). A buffer is a list of bytes, so the bytes that exist are exactly
those below its length and two equal memories are equal data (log 13). -/
def Memory.wf (m : Memory) : Bool := decide (m.txb.length ≤ Config.txCap) && decide (m.rxb.length ≤ Config.capMax)

/-- The remainder `RXB[RXPOS..RXLEN)` (10_state.md R22, 41_header_codec.md R105). -/
def State.remainder (s : State) : Option (List Byte) := s.mem.memRead .rxb s.rx.pos (s.rxlen - s.rx.pos)

/-- `T.DEC`: a decode bound to the cursor (41_header_codec.md R105). -/
def decodeOp {α : Type} (dec : List Byte → CodecResult α) (put : State → α → State) (res : α → Result) (s : State) : OpEnd :=
  if s.rx.valid = false then raise s .eNoValue
  else match s.remainder with
    | none => .outOfBuffer
    | some b => match dec b with
      | .err e => raise s e
      | .ok h rest => .done ((put s h).setRx { s.rx with pos := s.rxlen - rest.length }) .ok (res h)

/-- Appends to `TXB`, or ends with `E_INVAL` and writes nothing when the bytes do not fit (20_memory.md R45, 45_socket.md R181). -/
def appendTx (s : State) (data : List Byte) : OpEnd :=
  if s.txlen + data.length > Config.txCap then raise s .eInval
  else .done (s.setMem (s.mem.memWrite .txb s.txlen data)) .ok .none

/-- `T.ENC`: an encode bound to the transmit buffer; the valid bit is tested before the capacity (41_header_codec.md R105,
60_exceptions.md R239). -/
def encodeOp (valid : Bool) (bytes : List Byte) (s : State) : OpEnd :=
  if valid = false then raise s .eNoValue else appendTx s bytes

/-! ### Sockets and the link -/

/-- The slot `k` when it exists and is open (45_socket.md R171, R175). -/
def State.openSlot (s : State) (k : Nat) : Option SockSlot :=
  if h : k < Config.nsock then (if s.sock[k].isOpen then some s.sock[k] else none) else none

/-- The status an operation ends with on the link's answer: `fail` is `E_IO`, never retried (60_exceptions.md R232). -/
def ackStatus : LinkAck → Status
  | .ok => .ok
  | .fail => .eIo

/-- `LinkOpen(s, filter)`: the link's next answer, recorded (20_memory.md R57, R54). Once the script of answers is used up the answer is
a free value (log 4). -/
def linkOpen (s : State) (k : Nat) (flt : EtherFilter) : LinkAck × State :=
  match s.link.openAcks with
  | a :: rest => (a, (s.setLink { s.link with openAcks := rest }).setTrace (s.trace ++ [.opened k flt a]))
  | [] =>
    let a := Config.openAck s.link.draws
    (a, (s.setLink { s.link with draws := s.link.draws + 1 }).setTrace (s.trace ++ [.opened k flt a]))

/-- `LinkSend(s, frame, dest)`: the link's next answer, recorded with the frame (20_memory.md R52, R54; log 4 as for `linkOpen`). -/
def linkSend (s : State) (k : Nat) (frame : List Byte) (dest : LinkAddr) : LinkAck × State :=
  match s.link.sendAcks with
  | a :: rest => (a, (s.setLink { s.link with sendAcks := rest }).setTrace (s.trace ++ [.sent k frame dest a]))
  | [] =>
    let a := Config.sendAck s.link.draws
    (a, (s.setLink { s.link with draws := s.link.draws + 1 }).setTrace (s.trace ++ [.sent k frame dest a]))

/-- What the link has ready for the next receive: the rest of `inbound`; when that is used up `cycle` from its start; when there is
none either, one free answer (20_memory.md R53; log 3, log 4). Never empty. -/
def LinkEnv.offers (l : LinkEnv) : List RecvAnswer :=
  match l.inbound, l.cycle with
  | a :: rest, _ => a :: rest
  | [], a :: rest => a :: rest
  | [], [] => [Config.recvAnswer l.draws]

/-- The number of free answers drawn once `offers` was asked for (log 4). -/
def LinkEnv.drawsAfter (l : LinkEnv) : Nat :=
  match l.inbound, l.cycle with
  | [], [] => l.draws + 1
  | _, _ => l.draws

/-- How the loop of a receive comes out (45_socket.md R175): no answer yet, a transport failure, or a frame that passes. -/
inductive RecvVerdict where
  | blocked
  | failed
  | captured (f : List Byte) (src : LinkAddr)
  deriving DecidableEq, Repr

/-- A receive's verdict, the answers it used (silence is none) and what the link has left. -/
structure RecvScan where
  verdict : RecvVerdict
  used : List RecvAnswer
  rest : List RecvAnswer
  deriving DecidableEq, Repr

/-- The loop of `SOCK.RECV`: take answers of `LinkRecv` until one is a failure or a frame that passes the filter; the other frames are
consumed and dropped (45_socket.md R174, R175). It waits at a silence, and at the end of what the link has ready; the next step goes
on from there (log 3, log 5). -/
def scanInbound (flt : EtherFilter) : List RecvAnswer → RecvScan
  | [] => ⟨.blocked, [], []⟩
  | .silence :: rest => ⟨.blocked, [], rest⟩
  | .fail :: rest => ⟨.failed, [.fail], rest⟩
  | .frame f src :: rest =>
    if passes flt f then ⟨.captured f src, [.frame f src], rest⟩
    else
      let e := scanInbound flt rest
      ⟨e.verdict, .frame f src :: e.used, e.rest⟩

/-- The receive itself, which `SOCK.RECV`, `ARP.POLL`, `ANA.STEP` and `FLT.STEP` run (45_socket.md R175 to R178): at most the slot's capacity
in bytes is kept, silently; the answers used are recorded (20_memory.md R54). -/
def receive (k : Nat) (s : State) : OpEnd :=
  match s.openSlot k with
  | none => raise s .eInval
  | some slot =>
    let scan := scanInbound slot.filter s.link.offers
    let s1 := (s.setLink { s.link with inbound := scan.rest, draws := s.link.drawsAfter }).setTrace (s.trace ++ scan.used.map (.received k))
    match scan.verdict with
    | .blocked => .blocked s1
    | .failed => raise s1 .eIo
    | .captured f src =>
      let n := min f.length slot.cap
      .done ((s1.setMem (s1.mem.overwrite .rxb (f.take n))).setRx ⟨true, 0, src⟩) .ok (.recv n src)

end Sys2Proof.Machine
end

