-- ==== Sys2Proof/Machine/Arp.lean ====
section
/-! DEFINITION. The ARP request/reply state machine (46_arp.md). -/

namespace Sys2Proof.Machine

open Sys2Proof

/-- `arp_request`: the 42 bytes of the request frame (46_arp.md R192, 30_encoding.md R72; log 18). -/
def arpRequest (target lip : Ip4) (lmac : Mac) : List Byte :=
  macBytes macBroadcast ++ macBytes lmac ++ [0x08, 0x06] ++ [0x00, 0x01] ++ [0x08, 0x00] ++ [0x06] ++ [0x04] ++ [0x00, 0x01] ++
    macBytes lmac ++ ip4Bytes lip ++ List.replicate 6 Config.arpThaFill ++ ip4Bytes target

/-- `arp_match`: at least 42 bytes and operation 2, and no other test (46_arp.md R198). -/
def arpMatch (f : List Byte) : Bool := decide (42 ≤ f.length) && be16 f 20 == 0x0002

/-- The link destination of the request (46_arp.md R193). -/
def arpDest : LinkAddr := ⟨Config.arpIfindex, macBroadcast⟩

/-- The resolver's registers after the request went to the link (46_arp.md R193): waiting, or failed with `E_IO`. -/
def arpAfterSend (ack : LinkAck) (k : Nat) (r : ArpReg) : ArpReg :=
  match ack with
  | .ok => { r with sock := k, state := .awaitingReply }
  | .fail => { r with sock := k, state := .failed, err := .eIo }

/-- `ARP.START s, target, lip, lmac` (46_arp.md R193). On a failed send the writes stand (60_exceptions.md R238). -/
def execArpStart (k : Nat) (target lip : Ip4) (lmac : Mac) (s : State) : Host.Outcome State Fault Refusal :=
  (match s.openSlot k with
    | none => raise s .eInval
    | some _ =>
      let f := arpRequest target lip lmac
      let r := linkSend (s.setMem (s.mem.overwrite .txb f)) k f arpDest
      .done (r.2.setArp (arpAfterSend r.1 k s.arp)) (ackStatus r.1) .none).outcome (.arpStart k target lip lmac)

/-- What `ARP.POLL` makes of a captured frame (46_arp.md R195). -/
def arpJudge (s : State) : OpEnd :=
  if arpMatch s.mem.rxb then
    let m := macAt s.mem.rxb 22
    .done (s.setArp { s.arp with mac := m, state := .resolved }) .ok (.mac m)
  else raise s .eNoMatch

/-- The end of an exchange whose receive failed (46_arp.md R195). -/
def arpNoReply (s : State) : OpEnd := raise (s.setArp { s.arp with state := .failed, err := .eNoReply }) .eNoReply

/-- `ARP.POLL` (46_arp.md R195). -/
def execArpPoll (s : State) : Host.Outcome State Fault Refusal :=
  (if s.arp.state ≠ .awaitingReply then raise s .eInval
    else (receive s.arp.sock s).andThen arpJudge (fun s1 _ => arpNoReply s1)).outcome .arpPoll

end Sys2Proof.Machine
end

