-- ==== Sys2Proof/Machine/Checksum.lean ====
section
/-! DEFINITION. `CSUM` (40_checksum.md). -/

namespace Sys2Proof.Machine

open Sys2Proof

/-- `CSUM buf` (40_checksum.md R92): always `OK`; `ACC` is left with the folded sum (10_state.md R20, log 8). -/
def execCsum (buf : List Byte) (s : State) : Host.Outcome State Fault Refusal :=
  (OpEnd.done (s.setAcc (foldedSum buf)) .ok (.csum (csum16 buf))).outcome (.csum buf)

end Sys2Proof.Machine
end

