-- ==== Sys2Proof/Machine/Ether.lean ====
section
/-! DEFINITION. The Ethernet header operations (42_ether.md). -/

namespace Sys2Proof.Machine

open Sys2Proof

/-- `ETH.LOAD dst, src, etype` (42_ether.md R114). -/
def execEthLoad (dst src : Mac) (etype : U16) (s : State) : Host.Outcome State Fault Refusal :=
  (OpEnd.done (s.setEth ⟨true, ⟨dst, src, etype⟩⟩) .ok .none).outcome (.ethLoad dst src etype)

/-- `ETH.DEC` as a part of a compound operation (42_ether.md R115). -/
def ethDecOp (s : State) : OpEnd := decodeOp ethDecode (fun s h => s.setEth ⟨true, h⟩) .eth s

/-- `ETH.DEC` (42_ether.md R115). -/
def execEthDec (s : State) : Host.Outcome State Fault Refusal := (ethDecOp s).outcome .ethDec

/-- `ETH.ENC` (42_ether.md R116). -/
def execEthEnc (s : State) : Host.Outcome State Fault Refusal :=
  (encodeOp s.eth.valid (ethEncode s.eth.hdr) s).outcome .ethEnc

end Sys2Proof.Machine
end

