-- ==== Sys2Proof/Machine/Ipv4.lean ====
section
/-! DEFINITION. The IPv4 header operations (43_ipv4.md). -/

namespace Sys2Proof.Machine

open Sys2Proof

/-- Writes a header to `IP4` in any way but `IP.CHECKSUM`: the value is valid, its checksum no longer fresh (43_ipv4.md R123,
70_reset_and_hazards.md R271). -/
def State.putIp4 (s : State) (h : Ip4Header) : State := (s.setIp4 ⟨true, h⟩).setGhost s.ghost.ipTouched

/-- A setter of the builder: `E_NOVALUE` on an empty register, else the header changed as given (43_ipv4.md R123). -/
def ipSetter (f : Ip4Header → Ip4Header) (s : State) : OpEnd :=
  if s.ip4.valid = false then raise s .eNoValue else .done (s.putIp4 (f s.ip4.hdr)) .ok .none

/-- The header `IP.NEW id` makes (43_ipv4.md R124). -/
def ipNewHeader (id : U16) : Ip4Header where
  ver := 4
  hlen := 20
  tos := 0
  tlen := 20
  id := id
  df := true
  mf := false
  foff := 0
  ttl := 64
  proto := 1
  csum := 0
  src := Ip4.zero
  dst := Ip4.zero
  opts := []

/-- `IP.NEW id` (43_ipv4.md R124). -/
def execIpNew (id : U16) (s : State) : Host.Outcome State Fault Refusal :=
  (OpEnd.done (s.putIp4 (ipNewHeader id)) .ok .none).outcome (.ipNew id)

/-- `IP.TTL ttl` (43_ipv4.md R125). -/
def execIpTtl (ttl : Byte) (s : State) : Host.Outcome State Fault Refusal :=
  (ipSetter (fun h => { h with ttl := ttl }) s).outcome (.ipTtl ttl)

/-- `IP.PROTOCOL proto` (43_ipv4.md R126). -/
def execIpProtocol (proto : Byte) (s : State) : Host.Outcome State Fault Refusal :=
  (ipSetter (fun h => { h with proto := proto }) s).outcome (.ipProtocol proto)

/-- `IP.DESTINATION dst` (43_ipv4.md R127). -/
def execIpDestination (dst : Ip4) (s : State) : Host.Outcome State Fault Refusal :=
  (ipSetter (fun h => { h with dst := dst }) s).outcome (.ipDestination dst)

/-- The header with options `p` appended, both lengths moved together (43_ipv4.md R130, 90_conflicts.md C4, C7). -/
def ipWithOptions (h : Ip4Header) (p : List Byte) : Ip4Header :=
  { h with opts := h.opts ++ p, hlen := h.hlen + p.length, tlen := h.tlen + BitVec.ofNat 16 p.length }

/-- `IP.APPEND_OPT opt` (43_ipv4.md R130), the tests in its order. -/
def execIpAppendOpt (opt : List Byte) (s : State) : Host.Outcome State Fault Refusal :=
  let p := pad4 opt
  (if s.ip4.valid = false then raise s .eNoValue
    else if s.ip4.hdr.hlen + p.length > 60 then raise s .eInval
    else if s.ip4.hdr.tlen.toNat + p.length > 0xFFFF then raise s .eInval
    else .done (s.putIp4 (ipWithOptions s.ip4.hdr p)) .ok .none).outcome (.ipAppendOpt opt)

/-- `IP.CHECKSUM` (43_ipv4.md R131): the stored checksum is fresh afterwards (70_reset_and_hazards.md R271). -/
def execIpChecksum (s : State) : Host.Outcome State Fault Refusal :=
  let b := ipHeaderBytes s.ip4.hdr
  (if s.ip4.valid = false then raise s .eNoValue
    else .done (((s.setIp4 ⟨true, { s.ip4.hdr with csum := csum16 b }⟩).setAcc (foldedSum b)).setGhost s.ghost.ipSummed) .ok
      (.csum (csum16 b))).outcome .ipChecksum

/-- `IP.DEC` as a part of a compound operation (43_ipv4.md R132). -/
def ipDecOp (s : State) : OpEnd := decodeOp ipDecode State.putIp4 .ip4 s

/-- `IP.DEC` (43_ipv4.md R132). -/
def execIpDec (s : State) : Host.Outcome State Fault Refusal := (ipDecOp s).outcome .ipDec

/-- `IP.ENC` (43_ipv4.md R136): the stored checksum goes out as it is. -/
def execIpEnc (s : State) : Host.Outcome State Fault Refusal :=
  (encodeOp s.ip4.valid (ipEncode s.ip4.hdr) s).outcome .ipEnc

/-- The loading operation once its operands are one header (43_ipv4.md R133), the tests in its order. -/
def ipLoadOp (h : Ip4Header) (s : State) : OpEnd :=
  if h.hlen % 4 ≠ 0 ∨ h.hlen < 20 ∨ h.hlen > 60 then raise s .eInval
  else if h.opts.length ≠ h.hlen - 20 then raise s .eInval
  else if h.tlen.toNat < h.hlen then raise s .eInval
  else .done (s.putIp4 h) .ok .none

/-- `IP.LOAD ver, hlen, tos, tlen, id, df, mf, foff, ttl, proto, csum, src, dst, opts` (43_ipv4.md R133). -/
def execIpLoad (ver : BitVec 4) (hlen : Nat) (tos : Byte) (tlen id : U16) (df mf : Bool) (foff : BitVec 13)
    (ttl proto : Byte) (csum : U16) (src dst : Ip4) (opts : List Byte) (s : State) : Host.Outcome State Fault Refusal :=
  (ipLoadOp ⟨ver, hlen, tos, tlen, id, df, mf, foff, ttl, proto, csum, src, dst, opts⟩ s).outcome
    (.ipLoad ver hlen tos tlen id df mf foff ttl proto csum src dst opts)

end Sys2Proof.Machine
end

