-- ==== Sys2Proof/Machine/Consumers.lean ====
section
/-! DEFINITION. The bodies of the two consumption loops (47_consumers.md). -/

namespace Sys2Proof.Machine

open Sys2Proof

/-- Counts one frame of protocol `p`: inserted at zero if absent, then incremented; keys stay in rising order (47_consumers.md R211,
10_state.md R26, log 16). -/
def tallyAdd (p : Byte) : Tally → Tally
  | [] => [(p, 1)]
  | (q, n) :: rest =>
    if p.toNat < q.toNat then (p, 1) :: (q, n) :: rest
    else if p = q then (q, n + 1) :: rest
    else (q, n) :: tallyAdd p rest

/-- A frame that did not decode is reported and skipped (41_header_codec.md R107, 47_consumers.md R211; log 17). -/
def skipFrame (s : State) (e : Status) : OpEnd := .done s e .frameSkipped

/-- The common part of both loop bodies: receive, `ETH.DEC`, `IP.DEC` (47_consumers.md R211, R217). -/
def captureAndDecode (k : Nat) (onFrame : State → OpEnd) (s : State) : OpEnd :=
  (receive k s).andThen
    (fun s1 => (ethDecOp s1).andThen (fun s2 => (ipDecOp s2).andThen onFrame skipFrame) skipFrame) raise

/-- `ANA.STEP s` (47_consumers.md R211). -/
def execAnaStep (k : Nat) (s : State) : Host.Outcome State Fault Refusal :=
  (captureAndDecode k
    (fun t =>
      let tally := tallyAdd t.ip4.hdr.proto t.tally
      .done (t.setTally tally) .ok (.tally tally)) s).outcome (.anaStep k)

/-- An unset field matches; a set one must be equal (47_consumers.md R216). -/
def fieldMatches {α : Type} [DecidableEq α] (want : Option α) (got : α) : Bool := want = none ∨ want = some got

/-- `flt_match` (47_consumers.md R216). -/
def fltMatch (p : FltReg) (e : EthHeader) (i : Ip4Header) : Bool :=
  fieldMatches p.smac e.src && fieldMatches p.dmac e.dst && fieldMatches p.sip i.src && fieldMatches p.dip i.dst

/-- The record emitted on a match (47_consumers.md R219). -/
def fltRecord (h : Ip4Header) (payload : List Byte) : FltRecord where
  ver := h.ver
  hlen := h.hlen
  tos := h.tos
  tlen := h.tlen
  id := h.id
  df := h.df
  mf := h.mf
  foff := h.foff
  ttl := h.ttl
  proto := h.proto
  csum := h.csum
  src := h.src
  dst := h.dst
  opts := if h.opts = [] then none else some h.opts
  payload := payload

/-- `FLT.SET smac, dmac, sip, dip` (47_consumers.md R215). -/
def execFltSet (smac dmac : Option Mac) (sip dip : Option Ip4) (s : State) : Host.Outcome State Fault Refusal :=
  (OpEnd.done (s.setFlt ⟨smac, dmac, sip, dip⟩) .ok .none).outcome (.fltSet smac dmac sip dip)

/-- `FLT.STEP s` (47_consumers.md R217): the payload is every captured byte after the headers. -/
def execFltStep (k : Nat) (s : State) : Host.Outcome State Fault Refusal :=
  (captureAndDecode k
    (fun t =>
      if fltMatch t.flt t.eth.hdr t.ip4.hdr then
        match t.remainder with
        | none => .outOfBuffer
        | some payload => .done t .ok (.isMatch (fltRecord t.ip4.hdr payload))
      else .done t .ok .noMatch) s).outcome (.fltStep k)

end Sys2Proof.Machine
end

