-- ==== Sys2Proof/Machine/Icmp.lean ====
section
/-! DEFINITION. The ICMP header operations (44_icmp.md). -/

namespace Sys2Proof.Machine

open Sys2Proof

/-- Writes a header to `ICMP` in any way but `ICMP.CHECKSUM`: valid, its checksum no longer fresh (70_reset_and_hazards.md R271). -/
def State.putIcmp (s : State) (h : IcmpHeader) : State := (s.setIcmp ⟨true, h⟩).setGhost s.ghost.icmpTouched

/-- The header `ICMP.LOAD` makes: checksum 0; outside the family the pair's operands are ignored (44_icmp.md R154). -/
def icmpLoadHeader (type code : Byte) (ident seq : U16) : IcmpHeader :=
  ⟨type, code, 0, if hasPair type then ident else 0, if hasPair type then seq else 0⟩

/-- `ICMP.LOAD type, code, ident, seq` (44_icmp.md R154). -/
def execIcmpLoad (type code : Byte) (ident seq : U16) (s : State) : Host.Outcome State Fault Refusal :=
  (OpEnd.done (s.putIcmp (icmpLoadHeader type code ident seq)) .ok .none).outcome (.icmpLoad type code ident seq)

/-- `ICMP.DEC` (44_icmp.md R155). -/
def execIcmpDec (s : State) : Host.Outcome State Fault Refusal :=
  (decodeOp icmpDecode State.putIcmp .icmp s).outcome .icmpDec

/-- `ICMP.ENC` (44_icmp.md R156): the header alone, the stored checksum as it is. -/
def execIcmpEnc (s : State) : Host.Outcome State Fault Refusal :=
  (encodeOp s.icmp.valid (icmpEncode s.icmp.hdr) s).outcome .icmpEnc

/-- `ICMP.CHECKSUM payload` (44_icmp.md R157): the payload is read and not kept, but in the ghost value `over`
(70_reset_and_hazards.md R271). -/
def execIcmpChecksum (payload : List Byte) (s : State) : Host.Outcome State Fault Refusal :=
  let b := icmpSummedBytes s.icmp.hdr payload
  (if s.icmp.valid = false then raise s .eNoValue
    else .done (((s.setIcmp ⟨true, { s.icmp.hdr with csum := csum16 b }⟩).setAcc (foldedSum b)).setGhost
      (s.ghost.icmpSummed payload)) .ok (.csum (csum16 b))).outcome (.icmpChecksum payload)

end Sys2Proof.Machine
end

