-- ==== Sys2Proof/Machine/Socket.lean ====
section
/-! DEFINITION. The socket and buffer operations (45_socket.md). -/

namespace Sys2Proof.Machine

open Sys2Proof

/-- What the slot registers become on the link's answer to `LinkOpen`: unchanged when it refused (45_socket.md R166). -/
def slotsAfterOpen (ack : LinkAck) (k : Nat) (flt : EtherFilter) (cap : Nat) (v : Vector SockSlot Config.nsock) :
    Vector SockSlot Config.nsock :=
  match ack with
  | .ok => v.setIfInBounds k ⟨true, flt, cap⟩
  | .fail => v

/-- `SOCK.OPEN s, filter, cap` (45_socket.md R166), the tests in its order, the transport last (60_exceptions.md R239). -/
def execSockOpen (k : Nat) (flt : EtherFilter) (cap : Nat) (s : State) : Host.Outcome State Fault Refusal :=
  (if ¬ k < Config.nsock then raise s .eInval
    else if (s.openSlot k).isSome then raise s .eInval
    else if cap > Config.capMax then raise s .eInval
    else
      let r := linkOpen s k flt
      .done (r.2.setSock (slotsAfterOpen r.1 k flt cap s.sock)) (ackStatus r.1) .none).outcome (.sockOpen k flt cap)

/-- `SOCK.SEND s, dest` (45_socket.md R171): `TXB` exactly as it is, and unchanged by sending. -/
def execSockSend (k : Nat) (dest : LinkAddr) (s : State) : Host.Outcome State Fault Refusal :=
  (match s.openSlot k with
    | none => raise s .eInval
    | some _ =>
      let r := linkSend s k s.mem.txb dest
      .done r.2 (ackStatus r.1) .none).outcome (.sockSend k dest)

/-- `SOCK.RECV s` (45_socket.md R175). -/
def execSockRecv (k : Nat) (s : State) : Host.Outcome State Fault Refusal := (receive k s).outcome (.sockRecv k)

/-- `TX.CLEAR` (45_socket.md R180). -/
def execTxClear (s : State) : Host.Outcome State Fault Refusal :=
  (OpEnd.done (s.setMem (s.mem.setLen .txb 0)) .ok .none).outcome .txClear

/-- `TX.APPEND data` (45_socket.md R181). -/
def execTxAppend (data : List Byte) (s : State) : Host.Outcome State Fault Refusal := (appendTx s data).outcome (.txAppend data)

/-- `RX.REST` (45_socket.md R182): the remainder, not consumed. -/
def execRxRest (s : State) : Host.Outcome State Fault Refusal :=
  (if s.rx.valid = false then raise s .eNoValue
    else match s.remainder with
      | none => .outOfBuffer
      | some b => .done s .ok (.rest b)).outcome .rxRest

/-- `RX.REWIND` (45_socket.md R183). -/
def execRxRewind (s : State) : Host.Outcome State Fault Refusal :=
  (if s.rx.valid = false then raise s .eNoValue else .done (s.setRx { s.rx with pos := 0 }) .ok .none).outcome .rxRewind

end Sys2Proof.Machine
end

