-- ==== Sys2Proof/Machine/Dispatch.lean ====
section
/-! DEFINITION. One arm per operation. -/

namespace Sys2Proof.Machine

open Sys2Proof

def exec (i : Instr) (s : State) : Host.Outcome State Fault Refusal :=
  match i with
  | .csum buf => Sys2Proof.Machine.execCsum buf s
  | .ethLoad dst src etype => Sys2Proof.Machine.execEthLoad dst src etype s
  | .ethDec => Sys2Proof.Machine.execEthDec s
  | .ethEnc => Sys2Proof.Machine.execEthEnc s
  | .ipNew id => Sys2Proof.Machine.execIpNew id s
  | .ipTtl ttl => Sys2Proof.Machine.execIpTtl ttl s
  | .ipProtocol proto => Sys2Proof.Machine.execIpProtocol proto s
  | .ipDestination dst => Sys2Proof.Machine.execIpDestination dst s
  | .ipAppendOpt opt => Sys2Proof.Machine.execIpAppendOpt opt s
  | .ipChecksum => Sys2Proof.Machine.execIpChecksum s
  | .ipDec => Sys2Proof.Machine.execIpDec s
  | .ipEnc => Sys2Proof.Machine.execIpEnc s
  | .ipLoad ver hlen tos tlen id df mf foff ttl proto csum src dst opts => Sys2Proof.Machine.execIpLoad ver hlen tos tlen id df mf foff ttl proto csum src dst opts s
  | .icmpLoad type code ident seq => Sys2Proof.Machine.execIcmpLoad type code ident seq s
  | .icmpDec => Sys2Proof.Machine.execIcmpDec s
  | .icmpEnc => Sys2Proof.Machine.execIcmpEnc s
  | .icmpChecksum payload => Sys2Proof.Machine.execIcmpChecksum payload s
  | .sockOpen k filter cap => Sys2Proof.Machine.execSockOpen k filter cap s
  | .sockSend k dest => Sys2Proof.Machine.execSockSend k dest s
  | .sockRecv k => Sys2Proof.Machine.execSockRecv k s
  | .txClear => Sys2Proof.Machine.execTxClear s
  | .txAppend data => Sys2Proof.Machine.execTxAppend data s
  | .rxRest => Sys2Proof.Machine.execRxRest s
  | .rxRewind => Sys2Proof.Machine.execRxRewind s
  | .arpStart k target lip lmac => Sys2Proof.Machine.execArpStart k target lip lmac s
  | .arpPoll => Sys2Proof.Machine.execArpPoll s
  | .anaStep k => Sys2Proof.Machine.execAnaStep k s
  | .fltSet smac dmac sip dip => Sys2Proof.Machine.execFltSet smac dmac sip dip s
  | .fltStep k => Sys2Proof.Machine.execFltStep k s

end Sys2Proof.Machine
end

