-- ==== Sys2Proof/WellFormed.lean ====
section
/-! DEFINITION. Which operand values exist (30_encoding.md R77). Every operand type but one is exact in Lean; the one bound left
to check is the width of an interface index, whose number of bits `IFINDEX_W` is OPEN (10_state.md R23, log 10). A slot at or above
`NSOCK`, a capacity above `CAP_MAX` or an `IP.LOAD` that breaks the invariant is a legal operand that its operation answers with
`E_INVAL` (60_exceptions.md R234); it is not ill-formed. -/

namespace Sys2Proof

/-- An interface index fits its `IFINDEX_W` bits: its bit length is at most the width (10_state.md R23). -/
def ifindexFits (n : Nat) : Bool := n == 0 || decide (n.log2 < Config.ifindexW)

/-- A link address whose index is a number of `IFINDEX_W` bits (10_state.md R23). -/
def LinkAddr.wf (a : LinkAddr) : Bool := ifindexFits a.ifindex

/-- An operation all of whose operands are of their types (30_encoding.md R77). -/
def Instr.wf : Instr → Bool
  | .csum _ => true
  | .ethLoad _ _ _ => true
  | .ethDec => true
  | .ethEnc => true
  | .ipNew _ => true
  | .ipTtl _ => true
  | .ipProtocol _ => true
  | .ipDestination _ => true
  | .ipAppendOpt _ => true
  | .ipChecksum => true
  | .ipDec => true
  | .ipEnc => true
  | .ipLoad _ _ _ _ _ _ _ _ _ _ _ _ _ _ => true
  | .icmpLoad _ _ _ _ => true
  | .icmpDec => true
  | .icmpEnc => true
  | .icmpChecksum _ => true
  | .sockOpen _ _ _ => true
  | .sockSend _ dest => dest.wf
  | .sockRecv _ => true
  | .txClear => true
  | .txAppend _ => true
  | .rxRest => true
  | .rxRewind => true
  | .arpStart _ _ _ _ => true
  | .arpPoll => true
  | .anaStep _ => true
  | .fltSet _ _ _ _ => true
  | .fltStep _ => true

end Sys2Proof
end

