-- ==== Sys2Proof/Decode.lean ====
section
/-! DEFINITION. From a command of the host to an operation and back (30_encoding.md R76, R77). Decoding is total: every selector
and every list of operands is an operation, an unassigned selector, or operands that are not of the row's types. -/

namespace Sys2Proof

/-- What a command decodes to. -/
inductive Decoded where
  /-- an operation of the table -/
  | instr (i : Instr)
  /-- one of the 227 selectors without an operation: `E_INVAL`, nothing changed (30_encoding.md R76) -/
  | unassigned
  /-- an assigned selector whose operands are not of the types of its row: "cannot be expressed and needs no rule"
  (30_encoding.md R77, log 2) -/
  | badOperands
  deriving DecidableEq, Repr

/-- The operation a command names (the selector table of 30_encoding.md R76). -/
def decode (c : Command) : Decoded :=
  match c.sel.toNat with
  | 0x01 => match c.args with
    | [.bytes buf] => .instr (.csum buf)
    | _ => .badOperands
  | 0x10 => match c.args with
    | [.mac dst, .mac src, .u16 etype] => .instr (.ethLoad dst src etype)
    | _ => .badOperands
  | 0x11 => match c.args with
    | [] => .instr .ethDec
    | _ => .badOperands
  | 0x12 => match c.args with
    | [] => .instr .ethEnc
    | _ => .badOperands
  | 0x20 => match c.args with
    | [.u16 id] => .instr (.ipNew id)
    | _ => .badOperands
  | 0x21 => match c.args with
    | [.u8 ttl] => .instr (.ipTtl ttl)
    | _ => .badOperands
  | 0x22 => match c.args with
    | [.u8 proto] => .instr (.ipProtocol proto)
    | _ => .badOperands
  | 0x23 => match c.args with
    | [.ip4 dst] => .instr (.ipDestination dst)
    | _ => .badOperands
  | 0x24 => match c.args with
    | [.bytes opt] => .instr (.ipAppendOpt opt)
    | _ => .badOperands
  | 0x25 => match c.args with
    | [] => .instr .ipChecksum
    | _ => .badOperands
  | 0x26 => match c.args with
    | [] => .instr .ipDec
    | _ => .badOperands
  | 0x27 => match c.args with
    | [] => .instr .ipEnc
    | _ => .badOperands
  | 0x28 => match c.args with
    | [.u4 ver, .nat hlen, .u8 tos, .u16 tlen, .u16 id, .bit df, .bit mf, .u13 foff, .u8 ttl, .u8 proto, .u16 csum,
        .ip4 src, .ip4 dst, .bytes opts] =>
      .instr (.ipLoad ver hlen tos tlen id df mf foff ttl proto csum src dst opts)
    | _ => .badOperands
  | 0x30 => match c.args with
    | [.u8 type, .u8 code, .u16 ident, .u16 seq] => .instr (.icmpLoad type code ident seq)
    | _ => .badOperands
  | 0x31 => match c.args with
    | [] => .instr .icmpDec
    | _ => .badOperands
  | 0x32 => match c.args with
    | [] => .instr .icmpEnc
    | _ => .badOperands
  | 0x33 => match c.args with
    | [.bytes payload] => .instr (.icmpChecksum payload)
    | _ => .badOperands
  | 0x40 => match c.args with
    | [.slot k, .filter f, .nat cap] => .instr (.sockOpen k f cap)
    | _ => .badOperands
  | 0x41 => match c.args with
    | [.slot k, .linkaddr dest] => if dest.wf then .instr (.sockSend k dest) else .badOperands
    | _ => .badOperands
  | 0x42 => match c.args with
    | [.slot k] => .instr (.sockRecv k)
    | _ => .badOperands
  | 0x48 => match c.args with
    | [] => .instr .txClear
    | _ => .badOperands
  | 0x49 => match c.args with
    | [.bytes data] => .instr (.txAppend data)
    | _ => .badOperands
  | 0x4A => match c.args with
    | [] => .instr .rxRest
    | _ => .badOperands
  | 0x4B => match c.args with
    | [] => .instr .rxRewind
    | _ => .badOperands
  | 0x50 => match c.args with
    | [.slot k, .ip4 target, .ip4 lip, .mac lmac] => .instr (.arpStart k target lip lmac)
    | _ => .badOperands
  | 0x51 => match c.args with
    | [] => .instr .arpPoll
    | _ => .badOperands
  | 0x60 => match c.args with
    | [.slot k] => .instr (.anaStep k)
    | _ => .badOperands
  | 0x68 => match c.args with
    | [.optMac smac, .optMac dmac, .optIp4 sip, .optIp4 dip] => .instr (.fltSet smac dmac sip dip)
    | _ => .badOperands
  | 0x69 => match c.args with
    | [.slot k] => .instr (.fltStep k)
    | _ => .badOperands
  | _ => .unassigned

/-- The command that names an operation (30_encoding.md R76). -/
def encode : Instr → Command
  | .csum buf => ⟨0x01#8, [.bytes buf]⟩
  | .ethLoad dst src etype => ⟨0x10#8, [.mac dst, .mac src, .u16 etype]⟩
  | .ethDec => ⟨0x11#8, []⟩
  | .ethEnc => ⟨0x12#8, []⟩
  | .ipNew id => ⟨0x20#8, [.u16 id]⟩
  | .ipTtl ttl => ⟨0x21#8, [.u8 ttl]⟩
  | .ipProtocol proto => ⟨0x22#8, [.u8 proto]⟩
  | .ipDestination dst => ⟨0x23#8, [.ip4 dst]⟩
  | .ipAppendOpt opt => ⟨0x24#8, [.bytes opt]⟩
  | .ipChecksum => ⟨0x25#8, []⟩
  | .ipDec => ⟨0x26#8, []⟩
  | .ipEnc => ⟨0x27#8, []⟩
  | .ipLoad ver hlen tos tlen id df mf foff ttl proto csum src dst opts =>
      ⟨0x28#8, [.u4 ver, .nat hlen, .u8 tos, .u16 tlen, .u16 id, .bit df, .bit mf, .u13 foff, .u8 ttl, .u8 proto, .u16 csum,
        .ip4 src, .ip4 dst, .bytes opts]⟩
  | .icmpLoad type code ident seq => ⟨0x30#8, [.u8 type, .u8 code, .u16 ident, .u16 seq]⟩
  | .icmpDec => ⟨0x31#8, []⟩
  | .icmpEnc => ⟨0x32#8, []⟩
  | .icmpChecksum payload => ⟨0x33#8, [.bytes payload]⟩
  | .sockOpen k f cap => ⟨0x40#8, [.slot k, .filter f, .nat cap]⟩
  | .sockSend k dest => ⟨0x41#8, [.slot k, .linkaddr dest]⟩
  | .sockRecv k => ⟨0x42#8, [.slot k]⟩
  | .txClear => ⟨0x48#8, []⟩
  | .txAppend data => ⟨0x49#8, [.bytes data]⟩
  | .rxRest => ⟨0x4A#8, []⟩
  | .rxRewind => ⟨0x4B#8, []⟩
  | .arpStart k target lip lmac => ⟨0x50#8, [.slot k, .ip4 target, .ip4 lip, .mac lmac]⟩
  | .arpPoll => ⟨0x51#8, []⟩
  | .anaStep k => ⟨0x60#8, [.slot k]⟩
  | .fltSet smac dmac sip dip => ⟨0x68#8, [.optMac smac, .optMac dmac, .optIp4 sip, .optIp4 dip]⟩
  | .fltStep k => ⟨0x69#8, [.slot k]⟩

/-- The operand types of each assigned selector, in order; none for an unassigned one (30_encoding.md R76). -/
def operandTypes (sel : Byte) : List OperandTy :=
  match sel.toNat with
  | 0x01 => [.bytes]
  | 0x10 => [.mac, .mac, .u16]
  | 0x20 => [.u16]
  | 0x21 => [.u8]
  | 0x22 => [.u8]
  | 0x23 => [.ip4]
  | 0x24 => [.bytes]
  | 0x28 => [.u4, .nat, .u8, .u16, .u16, .bit, .bit, .u13, .u8, .u8, .u16, .ip4, .ip4, .bytes]
  | 0x30 => [.u8, .u8, .u16, .u16]
  | 0x33 => [.bytes]
  | 0x40 => [.slot, .filter, .nat]
  | 0x41 => [.slot, .linkaddr]
  | 0x42 => [.slot]
  | 0x49 => [.bytes]
  | 0x50 => [.slot, .ip4, .ip4, .mac]
  | 0x60 => [.slot]
  | 0x68 => [.optMac, .optMac, .optIp4, .optIp4]
  | 0x69 => [.slot]
  | _ => []

/-- DESIGN CHOICE (log 2). The operand that zeros stand for: 0, zero bytes, the empty sequence, `All`, `unset`. -/
def zeroOperand : OperandTy → Operand
  | .u4 => .u4 0
  | .u8 => .u8 0
  | .u13 => .u13 0
  | .u16 => .u16 0
  | .bit => .bit false
  | .nat => .nat 0
  | .mac => .mac ⟨0, 0, 0, 0, 0, 0⟩
  | .ip4 => .ip4 ⟨0, 0, 0, 0⟩
  | .bytes => .bytes []
  | .slot => .slot 0
  | .filter => .filter .all
  | .linkaddr => .linkaddr ⟨0, ⟨0, 0, 0, 0, 0, 0⟩⟩
  | .optMac => .optMac none
  | .optIp4 => .optIp4 none

/-- The command a word of the opcode table stands for: its selector in the low 8 bits, every operand zero. The table gives
operands no bits, so a word with a bit set above the selector is no command (log 2). -/
def tableCommand (nbits w : Nat) : Option Command :=
  let v := w % 2 ^ nbits
  if v < 256 then
    let sel := BitVec.ofNat 8 v
    some ⟨sel, (operandTypes sel).map zeroOperand⟩
  else
    none

/-- The operation the decoder reads from a word of the opcode table. -/
def decodeTableWord (nbits w : Nat) : Option Instr :=
  match tableCommand nbits w with
  | none => none
  | some c => match decode c with
    | .instr i => some i
    | _ => none

end Sys2Proof
end

