-- ==== Sys2Proof/Machine/Fetch.lean ====
section
/-! DEFINITION. What the block does next: there is no program counter and no fetch; the host issues operations one at a time, and
reset is its one other input (10_state.md R12, 70_reset_and_hazards.md R260; log 1). -/

namespace Sys2Proof.Machine

open Sys2Proof

/-- What the next step is about. -/
inductive Fetched where
  /-- the host applies reset; the state that follows -/
  | reset (s : State)
  /-- an operation is in progress and goes on (45_socket.md R175) -/
  | resume (i : Instr)
  /-- the block awaits the host's next operation (70_reset_and_hazards.md R262) -/
  | idle
  /-- the host issues a command; the state with the command taken from the host's inputs -/
  | command (c : Command) (s : State)
  deriving DecidableEq, Repr

/-- The next thing to happen. Reset comes before everything, and ends an operation in progress (60_exceptions.md R242); no command is
taken while one is in progress (10_state.md R12, 45_socket.md R175). -/
def fetch (s : State) : Fetched :=
  match s.host, s.busy with
  | .reset :: rest, _ => .reset (s.setHost rest).applyReset
  | _, some i => .resume i
  | [], none => .idle
  | .issue c :: rest, none => .command c (s.setHost rest)

/-- An unassigned selector: status `E_INVAL`, nothing changed (30_encoding.md R76, 60_exceptions.md R234). The block is not busy when
it takes a command, and stays so (log 22). -/
def rejectSelector (s : State) : State := (s.setBusy none).setReply (some ⟨.eInval, .none⟩)

end Sys2Proof.Machine
end

