-- ==== Sys2Proof/Machine/Step.lean ====
section
/-! DEFINITION. One step: a reset, an operation issued or going on, or nothing (10_state.md R12). -/

namespace Sys2Proof.Machine

open Sys2Proof

/-- One step of the block with its host and its link (70_reset_and_hazards.md R285: untimed, one operation is one step). -/
def step (s : State) : Host.Outcome State Fault Refusal :=
  match fetch s with
  | .reset t => .next t
  | .resume i => exec i s
  | .idle => .next s
  | .command c t =>
    match decode c with
    | .instr i => exec i t
    | .unassigned => .next (rejectSelector t)
    | .badOperands => .refused (.operandOutOfType c.sel)

/-- The state in which the host issues next the command a word of the opcode table stands for, and the block is free to take it
(log 1, log 2). A word that is no command changes nothing. -/
def State.withFetchWord (s : State) (nbits w : Nat) : State :=
  match tableCommand nbits w with
  | some c => (s.setHost (.issue c :: s.host)).setBusy none
  | none => s

end Sys2Proof.Machine
end

