-- ==== Sys2Proof/Machine/Pseudo.lean ====
section
/-! DEFINITION. The pseudo-operations (30_encoding.md R80): sequences of operations issued by the host, not operations of the block.
A loop of the spec has no bound; here it is run for at most `fuel` steps, and the run that never ends is the one that is unended
for every `fuel` (log 19). -/

namespace Sys2Proof.Machine

open Sys2Proof

/-- The status of the last operation as the host sees it; `none` while one is in progress. -/
def State.status (s : State) : Option Status := s.reply.map fun r => r.status

/-- The three header kinds that `DEC2` and `ENC2` compose (41_header_codec.md R106). -/
inductive HeaderKind where
  | eth
  | ip
  | icmp
  deriving DecidableEq, Repr

/-- The decode of a header kind. -/
def HeaderKind.dec : HeaderKind → Instr
  | .eth => .ethDec
  | .ip => .ipDec
  | .icmp => .icmpDec

/-- The encode of a header kind. -/
def HeaderKind.enc : HeaderKind → Instr
  | .eth => .ethEnc
  | .ip => .ipEnc
  | .icmp => .icmpEnc

/-- One operation and, if its status is `OK`, another (41_header_codec.md R106). -/
def thenIfOk (a b : Instr) (s : State) : Host.Outcome State Fault Refusal :=
  match exec a s with
  | .next t => if t.status = some .ok then exec b t else .next t
  | o => o

/-- `DEC2 A, B` (41_header_codec.md R106). -/
def runDec2 (a b : HeaderKind) (s : State) : Host.Outcome State Fault Refusal := thenIfOk a.dec b.dec s

/-- `ENC2 A, B` (41_header_codec.md R106). -/
def runEnc2 (a b : HeaderKind) (s : State) : Host.Outcome State Fault Refusal := thenIfOk a.enc b.enc s

/-- How a host's loop comes out within its steps: its last operation's reply ends it, or it has not ended (it waits in an operation, or
would go on). -/
inductive LoopEnd where
  | ended (s : State)
  | unended (s : State)
  deriving DecidableEq, Repr

/-- Repeats an operation until `stop` holds of a reply, at most `fuel` steps. An operation that waits has no reply and goes on in the next
step, as the block does (45_socket.md R175). -/
def repeatUntil (i : Instr) (stop : Reply → Bool) : Nat → State → LoopEnd
  | 0, s => .unended s
  | fuel + 1, s =>
    match exec i s with
    | .next t => if t.reply.any stop then .ended t else repeatUntil i stop fuel t
    | _ => .unended s

/-- `ARP.RESOLVE s, target, lip, lmac`: `ARP.START`, then `ARP.POLL` until its status is not `E_NOMATCH` (46_arp.md R199). -/
def runArpResolve (fuel k : Nat) (target lip : Ip4) (lmac : Mac) (s : State) : LoopEnd :=
  match exec (.arpStart k target lip lmac) s with
  | .next t =>
    if t.status = some .ok then repeatUntil .arpPoll (fun r => decide (r.status ≠ .eNoMatch)) fuel t else .ended t
  | _ => .unended s

/-- A loop body's status that ends the loop: `E_IO` or the slot's `E_INVAL`, not that of a skipped frame
(47_consumers.md R212, R218). -/
def loopStops (r : Reply) : Bool := r.status = .eIo ∨ (r.status = .eInval ∧ r.result ≠ .frameSkipped)

/-- `ANA.RUN s` (47_consumers.md R212). -/
def runAna (fuel k : Nat) (s : State) : LoopEnd := repeatUntil (.anaStep k) loopStops fuel s

/-- `FLT.RUN s` (47_consumers.md R218). -/
def runFlt (fuel k : Nat) (s : State) : LoopEnd := repeatUntil (.fltStep k) loopStops fuel s

end Sys2Proof.Machine
end

