-- ==== Sys2Proof/Safety.lean ====
section
/-! DEFINITION. What counts as a good state and a good run: the invariants the spec's rules give, which statuses an operation may end
with, and what the host must have done before it. -/

namespace Sys2Proof.Machine

open Sys2Proof

/-- The operations that may block (60_exceptions.md R245). -/
def mayBlock : Instr → Bool
  | .csum _ => false
  | .ethLoad _ _ _ => false
  | .ethDec => false
  | .ethEnc => false
  | .ipNew _ => false
  | .ipTtl _ => false
  | .ipProtocol _ => false
  | .ipDestination _ => false
  | .ipAppendOpt _ => false
  | .ipChecksum => false
  | .ipDec => false
  | .ipEnc => false
  | .ipLoad _ _ _ _ _ _ _ _ _ _ _ _ _ _ => false
  | .icmpLoad _ _ _ _ => false
  | .icmpDec => false
  | .icmpEnc => false
  | .icmpChecksum _ => false
  | .sockOpen _ _ _ => false
  | .sockSend _ _ => false
  | .sockRecv _ => true
  | .txClear => false
  | .txAppend _ => false
  | .rxRest => false
  | .rxRewind => false
  | .arpStart _ _ _ _ => false
  | .arpPoll => true
  | .anaStep _ => true
  | .fltSet _ _ _ _ => false
  | .fltStep _ => true

/-- The statuses an operation can return: the rows of the matrix of 60_exceptions.md R245. -/
def statusesOf : Instr → List Status
  | .csum _ => [.ok]
  | .ethLoad _ _ _ => [.ok]
  | .ethDec => [.ok, .eTrunc, .eNoValue]
  | .ethEnc => [.ok, .eInval, .eNoValue]
  | .ipNew _ => [.ok]
  | .ipTtl _ => [.ok, .eNoValue]
  | .ipProtocol _ => [.ok, .eNoValue]
  | .ipDestination _ => [.ok, .eNoValue]
  | .ipAppendOpt _ => [.ok, .eInval, .eNoValue]
  | .ipChecksum => [.ok, .eNoValue]
  | .ipDec => [.ok, .eTrunc, .eInval, .eNoValue]
  | .ipEnc => [.ok, .eInval, .eNoValue]
  | .ipLoad _ _ _ _ _ _ _ _ _ _ _ _ _ _ => [.ok, .eInval]
  | .icmpLoad _ _ _ _ => [.ok]
  | .icmpDec => [.ok, .eTrunc, .eNoValue]
  | .icmpEnc => [.ok, .eInval, .eNoValue]
  | .icmpChecksum _ => [.ok, .eNoValue]
  | .sockOpen _ _ _ => [.ok, .eIo, .eInval]
  | .sockSend _ _ => [.ok, .eIo, .eInval]
  | .sockRecv _ => [.ok, .eIo, .eInval]
  | .txClear => [.ok]
  | .txAppend _ => [.ok, .eInval]
  | .rxRest => [.ok, .eNoValue]
  | .rxRewind => [.ok, .eNoValue]
  | .arpStart _ _ _ _ => [.ok, .eIo, .eInval]
  | .arpPoll => [.ok, .eInval, .eNoMatch, .eNoReply]
  | .anaStep _ => [.ok, .eIo, .eTrunc, .eInval]
  | .fltSet _ _ _ _ => [.ok]
  | .fltStep _ => [.ok, .eIo, .eTrunc, .eInval]

/-- The status an operation ends with when the host has not done what 70_reset_and_hazards.md R263 says it must before it; `none` when that is
done, or the operation needs nothing (60_exceptions.md R234, R237). -/
def missing (i : Instr) (s : State) : Option Status :=
  let slot (k : Nat) : Option Status := if (s.openSlot k).isSome then none else some .eInval
  let value (v : Bool) : Option Status := if v then none else some .eNoValue
  match i with
  | .csum _ => none
  | .ethLoad _ _ _ => none
  | .ethDec => value s.rx.valid
  | .ethEnc => value s.eth.valid
  | .ipNew _ => none
  | .ipTtl _ => value s.ip4.valid
  | .ipProtocol _ => value s.ip4.valid
  | .ipDestination _ => value s.ip4.valid
  | .ipAppendOpt _ => value s.ip4.valid
  | .ipChecksum => value s.ip4.valid
  | .ipDec => value s.rx.valid
  | .ipEnc => value s.ip4.valid
  | .ipLoad _ _ _ _ _ _ _ _ _ _ _ _ _ _ => none
  | .icmpLoad _ _ _ _ => none
  | .icmpDec => value s.rx.valid
  | .icmpEnc => value s.icmp.valid
  | .icmpChecksum _ => value s.icmp.valid
  | .sockOpen _ _ _ => none
  | .sockSend k _ => slot k
  | .sockRecv k => slot k
  | .txClear => none
  | .txAppend _ => none
  | .rxRest => value s.rx.valid
  | .rxRewind => value s.rx.valid
  | .arpStart k _ _ _ => slot k
  | .arpPoll => if s.arp.state = .awaitingReply then none else some .eInval
  | .anaStep k => slot k
  | .fltSet _ _ _ _ => none
  | .fltStep k => slot k

/-- A state whose host has just got a status and results: no operation is in progress (30_encoding.md R78). -/
def State.answered (s : State) (status : Status) (result : Result) : State :=
  { s with busy := none, reply := some ⟨status, result⟩ }

/-- A state in which an operation has just begun to wait: it is in progress and the host has no reply (45_socket.md R175). -/
def State.waiting (s : State) (i : Instr) : State := { s with busy := some i, reply := none }

/-- The link's answers are frames that a filter drops (45_socket.md R174). -/
def allDropped (flt : EtherFilter) (answers : List RecvAnswer) : Prop :=
  ∀ a ∈ answers, ∃ g from_, a = RecvAnswer.frame g from_ ∧ passes flt g = false

/-- What a receive on slot `k` will come to is settled by the state: the slot is open with these settings, the link first answers frames
the filter drops, then a frame that passes (45_socket.md R175). -/
structure State.Delivers (s : State) (k : Nat) (slot : SockSlot) (dropped : List RecvAnswer) (f : List Byte)
    (src : LinkAddr) (rest : List RecvAnswer) : Prop where
  slotOpen : s.openSlot k = some slot
  script : s.link.offers = dropped ++ .frame f src :: rest
  dropped : allDropped slot.filter dropped
  passes : passes slot.filter f = true

/-- The link's first answer that is not a dropped frame is a failure (45_socket.md R175). -/
structure State.LinkFails (s : State) (k : Nat) (slot : SockSlot) (dropped rest : List RecvAnswer) : Prop where
  slotOpen : s.openSlot k = some slot
  script : s.link.offers = dropped ++ .fail :: rest
  dropped : allDropped slot.filter dropped

/-- The link answers nothing but frames the filter drops before it falls silent, or before what it has ready ends: a receive on slot `k`
is not answered in this step (20_memory.md R53, log 3). -/
structure State.NoAnswer (s : State) (k : Nat) (slot : SockSlot) (dropped rest : List RecvAnswer) : Prop where
  slotOpen : s.openSlot k = some slot
  script : s.link.offers = dropped ++ .silence :: rest ∨ s.link.offers = dropped ∧ rest = []
  dropped : allDropped slot.filter dropped

/-- All that the link has left, and all that it goes on with, is silence or frames the filter drops: no receive through this filter is ever
answered (20_memory.md R53, 70_reset_and_hazards.md R275). -/
structure LinkEnv.NeverPasses (l : LinkEnv) (flt : EtherFilter) : Prop where
  goesOn : l.cycle ≠ []
  foreign : ∀ a ∈ l.inbound ++ l.cycle, a = .silence ∨ ∃ f src, a = .frame f src ∧ passes flt f = false

/-- All that the link has left, and all that it goes on with, is silence or frames that are no ARP reply once captured: no exchange over this
socket is ever resolved, and none fails (46_arp.md R199, 70_reset_and_hazards.md R275, R276). -/
structure LinkEnv.NeverReplies (l : LinkEnv) (slot : SockSlot) : Prop where
  goesOn : l.cycle ≠ []
  foreign : ∀ a ∈ l.inbound ++ l.cycle,
    a = .silence ∨ ∃ f src, a = .frame f src ∧ (passes slot.filter f = true → arpMatch (f.take slot.cap) = false)

/-- The link's part of a receive: the answers `used` are taken and recorded, `rest` is left (20_memory.md R47, R54). -/
def State.afterAnswers (s : State) (k : Nat) (used rest : List RecvAnswer) : State :=
  { s with link := { s.link with inbound := rest, draws := s.link.drawsAfter }, trace := s.trace ++ used.map (.received k) }

/-- The capture of frame `f` from `src`, cut to capacity `cap` (45_socket.md R175, R176). -/
def State.captured (s : State) (f : List Byte) (cap : Nat) (src : LinkAddr) : State :=
  { s with mem := { s.mem with rxb := f.take cap }, rx := ⟨true, 0, src⟩ }

/-- Two states whose block is the same: they differ at most in the link, its record, the host's inputs, the operation in progress and the
reply (10_state.md R10). -/
def State.sameBlock (s t : State) : Prop :=
  { t with link := s.link, trace := s.trace, host := s.host, busy := s.busy, reply := s.reply } = s

/-- The invariant of the machine. -/
structure State.Inv (s : State) : Prop where
  /-- the buffers keep within their capacities (10_state.md R21, R22) -/
  mem : s.mem.wf = true
  /-- no captured frame: `RXB` empty, cursor 0 (10_state.md R22, R32) -/
  rxEmpty : s.rx.valid = false → s.mem.rxb = [] ∧ s.rx.pos = 0
  /-- the cursor stands within the captured bytes (10_state.md R22) -/
  cursor : s.rx.pos ≤ s.rxlen
  /-- a valid IPv4 register holds a valid header (10_state.md R16) -/
  ip4 : s.ip4.valid = true → s.ip4.hdr.wf = true
  /-- outside the family a valid ICMP register has no pair (10_state.md R19) -/
  icmp : s.icmp.valid = true → s.icmp.hdr.wf = true
  /-- no open socket has a capacity above `CAP_MAX` (10_state.md R24) -/
  slots : ∀ k slot, s.openSlot k = some slot → slot.cap ≤ Config.capMax
  /-- an exchange that awaits a reply runs over an open socket (46_arp.md R195) -/
  arpWait : s.arp.state = .awaitingReply → (s.openSlot s.arp.sock).isSome = true
  /-- a failed exchange says why (10_state.md R25) -/
  arpErr : s.arp.state = .failed → s.arp.err = .eIo ∨ s.arp.err = .eNoReply
  /-- each key of the tally stands once, keys rising (10_state.md R26, log 16) -/
  tallyKeys : s.tally.Pairwise fun a b => a.1.toNat < b.1.toNat
  /-- a present key was counted at least once (10_state.md R26) -/
  tallyCounts : ∀ p ∈ s.tally, 1 ≤ p.2
  /-- the link's frames come with indexes of their width (10_state.md R23) -/
  inbound : ∀ f src, RecvAnswer.frame f src ∈ s.link.inbound ++ s.link.cycle → src.wf = true
  /-- so does the captured frame (10_state.md R22, R23) -/
  rxSrc : s.rx.src.wf = true
  /-- only a receive can be in progress (60_exceptions.md R245), and while one is there is no status (45_socket.md R175) -/
  busy : ∀ i, s.busy = some i → mayBlock i = true ∧ s.reply = none

/-- What the ghost flags promise: a fresh checksum is the checksum of the header, and for ICMP of header and payload `over`
(70_reset_and_hazards.md R270 to R272). -/
structure State.FreshInv (s : State) : Prop where
  ip : s.ghost.ipFresh = true →
    s.ip4.valid = true ∧ s.ip4.hdr.csum = csum16 (ipHeaderBytes s.ip4.hdr)
  icmp : s.ghost.icmpFresh = true →
    s.icmp.valid = true ∧ s.icmp.hdr.csum = csum16 (icmpSummedBytes s.icmp.hdr s.ghost.icmpOver)

end Sys2Proof.Machine
end

