-- ==== Sys2Proof/Certificates/Slice0/Obligations.lean ====
section
/-! DEFINITION. The statements for the provers. OBLIGATIONS.json names, for each, the rules of spec/ it formalises. -/

open Sys2Proof Sys2Proof.Machine

/-! ### The checksum (40_checksum.md) -/

/-- `CSUM` ends `OK` with `csum16` of its operand, for every operand and in every state, and writes nothing but `ACC` (R92). -/
def Obligations.CsumReturnsChecksum : Prop :=
  ∀ (buf : List Byte) (s : State), encode (.csum buf) = ⟨0x01, [.bytes buf]⟩ ∧
    ∃ a, exec (.csum buf) s = .next (State.answered { s with acc := a } .ok (.csum (csum16 buf)))

/-- An odd-length sequence has the checksum of the sequence with a zero byte appended (R95). -/
def Obligations.ChecksumZeroPadsOddLength : Prop :=
  (∀ b : List Byte, b.length % 2 = 1 → csum16 b = csum16 (b ++ [0])) ∧
    csum16 [0x00, 0x01, 0x00, 0x02, 0xFF] = 0x00FC ∧ csum16 [0x00, 0x01, 0x00, 0x02, 0xFF, 0x00] = 0x00FC

/-- The folded sum fits 16 bits, is the sum of the words modulo `0xFFFF`, and is 0 only when every byte is 0 (R93). -/
def Obligations.ChecksumFoldIsResidue : Prop :=
  ∀ b : List Byte,
    foldedSum b ≤ 0xFFFF ∧ foldedSum b % 0xFFFF = wordSum b % 0xFFFF ∧ (foldedSum b = 0 ↔ ∀ x ∈ b, x = 0)

/-- A sequence whose field at an even index holds the checksum of the sequence with that field zeroed sums to `0xFFFF`, and its own
checksum is 0; what follows the field may have any length (R96). -/
def Obligations.ChecksumSelfConsistent : Prop :=
  ∀ before rest : List Byte, before.length % 2 = 0 →
    let c := csum16 (before ++ [0, 0] ++ rest)
    foldedSum (before ++ bytes16 c ++ rest) = 0xFFFF ∧ csum16 (before ++ bytes16 c ++ rest) = 0

/-! ### The header codecs (41_header_codec.md to 44_icmp.md) -/

/-- The Ethernet codec is a bijection between header values and 14-byte prefixes (R113). -/
def Obligations.EthHeaderRoundTrip : Prop :=
  (∀ (h : EthHeader) (tail : List Byte), ethDecode (ethEncode h ++ tail) = .ok h tail) ∧
    (∀ b : List Byte, 14 ≤ b.length → ∃ h, ethDecode b = .ok h (b.drop 14) ∧ ethEncode h = b.take 14)

/-- The IPv4 codec: decode after encode gives every field back, the checksum included; encode after decode gives the consumed bytes with
bit 7 of byte 6 cleared (R138). -/
def Obligations.Ip4HeaderRoundTrip : Prop :=
  (∀ (h : Ip4Header) (tail : List Byte), h.wf = true → ipDecode (ipEncode h ++ tail) = .ok h tail) ∧
    (∀ (b rest : List Byte) (h : Ip4Header), ipDecode b = .ok h rest →
      h.wf = true ∧ rest = b.drop h.hlen ∧ ipEncode h = (b.take h.hlen).set 6 (byteAt b 6 &&& 0x7F))

/-- The ICMP codec round-trips with and without the identifier and sequence pair, in both directions (R153). -/
def Obligations.IcmpHeaderRoundTrip : Prop :=
  (∀ (h : IcmpHeader) (tail : List Byte), h.wf = true → icmpDecode (icmpEncode h ++ tail) = .ok h tail) ∧
    (∀ (b rest : List Byte) (h : IcmpHeader), icmpDecode b = .ok h rest →
      h.wf = true ∧ icmpEncode h ++ rest = b ∧
        (icmpEncode h).length = if hasPair h.type then 8 else 4)

/-- Which inputs each decode refuses, with which status, the first failing stage deciding (R101, R122, R239). -/
def Obligations.DecodeRefusals : Prop :=
  (∀ (b : List Byte) (e : Status), ethDecode b = .err e ↔ b.length < 14 ∧ e = .eTrunc) ∧
    (∀ (b : List Byte) (e : Status), icmpDecode b = .err e ↔
      (b.length < 4 ∨ hasPair (byteAt b 0) = true ∧ b.length < 8) ∧ e = .eTrunc) ∧
    (∀ (b : List Byte) (e : Status), ipDecode b = .err e ↔
      let hlen := (byteAt b 0).toNat % 16 * 4
      (b.length < 20 ∧ e = .eTrunc) ∨
        (20 ≤ b.length ∧ (hlen < 20 ∨ (be16 b 2).toNat < hlen) ∧ e = .eInval) ∨
        (20 ≤ b.length ∧ 20 ≤ hlen ∧ hlen ≤ (be16 b 2).toNat ∧ b.length < hlen ∧ e = .eTrunc))

/-- Two codecs in sequence: the first error met is the error of both, the remainders are threaded, and round trips compose (R103). -/
def Obligations.ComposedCodecRoundTrip : Prop :=
  ∀ (α β : Type) (A : Codec α) (B : Codec β) (okA : α → Prop) (okB : β → Prop),
    (∀ a tail, okA a → A.decode (A.encode a ++ tail) = .ok a tail) →
    (∀ b tail, okB b → B.decode (B.encode b ++ tail) = .ok b tail) →
      (∀ a b tail, okA a → okB b → (A.seq B).decode ((A.seq B).encode (a, b) ++ tail) = .ok (a, b) tail) ∧
        (∀ input e, A.decode input = .err e → (A.seq B).decode input = .err e) ∧
        (∀ input a r e, A.decode input = .ok a r → B.decode r = .err e → (A.seq B).decode input = .err e)

/-- `DEC2 ETH, IP` is the composed decode on the remainder: on success both registers hold its value and the cursor stands at its rest; on
an error of the second, the effect of the first stays (R106). -/
def Obligations.Dec2IsComposedDecode : Prop :=
  ∀ (s : State) (b : List Byte), s.rx.valid = true → s.remainder = some b →
    (∀ e h rest, (ethCodec.seq ipCodec).decode b = .ok (e, h) rest →
      ∃ t, runDec2 .eth .ip s = .next t ∧ t.status = some .ok ∧ t.eth = ⟨true, e⟩ ∧ t.ip4 = ⟨true, h⟩ ∧
        t.remainder = some rest) ∧
    (∀ err, (ethCodec.seq ipCodec).decode b = .err err →
      ∃ t, runDec2 .eth .ip s = .next t ∧ t.status = some err ∧ t.ip4 = s.ip4 ∧
        (b.length < 14 → t.eth = s.eth ∧ t.rx = s.rx) ∧
        (∀ e r, ethDecode b = .ok e r → t.eth = ⟨true, e⟩ ∧ t.remainder = some r))

/-! ### The Ethernet operations (42_ether.md) -/

/-- `ETH.LOAD` writes the whole register and always ends `OK` (R114). -/
def Obligations.EthLoadWritesRegister : Prop :=
  ∀ (dst src : Mac) (etype : U16) (s : State),
    encode (.ethLoad dst src etype) = ⟨0x10, [.mac dst, .mac src, .u16 etype]⟩ ∧
    exec (.ethLoad dst src etype) s = .next (State.answered { s with eth := ⟨true, ⟨dst, src, etype⟩⟩ } .ok .none)

/-- `ETH.DEC` reads 14 bytes at the cursor and advances it by 14; without a captured frame it ends `E_NOVALUE`, with fewer than 14 bytes left
`E_TRUNC`, and then changes nothing (R115). -/
def Obligations.EthDecReadsAtCursor : Prop :=
  encode .ethDec = ⟨0x11, []⟩ ∧ ∀ s : State,
    (s.rx.valid = false → exec .ethDec s = .next (s.answered .eNoValue .none)) ∧
    (s.rx.valid = true → s.rx.pos ≤ s.rxlen → s.rxlen - s.rx.pos < 14 → exec .ethDec s = .next (s.answered .eTrunc .none)) ∧
    (s.rx.valid = true → s.rx.pos + 14 ≤ s.rxlen →
      let h : EthHeader :=
        ⟨macAt s.mem.rxb s.rx.pos, macAt s.mem.rxb (s.rx.pos + 6), be16 s.mem.rxb (s.rx.pos + 12)⟩
      exec .ethDec s =
        .next (State.answered { s with eth := ⟨true, h⟩, rx := { s.rx with pos := s.rx.pos + 14 } } .ok (.eth h)))

/-- `ETH.ENC` appends destination, source and the big-endian ethertype to `TXB`; an empty register is `E_NOVALUE`, no room `E_INVAL`, the former
tested first (R116). -/
def Obligations.EthEncAppendsHeader : Prop :=
  encode .ethEnc = ⟨0x12, []⟩ ∧ ∀ s : State,
    (s.eth.valid = false → exec .ethEnc s = .next (s.answered .eNoValue .none)) ∧
    (s.eth.valid = true → s.txlen + 14 > Config.txCap → exec .ethEnc s = .next (s.answered .eInval .none)) ∧
    (s.eth.valid = true → s.txlen + 14 ≤ Config.txCap →
      exec .ethEnc s = .next (State.answered { s with mem := { s.mem with
        txb := s.mem.txb ++ (macBytes s.eth.hdr.dst ++ macBytes s.eth.hdr.src ++ bytes16 s.eth.hdr.etype) } }
          .ok .none))

/-! ### The IPv4 operations (43_ipv4.md) -/

/-- `IP.NEW` makes the header the rule lists, whatever `IP4` held (R124). -/
def Obligations.IpNewDefaults : Prop :=
  ∀ (id : U16) (s : State), encode (.ipNew id) = ⟨0x20, [.u16 id]⟩ ∧
    exec (.ipNew id) s = .next (State.answered { s with
      ip4 := ⟨true, {
        ver := 4, hlen := 20, tos := 0, tlen := 20, id := id, df := true, mf := false, foff := 0, ttl := 64, proto := 1,
        csum := 0, src := ⟨0, 0, 0, 0⟩, dst := ⟨0, 0, 0, 0⟩, opts := [] }⟩,
      ghost := { s.ghost with ipFresh := false } } .ok .none)

/-- `IP.TTL`, `IP.PROTOCOL` and `IP.DESTINATION` change their one field, leave the stored checksum as it was and so not fresh, and end `E_NOVALUE`
on an empty register (R125, R126, R127). -/
def Obligations.IpSettersChangeOneField : Prop :=
  (∀ ttl, encode (.ipTtl ttl) = ⟨0x21, [.u8 ttl]⟩) ∧ (∀ proto, encode (.ipProtocol proto) = ⟨0x22, [.u8 proto]⟩) ∧
    (∀ dst, encode (.ipDestination dst) = ⟨0x23, [.ip4 dst]⟩) ∧ ∀ s : State,
    (s.ip4.valid = false →
      (∀ ttl, exec (.ipTtl ttl) s = .next (s.answered .eNoValue .none)) ∧
      (∀ proto, exec (.ipProtocol proto) s = .next (s.answered .eNoValue .none)) ∧
      (∀ dst, exec (.ipDestination dst) s = .next (s.answered .eNoValue .none))) ∧
    (s.ip4.valid = true →
      (∀ ttl, exec (.ipTtl ttl) s = .next (State.answered { s with
        ip4 := ⟨true, { s.ip4.hdr with ttl := ttl }⟩,
        ghost := { s.ghost with ipFresh := false } } .ok .none)) ∧
      (∀ proto, exec (.ipProtocol proto) s = .next (State.answered { s with
        ip4 := ⟨true, { s.ip4.hdr with proto := proto }⟩,
        ghost := { s.ghost with ipFresh := false } } .ok .none)) ∧
      (∀ dst, exec (.ipDestination dst) s = .next (State.answered { s with
        ip4 := ⟨true, { s.ip4.hdr with dst := dst }⟩,
        ghost := { s.ghost with ipFresh := false } } .ok .none)))

/-- `IP.APPEND_OPT` appends its operand padded with zero bytes to a multiple of 4 and adds the padded length to both lengths; it is refused
with nothing changed when the header would pass 60 bytes or the total length 65535 (R130, R128). -/
def Obligations.IpAppendOptPadsAndGrows : Prop :=
  ∀ (opt : List Byte) (s : State),
    let n := (opt.length + 3) / 4 * 4
    encode (.ipAppendOpt opt) = ⟨0x24, [.bytes opt]⟩ ∧
    (s.ip4.valid = false → exec (.ipAppendOpt opt) s = .next (s.answered .eNoValue .none)) ∧
    (s.ip4.valid = true → s.ip4.hdr.hlen + n > 60 ∨ s.ip4.hdr.tlen.toNat + n > 0xFFFF →
      exec (.ipAppendOpt opt) s = .next (s.answered .eInval .none)) ∧
    (s.ip4.valid = true → s.ip4.hdr.hlen + n ≤ 60 → s.ip4.hdr.tlen.toNat + n ≤ 0xFFFF →
      exec (.ipAppendOpt opt) s = .next (State.answered { s with
        ip4 := ⟨true, { s.ip4.hdr with
          opts := s.ip4.hdr.opts ++ (opt ++ List.replicate (n - opt.length) 0)
          hlen := s.ip4.hdr.hlen + n
          tlen := BitVec.ofNat 16 (s.ip4.hdr.tlen.toNat + n) }⟩,
        ghost := { s.ghost with ipFresh := false } } .ok .none))

/-- `IP.CHECKSUM` stores the checksum of the header with its checksum field zeroed and returns it; the checksum is fresh afterwards
(R131). -/
def Obligations.IpChecksumStoresHeaderChecksum : Prop :=
  encode .ipChecksum = ⟨0x25, []⟩ ∧ ∀ s : State,
    (s.ip4.valid = false → exec .ipChecksum s = .next (s.answered .eNoValue .none)) ∧
    (s.ip4.valid = true →
      let c := csum16 (ipEncode { s.ip4.hdr with csum := 0 })
      ∃ a, exec .ipChecksum s = .next (State.answered { s with
        ip4 := ⟨true, { s.ip4.hdr with csum := c }⟩, acc := a,
        ghost := { s.ghost with ipFresh := true } } .ok (.csum c)))

/-- `IP.DEC` decodes the remainder, given here field by field and test by test, advances the cursor by the header length and marks the checksum
not fresh; on any error nothing changes (R132, R122). -/
def Obligations.IpDecDecodesRemainder : Prop :=
  encode .ipDec = ⟨0x26, []⟩ ∧ ∀ s : State,
    (s.rx.valid = false → exec .ipDec s = .next (s.answered .eNoValue .none)) ∧
    (s.rx.valid = true → s.rx.pos ≤ s.rxlen →
      let b := s.mem.rxb.drop s.rx.pos
      let hlen := (byteAt b 0).toNat % 16 * 4
      let tlen := be16 b 2
      let h : Ip4Header := {
        ver := BitVec.ofNat 4 ((byteAt b 0).toNat / 16), hlen := hlen, tos := byteAt b 1, tlen := tlen, id := be16 b 4,
        df := (byteAt b 6).toNat / 64 % 2 == 1, mf := (byteAt b 6).toNat / 32 % 2 == 1,
        foff := BitVec.ofNat 13 ((be16 b 6).toNat % 8192), ttl := byteAt b 8, proto := byteAt b 9, csum := be16 b 10,
        src := ⟨byteAt b 12, byteAt b 13, byteAt b 14, byteAt b 15⟩, dst := ⟨byteAt b 16, byteAt b 17, byteAt b 18, byteAt b 19⟩,
        opts := (b.drop 20).take (hlen - 20) }
      (b.length < 20 → ipDecode b = .err .eTrunc ∧ exec .ipDec s = .next (s.answered .eTrunc .none)) ∧
      (20 ≤ b.length → hlen < 20 ∨ tlen.toNat < hlen →
        ipDecode b = .err .eInval ∧ exec .ipDec s = .next (s.answered .eInval .none)) ∧
      (20 ≤ b.length → 20 ≤ hlen → hlen ≤ tlen.toNat → b.length < hlen →
        ipDecode b = .err .eTrunc ∧ exec .ipDec s = .next (s.answered .eTrunc .none)) ∧
      (20 ≤ hlen → hlen ≤ tlen.toNat → hlen ≤ b.length →
        ipDecode b = .ok h (b.drop hlen) ∧
        exec .ipDec s = .next (State.answered { s with
          ip4 := ⟨true, h⟩, rx := { s.rx with pos := s.rx.pos + hlen },
          ghost := { s.ghost with ipFresh := false } } .ok (.ip4 h))))

/-- `IP.ENC` appends the `hlen` bytes of a valid register's header, given here one by one, the stored checksum as it is; no value is `E_NOVALUE`,
no room `E_INVAL` (R136, R121). -/
def Obligations.IpEncAppendsHeader : Prop :=
  encode .ipEnc = ⟨0x27, []⟩ ∧ ∀ s : State,
    let h := s.ip4.hdr
    let e : List Byte :=
      [BitVec.ofNat 8 (h.ver.toNat * 16 + h.hlen / 4), h.tos] ++ bytes16 h.tlen ++ bytes16 h.id ++
        [BitVec.ofNat 8 (h.df.toNat * 64 + h.mf.toNat * 32 + h.foff.toNat / 256), BitVec.ofNat 8 (h.foff.toNat % 256), h.ttl, h.proto] ++
        bytes16 h.csum ++ [h.src.b0, h.src.b1, h.src.b2, h.src.b3] ++ [h.dst.b0, h.dst.b1, h.dst.b2, h.dst.b3] ++ h.opts
    (s.ip4.valid = false → exec .ipEnc s = .next (s.answered .eNoValue .none)) ∧
    (s.ip4.valid = true → h.wf = true →
      ipEncode h = e ∧ e.length = h.hlen ∧
      (s.txlen + h.hlen > Config.txCap → exec .ipEnc s = .next (s.answered .eInval .none)) ∧
      (s.txlen + h.hlen ≤ Config.txCap →
        exec .ipEnc s = .next (State.answered { s with mem := { s.mem with txb := s.mem.txb ++ e } } .ok .none)))

/-- `IP.LOAD` places the header its operands make in `IP4` exactly when it satisfies the invariant of a valid register, and else ends `E_INVAL`
(R133). -/
def Obligations.IpLoadChecksInvariant : Prop :=
  ∀ (ver : BitVec 4) (hlen : Nat) (tos : Byte) (tlen id : U16) (df mf : Bool) (foff : BitVec 13)
    (ttl proto : Byte) (csum : U16) (src dst : Ip4) (opts : List Byte) (s : State),
    let good := hlen % 4 = 0 ∧ 20 ≤ hlen ∧ hlen ≤ 60 ∧ opts.length = hlen - 20 ∧ hlen ≤ tlen.toNat
    encode (.ipLoad ver hlen tos tlen id df mf foff ttl proto csum src dst opts) =
      ⟨0x28, [.u4 ver, .nat hlen, .u8 tos, .u16 tlen, .u16 id, .bit df, .bit mf, .u13 foff, .u8 ttl, .u8 proto, .u16 csum,
        .ip4 src, .ip4 dst, .bytes opts]⟩ ∧
    (good → exec (.ipLoad ver hlen tos tlen id df mf foff ttl proto csum src dst opts) s = .next (State.answered { s with
      ip4 := ⟨true, ⟨ver, hlen, tos, tlen, id, df, mf, foff, ttl, proto, csum, src, dst, opts⟩⟩,
      ghost := { s.ghost with ipFresh := false } } .ok .none)) ∧
    (¬ good → exec (.ipLoad ver hlen tos tlen id df mf foff ttl proto csum src dst opts) s =
      .next (s.answered .eInval .none))

/-! ### The ICMP operations (44_icmp.md) -/

/-- `ICMP.LOAD` writes type and code, checksum 0, and the pair only for a type of the family (R154). -/
def Obligations.IcmpLoadWritesRegister : Prop :=
  ∀ (type code : Byte) (ident seq : U16) (s : State),
    encode (.icmpLoad type code ident seq) = ⟨0x30, [.u8 type, .u8 code, .u16 ident, .u16 seq]⟩ ∧
    exec (.icmpLoad type code ident seq) s = .next (State.answered { s with
      icmp := ⟨true, if hasPair type = true then ⟨type, code, 0, ident, seq⟩ else ⟨type, code, 0, 0, 0⟩⟩,
      ghost := { s.ghost with icmpFresh := false } } .ok .none)

/-- `ICMP.DEC` decodes at the cursor and advances it by 8 for a type of the family and by 4 for another (R155). -/
def Obligations.IcmpDecReadsAtCursor : Prop :=
  encode .icmpDec = ⟨0x31, []⟩ ∧ ∀ s : State,
    (s.rx.valid = false → exec .icmpDec s = .next (s.answered .eNoValue .none)) ∧
    (s.rx.valid = true → s.rx.pos ≤ s.rxlen →
      let b := s.mem.rxb.drop s.rx.pos
      (b.length < 4 ∨ hasPair (byteAt b 0) = true ∧ b.length < 8 →
        exec .icmpDec s = .next (s.answered .eTrunc .none)) ∧
      (8 ≤ b.length → hasPair (byteAt b 0) = true →
        let h : IcmpHeader := ⟨byteAt b 0, byteAt b 1, be16 b 2, be16 b 4, be16 b 6⟩
        exec .icmpDec s = .next (State.answered { s with
          icmp := ⟨true, h⟩, rx := { s.rx with pos := s.rx.pos + 8 },
          ghost := { s.ghost with icmpFresh := false } } .ok (.icmp h))) ∧
      (4 ≤ b.length → hasPair (byteAt b 0) = false →
        let h : IcmpHeader := ⟨byteAt b 0, byteAt b 1, be16 b 2, 0, 0⟩
        exec .icmpDec s = .next (State.answered { s with
          icmp := ⟨true, h⟩, rx := { s.rx with pos := s.rx.pos + 4 },
          ghost := { s.ghost with icmpFresh := false } } .ok (.icmp h))))

/-- `ICMP.ENC` appends 8 bytes for a type of the family and 4 for another, the stored checksum as it is; the payload is not appended
(R156, R151). -/
def Obligations.IcmpEncAppendsHeader : Prop :=
  encode .icmpEnc = ⟨0x32, []⟩ ∧ ∀ s : State,
    let h := s.icmp.hdr
    let e := [h.type, h.code] ++ bytes16 h.csum ++ (if hasPair h.type = true then bytes16 h.ident ++ bytes16 h.seq else [])
    (s.icmp.valid = false → exec .icmpEnc s = .next (s.answered .eNoValue .none)) ∧
    (s.icmp.valid = true → s.txlen + e.length > Config.txCap → exec .icmpEnc s = .next (s.answered .eInval .none)) ∧
    (s.icmp.valid = true → s.txlen + e.length ≤ Config.txCap →
      exec .icmpEnc s = .next (State.answered { s with mem := { s.mem with txb := s.mem.txb ++ e } } .ok .none))

/-- `ICMP.CHECKSUM` stores and returns the checksum of the header, its checksum field zeroed, followed by the payload (R157). -/
def Obligations.IcmpChecksumCoversPayload : Prop :=
  ∀ (payload : List Byte) (s : State), encode (.icmpChecksum payload) = ⟨0x33, [.bytes payload]⟩ ∧
    (s.icmp.valid = false → exec (.icmpChecksum payload) s = .next (s.answered .eNoValue .none)) ∧
    (s.icmp.valid = true →
      let c := csum16 (icmpEncode { s.icmp.hdr with csum := 0 } ++ payload)
      ∃ a, exec (.icmpChecksum payload) s = .next (State.answered { s with
        icmp := ⟨true, { s.icmp.hdr with csum := c }⟩, acc := a,
        ghost := { s.ghost with icmpFresh := true, icmpOver := payload } } .ok (.csum c)))

/-- After `IP.CHECKSUM` the serialised header sums to `0xFFFF` with its checksum included, and after `ICMP.CHECKSUM payload` so does the
serialised header followed by the payload, whatever its length (R139, R159); a second `IP.CHECKSUM` returns the same value (R131). -/
def Obligations.StoredChecksumsVerify : Prop :=
  (∀ s t : State, s.ip4.valid = true → exec .ipChecksum s = .next t →
    foldedSum (ipEncode t.ip4.hdr) = 0xFFFF ∧ csum16 (ipEncode t.ip4.hdr) = 0 ∧
      ∃ u, exec .ipChecksum t = .next u ∧ u.ip4 = t.ip4 ∧ u.reply = t.reply) ∧
  (∀ (payload : List Byte) (s t : State), s.icmp.valid = true → exec (.icmpChecksum payload) s = .next t →
    foldedSum (icmpEncode t.icmp.hdr ++ payload) = 0xFFFF ∧ csum16 (icmpEncode t.icmp.hdr ++ payload) = 0)

/-! ### Sockets and buffers (45_socket.md) -/

/-- `SOCK.OPEN`: a slot out of range or open, or a capacity above `CAP_MAX`, is `E_INVAL` and asks nothing of the link; else the link's
answer decides between an open slot and `E_IO` with the slots unchanged (R166). When the script of answers is used up the answer is a free value
(log 4) and the statement holds whichever it is. -/
def Obligations.SockOpenOpensSlot : Prop :=
  ∀ (k : Nat) (flt : EtherFilter) (cap : Nat) (s : State),
    (Config.nsock ≤ k ∨ (s.openSlot k).isSome = true ∨ Config.capMax < cap →
      exec (.sockOpen k flt cap) s = .next (s.answered .eInval .none)) ∧
    (∀ (h : k < Config.nsock) (rest : List LinkAck), (s.openSlot k).isSome = false → cap ≤ Config.capMax →
      (s.link.openAcks = .ok :: rest →
        exec (.sockOpen k flt cap) s = .next (State.answered { s with
          sock := s.sock.set k ⟨true, flt, cap⟩ h
          link := { s.link with openAcks := rest }
          trace := s.trace ++ [.opened k flt .ok] } .ok .none)) ∧
      (s.link.openAcks = .fail :: rest →
        exec (.sockOpen k flt cap) s = .next (State.answered { s with
          link := { s.link with openAcks := rest }
          trace := s.trace ++ [.opened k flt .fail] } .eIo .none)) ∧
      (s.link.openAcks = [] → ∃ ack, exec (.sockOpen k flt cap) s = .next (State.answered { s with
          sock := if ack = .ok then s.sock.set k ⟨true, flt, cap⟩ h else s.sock
          link := { s.link with draws := s.link.draws + 1 }
          trace := s.trace ++ [.opened k flt ack] } (if ack = .ok then .ok else .eIo) .none)))

/-- `SOCK.SEND` hands `TXB` as it stands to the link for `dest` and changes nothing in the block; a closed slot is `E_INVAL` and hands over
nothing; a refusal of the link is `E_IO` (R171; free answers as for `SOCK.OPEN`). -/
def Obligations.SockSendHandsOverFrame : Prop :=
  ∀ (k : Nat) (dest : LinkAddr) (s : State),
    ((s.openSlot k).isSome = false → exec (.sockSend k dest) s = .next (s.answered .eInval .none)) ∧
    ((s.openSlot k).isSome = true →
      (∀ rest, s.link.sendAcks = .ok :: rest →
        exec (.sockSend k dest) s = .next (State.answered { s with
          link := { s.link with sendAcks := rest }
          trace := s.trace ++ [.sent k s.mem.txb dest .ok] } .ok .none)) ∧
      (∀ rest, s.link.sendAcks = .fail :: rest →
        exec (.sockSend k dest) s = .next (State.answered { s with
          link := { s.link with sendAcks := rest }
          trace := s.trace ++ [.sent k s.mem.txb dest .fail] } .eIo .none)) ∧
      (s.link.sendAcks = [] → ∃ ack, exec (.sockSend k dest) s = .next (State.answered { s with
          link := { s.link with draws := s.link.draws + 1 }
          trace := s.trace ++ [.sent k s.mem.txb dest ack] } (if ack = .ok then .ok else .eIo) .none)))

/-- `SOCK.RECV` drops the frames the filter does not pass and captures the first that does, cut to the slot's capacity, cursor at 0;
a failure of the link is `E_IO`; with no answer it waits (R175). -/
def Obligations.SockRecvCapturesFirstPassing : Prop :=
  ∀ (k : Nat) (s : State),
    ((s.openSlot k).isSome = false → exec (.sockRecv k) s = .next (s.answered .eInval .none)) ∧
    (∀ slot dropped f src rest, s.Delivers k slot dropped f src rest →
      exec (.sockRecv k) s =
        .next (((s.afterAnswers k (dropped ++ [.frame f src]) rest).captured f slot.cap src).answered .ok
          (.recv (min f.length slot.cap) src))) ∧
    (∀ slot dropped rest, s.LinkFails k slot dropped rest →
      exec (.sockRecv k) s = .next ((s.afterAnswers k (dropped ++ [.fail]) rest).answered .eIo .none)) ∧
    (∀ slot dropped rest, s.NoAnswer k slot dropped rest →
      exec (.sockRecv k) s = .next ((s.afterAnswers k dropped rest).waiting (.sockRecv k)))

/-- A frame passes a filter `Single(e)` exactly when it has 14 bytes or more and bytes 12 and 13 are `e`, high byte first; it passes `All`
always (R174). -/
def Obligations.FilterTestsEthertype : Prop :=
  (∀ f, passes .all f = true) ∧
    ∀ (e : U16) (f : List Byte), passes (.single e) f = true ↔
      14 ≤ f.length ∧ (byteAt f 12).toNat * 256 + (byteAt f 13).toNat = e.toNat

/-- `TX.CLEAR` empties `TXB` (R180) and `TX.APPEND` adds its bytes at its end or, past the capacity, changes nothing and ends `E_INVAL`
(R181). -/
def Obligations.TxBufferOperations : Prop :=
  encode .txClear = ⟨0x48, []⟩ ∧ (∀ data, encode (.txAppend data) = ⟨0x49, [.bytes data]⟩) ∧ ∀ s : State,
    exec .txClear s = .next (State.answered { s with mem := { s.mem with txb := [] } } .ok .none) ∧
    ∀ data : List Byte,
      (s.txlen + data.length ≤ Config.txCap →
        exec (.txAppend data) s = .next (State.answered { s with mem := { s.mem with txb := s.mem.txb ++ data } } .ok .none)) ∧
      (Config.txCap < s.txlen + data.length → exec (.txAppend data) s = .next (s.answered .eInval .none))

/-- `RX.REST` returns the remainder and changes nothing (R182); `RX.REWIND` puts the cursor to 0 (R183); without a captured frame both end
`E_NOVALUE`. -/
def Obligations.RxBufferOperations : Prop :=
  encode .rxRest = ⟨0x4A, []⟩ ∧ encode .rxRewind = ⟨0x4B, []⟩ ∧ ∀ s : State,
    (s.rx.valid = false →
      exec .rxRest s = .next (s.answered .eNoValue .none) ∧ exec .rxRewind s = .next (s.answered .eNoValue .none)) ∧
    (s.rx.valid = true →
      (s.rx.pos ≤ s.rxlen → exec .rxRest s = .next (s.answered .ok (.rest (s.mem.rxb.drop s.rx.pos)))) ∧
      exec .rxRewind s = .next (State.answered { s with rx := { s.rx with pos := 0 } } .ok .none))

/-- The encodes and `TX.APPEND` store their bytes in `TXB` from index `TXLEN` on and leave every other byte of `TXB`, and every byte of `RXB`, as
it was; `TXLEN` grows by the number of bytes stored (R45, R46, R105). -/
def Obligations.AppendTouchesOnlyItsBytes : Prop :=
  ∀ (i : Instr) (e : List Byte) (s t : State),
    i = .ethEnc ∧ e = ethEncode s.eth.hdr ∨ i = .ipEnc ∧ e = ipEncode s.ip4.hdr ∨ i = .icmpEnc ∧ e = icmpEncode s.icmp.hdr ∨
      i = .txAppend e →
    exec i s = .next t → t.reply = some ⟨.ok, .none⟩ →
      (∀ a, a < s.txlen ∨ s.txlen + e.length ≤ a → t.mem.readByte .txb a = s.mem.readByte .txb a) ∧
      (∀ j, j < e.length → t.mem.readByte .txb (s.txlen + j) = e[j]?) ∧
      (∀ a, t.mem.readByte .rxb a = s.mem.readByte .rxb a) ∧
      t.txlen = s.txlen + e.length ∧ t.txlen ≤ Config.txCap

/-- In a state whose cursor stands beyond the captured bytes, which no run reaches, the three decodes and `RX.REST` stop with the fault
`outOfBuffer`: the read is one R8 leaves undefined. The model's choice (log 14). -/
def Obligations.CursorBeyondCaptureFaults : Prop :=
  ∀ s : State, s.rx.valid = true → s.rxlen < s.rx.pos →
    exec .ethDec s = .fault .outOfBuffer ∧ exec .ipDec s = .fault .outOfBuffer ∧ exec .icmpDec s = .fault .outOfBuffer ∧
      exec .rxRest s = .fault .outOfBuffer

/-! ### The ARP state machine (46_arp.md) -/

/-- `ARP.START` overwrites `TXB` with the 42 bytes of the request, given here one by one (R192), sends it once to the broadcast address and awaits the reply; when the link refuses, the
writes stand and the exchange has failed with `E_IO`; on a slot that is not open nothing changes (R193). -/
def Obligations.ArpStartSendsOnce : Prop :=
  ∀ (k : Nat) (target lip : Ip4) (lmac : Mac) (s : State),
    let m := lmac
    let f : List Byte :=
      [0xFF, 0xFF, 0xFF, 0xFF, 0xFF, 0xFF, m.b0, m.b1, m.b2, m.b3, m.b4, m.b5, 0x08, 0x06, 0x00, 0x01, 0x08, 0x00, 0x06, 0x04, 0x00,
        0x01, m.b0, m.b1, m.b2, m.b3, m.b4, m.b5, lip.b0, lip.b1, lip.b2, lip.b3, 0x00, 0x00, 0x00, 0x00, 0x00, 0x00, target.b0,
        target.b1, target.b2, target.b3]
    let dest : LinkAddr := ⟨Config.arpIfindex, ⟨0xFF, 0xFF, 0xFF, 0xFF, 0xFF, 0xFF⟩⟩
    ((s.openSlot k).isSome = false → exec (.arpStart k target lip lmac) s = .next (s.answered .eInval .none)) ∧
    ((s.openSlot k).isSome = true →
      (∀ rest, s.link.sendAcks = .ok :: rest →
        exec (.arpStart k target lip lmac) s = .next (State.answered { s with
          mem := { s.mem with txb := f }
          arp := { s.arp with sock := k, state := .awaitingReply }
          link := { s.link with sendAcks := rest }
          trace := s.trace ++ [.sent k f dest .ok] } .ok .none)) ∧
      (∀ rest, s.link.sendAcks = .fail :: rest →
        exec (.arpStart k target lip lmac) s = .next (State.answered { s with
          mem := { s.mem with txb := f }
          arp := { s.arp with sock := k, state := .failed, err := .eIo }
          link := { s.link with sendAcks := rest }
          trace := s.trace ++ [.sent k f dest .fail] } .eIo .none)) ∧
      (s.link.sendAcks = [] → ∃ ack, exec (.arpStart k target lip lmac) s = .next (State.answered { s with
          mem := { s.mem with txb := f }
          arp := if ack = .ok then { s.arp with sock := k, state := .awaitingReply }
            else { s.arp with sock := k, state := .failed, err := .eIo }
          link := { s.link with draws := s.link.draws + 1 }
          trace := s.trace ++ [.sent k f dest ack] } (if ack = .ok then .ok else .eIo) .none)))

/-- `ARP.POLL` receives one frame: at least 42 bytes with operation 2 resolve to bytes 22 to 27, any other frame is `E_NOMATCH` and the
exchange goes on waiting; a failed receive is `E_NOREPLY`; with no exchange waiting it is `E_INVAL` (R195, R198). -/
def Obligations.ArpPollJudgesOneFrame : Prop :=
  ∀ s : State,
    (s.arp.state ≠ .awaitingReply → exec .arpPoll s = .next (s.answered .eInval .none)) ∧
    (s.arp.state = .awaitingReply →
      (∀ slot dropped f src rest, s.Delivers s.arp.sock slot dropped f src rest →
        let g := f.take slot.cap
        let t := (s.afterAnswers s.arp.sock (dropped ++ [.frame f src]) rest).captured f slot.cap src
        let mac : Mac := ⟨byteAt g 22, byteAt g 23, byteAt g 24, byteAt g 25, byteAt g 26, byteAt g 27⟩
        (42 ≤ g.length ∧ byteAt g 20 = 0x00 ∧ byteAt g 21 = 0x02 →
          exec .arpPoll s = .next (State.answered { t with arp := { s.arp with mac := mac, state := .resolved } } .ok (.mac mac))) ∧
        (¬ (42 ≤ g.length ∧ byteAt g 20 = 0x00 ∧ byteAt g 21 = 0x02) →
          exec .arpPoll s = .next (t.answered .eNoMatch .none))) ∧
      (∀ slot dropped rest, s.LinkFails s.arp.sock slot dropped rest →
        exec .arpPoll s = .next (State.answered { s.afterAnswers s.arp.sock (dropped ++ [.fail]) rest with
          arp := { s.arp with state := .failed, err := .eNoReply } } .eNoReply .none)) ∧
      ((s.openSlot s.arp.sock).isSome = false →
        exec .arpPoll s = .next (State.answered { s with arp := { s.arp with state := .failed, err := .eNoReply } } .eNoReply .none)) ∧
      (∀ slot dropped rest, s.NoAnswer s.arp.sock slot dropped rest →
        exec .arpPoll s = .next ((s.afterAnswers s.arp.sock dropped rest).waiting .arpPoll)))

/-- `ARP.RESOLVE`, if it ends, ends with `OK` and the address the resolver holds, or with `E_INVAL`, `E_IO` or `E_NOREPLY`; never with
`E_NOMATCH`, however many foreign frames came first. And it need not end: over a link that was handed the request and then, for ever, is
silent or brings frames that are no reply, no number of steps ends it, and the exchange goes on waiting (R199; the link's scripts: log 3). -/
def Obligations.ArpResolveOutcomes : Prop :=
  (∀ (fuel k : Nat) (target lip : Ip4) (lmac : Mac) (s t : State), runArpResolve fuel k target lip lmac s = .ended t →
    (t.status = some .ok ∧ t.arp.state = .resolved ∧ t.reply = some ⟨.ok, .mac t.arp.mac⟩) ∨
    t.status = some .eInval ∨ (t.status = some .eIo ∧ t.arp.state = .failed) ∨
    (t.status = some .eNoReply ∧ t.arp.state = .failed)) ∧
  (∀ (k : Nat) (target lip : Ip4) (lmac : Mac) (s : State) (slot : SockSlot) (rest : List LinkAck),
    s.openSlot k = some slot → s.link.sendAcks = .ok :: rest → s.link.NeverReplies slot →
      ∀ fuel, ∃ t, runArpResolve fuel k target lip lmac s = .unended t ∧ t.arp.state = .awaitingReply)

/-- A resolver whose socket has a capacity below 42 never resolves: no `ARP.POLL` ends `OK` (R276). -/
def Obligations.ArpNeedsCapacity42 : Prop :=
  ∀ (s t : State) (slot : SockSlot) (r : Reply), s.openSlot s.arp.sock = some slot → slot.cap < 42 →
    exec .arpPoll s = .next t → t.reply = some r → r.status ≠ .ok

/-! ### The consumption loops (47_consumers.md) -/

/-- `ANA.STEP` captures a frame, decodes Ethernet and IPv4 and counts the protocol; the result is the tally after the count. A frame that does not
decode is skipped: its status is the decode's, the tally is unchanged, and `ETH` is kept when only `IP.DEC` failed (R211). -/
def Obligations.AnaStepCountsProtocol : Prop :=
  ∀ (k : Nat) (s : State),
    ((s.openSlot k).isSome = false → exec (.anaStep k) s = .next (s.answered .eInval .none)) ∧
    (∀ slot dropped rest, s.LinkFails k slot dropped rest →
      exec (.anaStep k) s = .next ((s.afterAnswers k (dropped ++ [.fail]) rest).answered .eIo .none)) ∧
    (∀ slot dropped rest, s.NoAnswer k slot dropped rest →
      exec (.anaStep k) s = .next ((s.afterAnswers k dropped rest).waiting (.anaStep k))) ∧
    (∀ slot dropped f src rest, s.Delivers k slot dropped f src rest →
      let t := (s.afterAnswers k (dropped ++ [.frame f src]) rest).captured f slot.cap src
      let g := f.take slot.cap
      (g.length < 14 → exec (.anaStep k) s = .next (t.answered .eTrunc .frameSkipped)) ∧
      (∀ e r err, ethDecode g = .ok e r → ipDecode r = .err err →
        exec (.anaStep k) s =
          .next (State.answered { t with eth := ⟨true, e⟩, rx := ⟨true, 14, src⟩ } err .frameSkipped)) ∧
      (∀ e r h payload, ethDecode g = .ok e r → ipDecode r = .ok h payload →
        exec (.anaStep k) s =
          .next (State.answered { t with
            eth := ⟨true, e⟩, ip4 := ⟨true, h⟩, rx := ⟨true, 14 + h.hlen, src⟩, tally := tallyAdd h.proto s.tally,
            ghost := { s.ghost with ipFresh := false } } .ok (.tally (tallyAdd h.proto s.tally)))))

/-- Counting a protocol adds one to its entry, inserted at zero if absent, and leaves every other entry as it was (R211, R26). -/
def Obligations.TallyAddCountsOne : Prop :=
  ∀ (p : Byte) (t : Tally), (t.Pairwise fun a b => a.1.toNat < b.1.toNat) →
    (tallyAdd p t).lookup p = some ((t.lookup p).getD 0 + 1) ∧ ∀ q, q ≠ p → (tallyAdd p t).lookup q = t.lookup q

/-- `FLT.SET` loads the predicate; `unset` in all four fields matches every decoded frame, and a set field must be equal exactly;
the former is the reset value (R215, R216). -/
def Obligations.FltSetLoadsPredicate : Prop :=
  (∀ (smac dmac : Option Mac) (sip dip : Option Ip4) (s : State),
    encode (.fltSet smac dmac sip dip) = ⟨0x68, [.optMac smac, .optMac dmac, .optIp4 sip, .optIp4 dip]⟩ ∧
    exec (.fltSet smac dmac sip dip) s = .next (State.answered { s with flt := ⟨smac, dmac, sip, dip⟩ } .ok .none)) ∧
  (∀ (p : FltReg) (e : EthHeader) (h : Ip4Header), fltMatch p e h = true ↔
    (∀ m, p.smac = some m → m = e.src) ∧ (∀ m, p.dmac = some m → m = e.dst) ∧ (∀ a, p.sip = some a → a = h.src) ∧
      (∀ a, p.dip = some a → a = h.dst)) ∧
  State.reset.flt = ⟨none, none, none, none⟩

/-- `FLT.STEP` captures and decodes as `ANA.STEP` does and reports a match with the header's fields and every captured byte after it; it counts
nothing (R217, R219). -/
def Obligations.FltStepReportsMatch : Prop :=
  ∀ (k : Nat) (s : State),
    ((s.openSlot k).isSome = false → exec (.fltStep k) s = .next (s.answered .eInval .none)) ∧
    (∀ slot dropped rest, s.LinkFails k slot dropped rest →
      exec (.fltStep k) s = .next ((s.afterAnswers k (dropped ++ [.fail]) rest).answered .eIo .none)) ∧
    (∀ slot dropped rest, s.NoAnswer k slot dropped rest →
      exec (.fltStep k) s = .next ((s.afterAnswers k dropped rest).waiting (.fltStep k))) ∧
    (∀ slot dropped f src rest, s.Delivers k slot dropped f src rest →
      let t := (s.afterAnswers k (dropped ++ [.frame f src]) rest).captured f slot.cap src
      let g := f.take slot.cap
      (g.length < 14 → exec (.fltStep k) s = .next (t.answered .eTrunc .frameSkipped)) ∧
      (∀ e r err, ethDecode g = .ok e r → ipDecode r = .err err →
        exec (.fltStep k) s =
          .next (State.answered { t with eth := ⟨true, e⟩, rx := ⟨true, 14, src⟩ } err .frameSkipped)) ∧
      (∀ e r h payload, ethDecode g = .ok e r → ipDecode r = .ok h payload →
        let u : State := { t with
          eth := ⟨true, e⟩, ip4 := ⟨true, h⟩, rx := ⟨true, 14 + h.hlen, src⟩,
          ghost := { s.ghost with ipFresh := false } }
        (fltMatch s.flt e h = false → exec (.fltStep k) s = .next (u.answered .ok .noMatch)) ∧
        (fltMatch s.flt e h = true → exec (.fltStep k) s = .next (u.answered .ok (.isMatch
          ⟨h.ver, h.hlen, h.tos, h.tlen, h.id, h.df, h.mf, h.foff, h.ttl, h.proto, h.csum, h.src, h.dst,
            if h.opts = [] then none else some h.opts, payload⟩)))))

/-! ### Reset, the host and the step (10_state.md, 60_exceptions.md, 70_reset_and_hazards.md) -/

/-- The value of every item of state for which the spec gives one, at power-on and after a reset from any state; `LMAC` is the configured value and
no reset changes it (R32). -/
def Obligations.ResetValues : Prop :=
  (∀ s : State, s = State.reset ∨ (∃ u : State, s = u.applyReset) →
    s.eth.valid = false ∧ s.ip4.valid = false ∧ s.icmp.valid = false ∧ s.txlen = 0 ∧ s.rx.valid = false ∧ s.rxlen = 0 ∧
      s.rx.pos = 0 ∧ (∀ k, s.openSlot k = none) ∧ s.arp.state = .idle ∧ s.tally = [] ∧ s.flt = ⟨none, none, none, none⟩ ∧
      s.ghost.ipFresh = false ∧ s.ghost.icmpFresh = false) ∧
  State.reset.lmac = Config.lmac ∧ ∀ s : State, s.applyReset.lmac = s.lmac

/-- With no operation in progress and a command next, the step runs the operation the command decodes to, the command taken; with an operation in
progress it goes on with that, and takes no command (R12); with neither, nothing happens: the block awaits the host's first or next operation
(R262), and that the step then answers the same state is the model's choice (log 23). -/
def Obligations.StepRunsIssuedOperation : Prop :=
  (∀ (s : State) (c : Command) (rest : List HostInput) (i : Instr),
    s.busy = none → s.host = .issue c :: rest → decode c = .instr i → i.wf = true ∧ step s = exec i { s with host := rest }) ∧
  (∀ (s : State) (i : Instr), s.busy = some i → (∀ rest, s.host ≠ .reset :: rest) → step s = exec i s) ∧
  (∀ s : State, s.busy = none → s.host = [] → step s = .next s)

/-- A selector outside the table ends with `E_INVAL` and changes nothing but that the command is taken (R76, R234). -/
def Obligations.UnassignedSelectorChangesNothing : Prop :=
  ∀ (s : State) (sel : Byte) (args : List Operand) (rest : List HostInput),
    s.busy = none → s.host = .issue ⟨sel, args⟩ :: rest →
    sel.toNat ∉ [0x01, 0x10, 0x11, 0x12, 0x20, 0x21, 0x22, 0x23, 0x24, 0x25, 0x26, 0x27, 0x28, 0x30, 0x31, 0x32, 0x33, 0x40, 0x41,
      0x42, 0x48, 0x49, 0x4A, 0x4B, 0x50, 0x51, 0x60, 0x68, 0x69] →
    step s = .next (State.answered { s with host := rest } .eInval .none)

/-- Every well-formed operation is what its own command decodes to; a command decodes to nothing but well-formed operations, each of which
encodes to that command (R76, R77). -/
def Obligations.CommandRoundTrip : Prop :=
  (∀ i : Instr, i.wf = true → decode (encode i) = .instr i) ∧
    (∀ (c : Command) (i : Instr), decode c = .instr i → i.wf = true ∧ encode i = c)

/-- A few selectors of the table, with their operands, decode to the operations they stand for (part of R76). -/
def Obligations.SelectorsDecode : Prop :=
  decode ⟨0x01, [.bytes [1, 2]]⟩ = .instr (.csum [1, 2]) ∧ decode ⟨0x26, []⟩ = .instr .ipDec ∧
    decode ⟨0x33, [.bytes []]⟩ = .instr (.icmpChecksum []) ∧
    decode ⟨0x40, [.slot 1, .filter (.single 0x0800), .nat 64]⟩ = .instr (.sockOpen 1 (.single 0x0800) 64) ∧
    decode ⟨0x51, []⟩ = .instr .arpPoll ∧ decode ⟨0x69, [.slot 0]⟩ = .instr (.fltStep 0) ∧ decode ⟨0x13, []⟩ = .unassigned

/-- An operation issued before the host has done what it needs ends with the status R263 names, and the block is unchanged
(R263, R237, R234). -/
def Obligations.UnpreparedOperationRaises : Prop :=
  ∀ (i : Instr) (s : State) (e : Status), missing i s = some e → exec i s = .next (s.answered e .none)

/-- From a good state every operation ends with a status, or, being one that may block, waits (R230). -/
def Obligations.OperationEndsOrWaits : Prop :=
  ∀ (i : Instr) (s : State), s.Inv →
    ∃ t, exec i s = .next t ∧
      ((t.busy = none ∧ ∃ r, t.reply = some r) ∨ (mayBlock i = true ∧ t.busy = some i ∧ t.reply = none))

/-- No operation returns a status outside its row of the matrix, from any state, and none goes without a status but those that may block
(R245). -/
def Obligations.StatusesKeepToMatrix : Prop :=
  ∀ (i : Instr) (s t : State), exec i s = .next t →
    (∀ r, t.reply = some r → r.status ∈ statusesOf i) ∧ (t.reply = none → mayBlock i = true)

/-- An operation that ends with a status other than `OK` leaves the block as it was, but for the four cases R238 lists, which change only what
it lists there. -/
def Obligations.ErrorsChangeNothing : Prop :=
  ∀ (i : Instr) (s t : State) (r : Reply), exec i s = .next t → t.reply = some r → r.status ≠ .ok →
    s.sameBlock t ∨
    (∃ k target lip lmac, i = .arpStart k target lip lmac ∧ r.status = .eIo ∧
      { s with
        mem := { s.mem with txb := arpRequest target lip lmac },
        arp := { s.arp with sock := k, state := .failed, err := .eIo } }.sameBlock t) ∨
    (i = .arpPoll ∧ r.status = .eNoReply ∧ { s with arp := { s.arp with state := .failed, err := .eNoReply } }.sameBlock t) ∨
    (i = .arpPoll ∧ r.status = .eNoMatch ∧ ∃ b src, { s with mem := { s.mem with rxb := b }, rx := ⟨true, 0, src⟩ }.sameBlock t) ∨
    (((∃ k, i = .anaStep k) ∨ ∃ k, i = .fltStep k) ∧ r.result = .frameSkipped ∧ (r.status = .eTrunc ∨ r.status = .eInval) ∧
      ∃ b src, { s with mem := { s.mem with rxb := b }, rx := ⟨true, 0, src⟩ }.sameBlock t ∨
        ∃ e, { s with mem := { s.mem with rxb := b }, rx := ⟨true, 14, src⟩, eth := ⟨true, e⟩ }.sameBlock t)

/-- The reset event takes effect whatever the block was doing, ends the operation in progress without a status and keeps the link and its record
(log 7); no other step clears a valid bit, closes a slot or changes an open slot's filter or capacity (R260, R261, part of R11 and R24). -/
def Obligations.OnlyResetClears : Prop :=
  (∀ (s : State) (rest : List HostInput), s.host = .reset :: rest →
    step s = .next { s.applyReset with host := rest } ∧ s.applyReset.busy = none ∧ s.applyReset.reply = none ∧
      s.applyReset.link = s.link ∧ s.applyReset.trace = s.trace) ∧
  ∀ s t : State, step s = .next t → (∀ rest, s.host ≠ .reset :: rest) →
    (s.eth.valid = true → t.eth.valid = true) ∧ (s.ip4.valid = true → t.ip4.valid = true) ∧
      (s.icmp.valid = true → t.icmp.valid = true) ∧ (s.rx.valid = true → t.rx.valid = true) ∧
      (∀ k slot, s.openSlot k = some slot → t.openSlot k = some slot)

/-- Which operations write which state: every register and buffer is unchanged by an operation not listed for it (R13, R15, R18, R21, R22, R24,
R25, R26, R27, R30). -/
def Obligations.WritersOfState : Prop :=
  ∀ (i : Instr) (s t : State), exec i s = .next t →
    (t.eth = s.eth ∨ (∃ d c e, i = .ethLoad d c e) ∨ i = .ethDec ∨ (∃ k, i = .anaStep k) ∨ ∃ k, i = .fltStep k) ∧
    (t.ip4 = s.ip4 ∨ (∃ d, i = .ipNew d) ∨ (∃ v, i = .ipTtl v) ∨ (∃ v, i = .ipProtocol v) ∨ (∃ a, i = .ipDestination a) ∨
      (∃ o, i = .ipAppendOpt o) ∨ i = .ipChecksum ∨ i = .ipDec ∨
      (∃ a b c d e f g h j k l m n o, i = .ipLoad a b c d e f g h j k l m n o) ∨ (∃ k, i = .anaStep k) ∨ ∃ k, i = .fltStep k) ∧
    (t.icmp = s.icmp ∨ (∃ a b c d, i = .icmpLoad a b c d) ∨ i = .icmpDec ∨ ∃ p, i = .icmpChecksum p) ∧
    (t.mem.txb = s.mem.txb ∨ i = .ethEnc ∨ i = .ipEnc ∨ i = .icmpEnc ∨ (∃ d, i = .txAppend d) ∨ i = .txClear ∨
      ∃ k a b m, i = .arpStart k a b m) ∧
    (t.mem.rxb = s.mem.rxb ∧ t.rx.valid = s.rx.valid ∧ t.rx.src = s.rx.src ∨ mayBlock i = true) ∧
    (t.rx.pos = s.rx.pos ∨ i = .ethDec ∨ i = .ipDec ∨ i = .icmpDec ∨ i = .rxRewind ∨ mayBlock i = true) ∧
    (t.sock = s.sock ∨ ∃ k f c, i = .sockOpen k f c) ∧ (t.arp = s.arp ∨ (∃ k a b m, i = .arpStart k a b m) ∨ i = .arpPoll) ∧
    (t.tally = s.tally ∨ ∃ k, i = .anaStep k) ∧ (t.flt = s.flt ∨ ∃ a b c d, i = .fltSet a b c d) ∧ t.lmac = s.lmac ∧
    t.host = s.host

/-- No operation brings the resolver to `Idle`: only reset does; and only `ARP.POLL` while a reply is awaited reaches `Resolved` (R191). -/
def Obligations.ArpTransitions : Prop :=
  ∀ (i : Instr) (s t : State), exec i s = .next t →
    (t.arp.state = .idle → s.arp.state = .idle) ∧
      (t.arp.state = .resolved → s.arp.state = .resolved ∨ i = .arpPoll ∧ s.arp.state = .awaitingReply) ∧
      (t.arp.state = .awaitingReply → s.arp.state = .awaitingReply ∨ ∃ k a b m, i = .arpStart k a b m)

/-- The record of link events is only ever added to; a frame is handed to the link by `SOCK.SEND`, which hands over `TXB`, and by `ARP.START` and by
nothing else (R54, R47, R55). -/
def Obligations.RecordIsAppendOnly : Prop :=
  ∀ (i : Instr) (s t : State), exec i s = .next t →
    ∃ added, t.trace = s.trace ++ added ∧
      ∀ k f dest ack, LinkEvent.sent k f dest ack ∈ added →
        (i = .sockSend k dest ∧ f = s.mem.txb ∨ (∃ target lip lmac, i = .arpStart k target lip lmac) ∧ f = t.mem.txb) ∧
          added = [.sent k f dest ack]

/-- A receive that nothing answers never ends: with an operation that receives in progress over an open slot, and from the host no reset, a link
that for ever is silent or brings frames the slot's filter drops leaves it in progress in every run of any length, no command taken and the
block as it was, whatever commands the host has waiting; over a silent link even the record stays as it was (R53, R275, R12; the link's
scripts: log 3, waiting: log 5). -/
def Obligations.UnansweredReceiveNeverEnds : Prop :=
  ∀ (n k : Nat) (i : Instr) (s : State) (slot : SockSlot), i = .sockRecv k ∨ i = .anaStep k ∨ i = .fltStep k ∨
      (i = .arpPoll ∧ s.arp.state = .awaitingReply ∧ s.arp.sock = k) →
    s.busy = some i → s.reply = none → s.openSlot k = some slot → (∀ rest, s.host ≠ .reset :: rest) →
      (s.link.NeverPasses slot.filter →
        ∃ t, Host.Core.run core n s = .next t ∧ t.busy = some i ∧ t.reply = none ∧ s.sameBlock t ∧ t.host = s.host) ∧
      (s.link.inbound = [] → s.link.cycle = [.silence] → Host.Core.run core n s = .next s)

/-! ### Headlines -/

/-- The machine's invariant holds at reset, and the ghost flags promise nothing there (R32, R271). -/
def Obligations.ResetSatisfiesInvariants : Prop := State.reset.Inv ∧ State.reset.FreshInv

/-- Every step keeps the machine's invariant: the buffers within their capacities, the cursor within the capture, a valid IPv4 register a valid
header, the pair absent outside the family, slot capacities, the resolver's states, the tally's form (R16, R19, R21, R22, R24, R25, R26). -/
def Obligations.StepKeepsInvariant : Prop :=
  ∀ s t : State, s.Inv → step s = .next t → t.Inv

/-- From a good state no step faults: no operation reads outside the defined part of a buffer (R45). -/
def Obligations.GoodStatesNeverFault : Prop :=
  ∀ s : State, s.Inv → ∀ φ, step s ≠ .fault φ

/-- Every step keeps what the ghost flags promise: while `IP4.fresh` holds the stored checksum is that of the header as it stands, while
`ICMP.fresh` holds the stored checksum is that of header and payload `over` (R270, R271). -/
def Obligations.StepKeepsFreshness : Prop :=
  ∀ s t : State, s.FreshInv → step s = .next t → t.FreshInv

/-- A host that keeps the obligation of R271 appends headers that verify: `IP.ENC` with a fresh checksum appends bytes whose checksum is 0, and
`ICMP.ENC` with a fresh checksum followed by `TX.APPEND` of the summed payload appends bytes whose checksum is 0, whenever there is room for
them: 8 header bytes for a type of the family, 4 for another (R270, R271, R272). -/
def Obligations.FreshEncodesVerify : Prop :=
  ∀ s : State, s.Inv → s.FreshInv →
    (s.ghost.ipFresh = true → s.txlen + s.ip4.hdr.hlen ≤ Config.txCap →
      ∃ t h, exec .ipEnc s = .next t ∧ t.reply = some ⟨.ok, .none⟩ ∧ t.mem.txb = s.mem.txb ++ h ∧ csum16 h = 0) ∧
    (s.ghost.icmpFresh = true →
      s.txlen + (if hasPair s.icmp.hdr.type then 8 else 4) + s.ghost.icmpOver.length ≤ Config.txCap →
      ∃ t u m, exec .icmpEnc s = .next t ∧ exec (.txAppend s.ghost.icmpOver) t = .next u ∧ u.reply = some ⟨.ok, .none⟩ ∧
        u.mem.txb = s.mem.txb ++ m ∧ csum16 m = 0)
end

