-- ==== Sys2Proof/Laws/Codec.lean ====
section
/-! SUPPORT. Bytes and big-endian words, the lengths of the encodes, and what each decode that succeeds has read. -/

namespace Sys2Proof.Machine

open Sys2Proof

/-! ### Bytes and words -/

@[simp] theorem byteAt_cons_zero (x : Byte) (l : List Byte) : byteAt (x :: l) 0 = x := rfl

@[simp] theorem byteAt_cons_succ (x : Byte) (l : List Byte) (i : Nat) : byteAt (x :: l) (i + 1) = byteAt l i := rfl

theorem byteAt_of_lt {b : List Byte} {i : Nat} (h : i < b.length) : byteAt b i = b[i] := by
  simp [byteAt, List.getD_eq_getElem?_getD, h]

theorem byteAt_drop (b : List Byte) (n i : Nat) : byteAt (b.drop n) i = byteAt b (n + i) := by
  simp [byteAt, List.getD_eq_getElem?_getD]

theorem byteAt_take {b : List Byte} {n i : Nat} (h : i < n) : byteAt (b.take n) i = byteAt b i := by
  simp [byteAt, List.getD_eq_getElem?_getD, List.getElem?_take_of_lt h]

theorem byteAt_append_left {b : List Byte} {i : Nat} (h : i < b.length) (t : List Byte) : byteAt (b ++ t) i = byteAt b i := by
  simp [byteAt, List.getD_eq_getElem?_getD, List.getElem?_append_left h]

theorem be16_drop (b : List Byte) (n i : Nat) : be16 (b.drop n) i = be16 b (n + i) := by
  simp [be16, byteAt_drop, Nat.add_assoc]

theorem macAt_drop (b : List Byte) (n i : Nat) : macAt (b.drop n) i = macAt b (n + i) := by
  simp [macAt, byteAt_drop, Nat.add_assoc]

theorem append_toNat (hi lo : Byte) : (hi ++ lo : U16).toNat = hi.toNat * 256 + lo.toNat := by
  rw [BitVec.toNat_append, ← Nat.shiftLeft_add_eq_or_of_lt lo.isLt, Nat.shiftLeft_eq]

theorem be16_toNat (b : List Byte) (i : Nat) : (be16 b i).toNat = (byteAt b i).toNat * 256 + (byteAt b (i + 1)).toNat :=
  append_toNat _ _

/-- Joining the two wire bytes of a number gives the number. -/
theorem bytes16_join (v : U16) : v.extractLsb' 8 8 ++ v.extractLsb' 0 8 = v := by
  have h := v.isLt
  apply BitVec.eq_of_toNat_eq
  rw [append_toNat, BitVec.extractLsb'_toNat, BitVec.extractLsb'_toNat, Nat.shiftRight_eq_div_pow, Nat.shiftRight_zero]
  omega

/-- The high wire byte of two joined bytes is the first. -/
theorem bytes16_high (hi lo : Byte) : (hi ++ lo : U16).extractLsb' 8 8 = hi := by
  have := lo.isLt
  have := hi.isLt
  apply BitVec.eq_of_toNat_eq
  rw [BitVec.extractLsb'_toNat, append_toNat, Nat.shiftRight_eq_div_pow]
  omega

/-- The low wire byte of two joined bytes is the second. -/
theorem bytes16_low (hi lo : Byte) : (hi ++ lo : U16).extractLsb' 0 8 = lo := by
  have := lo.isLt
  apply BitVec.eq_of_toNat_eq
  rw [BitVec.extractLsb'_toNat, append_toNat, Nat.shiftRight_zero]
  omega

theorem bytes16_toNat (v : U16) : (v.extractLsb' 8 8).toNat * 256 + (v.extractLsb' 0 8).toNat = v.toNat := by
  have := v.isLt
  rw [BitVec.extractLsb'_toNat, BitVec.extractLsb'_toNat, Nat.shiftRight_eq_div_pow, Nat.shiftRight_eq_div_pow]
  omega

/-! ### The packed bytes of the IPv4 header (30_encoding.md R67) -/

/-- Byte 0 gives back its two halves. -/
theorem versionByte_fields (v n : BitVec 4) :
    (v ++ n : BitVec 8).extractLsb' 4 4 = v ∧ (v ++ n : BitVec 8).extractLsb' 0 4 = n := by
  revert v n
  decide

/-- A byte is its two halves. -/
theorem versionByte_join (b : Byte) : (b.extractLsb' 4 4 ++ b.extractLsb' 0 4 : BitVec 8) = b := by
  revert b
  decide

/-- Byte 6 gives back the two flags. -/
theorem flagsByte_fields (df mf : Bool) (x : BitVec 5) :
    (0#1 ++ BitVec.ofBool df ++ BitVec.ofBool mf ++ x : BitVec 8).getLsbD 6 = df ∧
      (0#1 ++ BitVec.ofBool df ++ BitVec.ofBool mf ++ x : BitVec 8).getLsbD 5 = mf ∧
      (0#1 ++ BitVec.ofBool df ++ BitVec.ofBool mf ++ x : BitVec 8).toNat % 32 = x.toNat := by
  revert df mf x
  decide

/-- Bytes 6 and 7 give back the fragment offset. -/
theorem fragment_field (df mf : Bool) (f : BitVec 13) :
    ((0#1 ++ BitVec.ofBool df ++ BitVec.ofBool mf ++ f.extractLsb' 8 5 : BitVec 8) ++ f.extractLsb' 0 8 : U16).extractLsb' 0 13 =
      f := by
  have h := (flagsByte_fields df mf (f.extractLsb' 8 5)).2.2
  have hf := f.isLt
  apply BitVec.eq_of_toNat_eq
  rw [BitVec.extractLsb'_toNat, append_toNat, Nat.shiftRight_zero]
  rw [BitVec.extractLsb'_toNat, Nat.shiftRight_eq_div_pow] at h
  have hlow : (f.extractLsb' 0 8).toNat = f.toNat % 256 := by simp
  omega

/-- The offset's high bits in two joined bytes are the low bits of the first. -/
theorem fragment_high (hi lo : Byte) : ((hi ++ lo : U16).extractLsb' 0 13).extractLsb' 8 5 = hi.extractLsb' 0 5 := by
  have := hi.isLt
  have := lo.isLt
  apply BitVec.eq_of_toNat_eq
  simp only [BitVec.extractLsb'_toNat, append_toNat, Nat.shiftRight_eq_div_pow]
  omega

/-- The offset's low bits in two joined bytes are the second. -/
theorem fragment_low (hi lo : Byte) : ((hi ++ lo : U16).extractLsb' 0 13).extractLsb' 0 8 = lo := by
  have := lo.isLt
  apply BitVec.eq_of_toNat_eq
  simp only [BitVec.extractLsb'_toNat, append_toNat, Nat.shiftRight_zero]
  omega

/-- Writing the flags and the offset of a byte back clears its top bit and nothing else. -/
theorem flagsByte_join (b : Byte) :
    (0#1 ++ BitVec.ofBool (b.getLsbD 6) ++ BitVec.ofBool (b.getLsbD 5) ++ b.extractLsb' 0 5 : BitVec 8) = b &&& 0x7F := by
  revert b
  decide

theorem ipFixedFields_hlen (b : List Byte) : (ipFixedFields b).hlen = (byteAt b 0).toNat % 16 * 4 := by
  simp [ipFixedFields]

/-! ### Lengths -/

@[simp] theorem bytes16_length (v : U16) : (bytes16 v).length = 2 := rfl

@[simp] theorem macBytes_length (m : Mac) : (macBytes m).length = 6 := rfl

@[simp] theorem ip4Bytes_length (a : Ip4) : (ip4Bytes a).length = 4 := rfl

@[simp] theorem ethEncode_length (h : EthHeader) : (ethEncode h).length = 14 := rfl

@[simp] theorem ipEncode_length (h : Ip4Header) : (ipEncode h).length = 20 + h.opts.length := by
  simp [ipEncode]
  omega

theorem icmpEncode_length (h : IcmpHeader) : (icmpEncode h).length = if hasPair h.type then 8 else 4 := by
  cases hp : hasPair h.type <;> simp [icmpEncode, hp]

theorem pad4_length (b : List Byte) : (pad4 b).length = (b.length + 3) / 4 * 4 := by
  simp [pad4, zeros]
  omega

/-! ### Valid headers -/

theorem Ip4Header.wf_iff (h : Ip4Header) : h.wf = true ↔
    h.hlen % 4 = 0 ∧ 20 ≤ h.hlen ∧ h.hlen ≤ 60 ∧ h.opts.length = h.hlen - 20 ∧ h.hlen ≤ h.tlen.toNat := by
  simp [Ip4Header.wf, and_assoc]

theorem IcmpHeader.wf_iff (h : IcmpHeader) : h.wf = true ↔ hasPair h.type = true ∨ h.ident = 0 ∧ h.seq = 0 := by
  simp [IcmpHeader.wf]

/-! ### Where the checksum stands -/

theorem bytes16_zero : bytes16 0 = [0, 0] := by decide

/-- The checksum of an IPv4 header goes out at an even index, and the other bytes do not depend on it. -/
theorem ipEncode_split (h : Ip4Header) :
    ∃ a b, a.length % 2 = 0 ∧ ∀ c, ipEncode { h with csum := c } = a ++ bytes16 c ++ b :=
  ⟨[(h.ver ++ BitVec.ofNat 4 (h.hlen / 4) : BitVec 8), h.tos] ++ bytes16 h.tlen ++ bytes16 h.id ++
      [(0#1 ++ BitVec.ofBool h.df ++ BitVec.ofBool h.mf ++ h.foff.extractLsb' 8 5 : BitVec 8), h.foff.extractLsb' 0 8, h.ttl,
        h.proto],
    ip4Bytes h.src ++ ip4Bytes h.dst ++ h.opts, by simp, fun c => by simp [ipEncode]⟩

/-- The checksum of an ICMP header goes out at an even index, and the other bytes do not depend on it. -/
theorem icmpEncode_split (h : IcmpHeader) :
    ∃ a b, a.length % 2 = 0 ∧ ∀ c, icmpEncode { h with csum := c } = a ++ bytes16 c ++ b :=
  ⟨[h.type, h.code], if hasPair h.type then bytes16 h.ident ++ bytes16 h.seq else [], by simp, fun _ => rfl⟩

/-! ### What a decode that succeeds has read -/

theorem ethDecode_eq_ok_iff {b r : List Byte} {h : EthHeader} :
    ethDecode b = .ok h r ↔ 14 ≤ b.length ∧ h = ⟨macAt b 0, macAt b 6, be16 b 12⟩ ∧ r = b.drop 14 := by
  unfold ethDecode
  split
  · simp
    omega
  · simp only [CodecResult.ok.injEq]
    constructor
    · rintro ⟨rfl, rfl⟩
      exact ⟨by omega, rfl, rfl⟩
    · rintro ⟨_, rfl, rfl⟩
      exact ⟨rfl, rfl⟩

theorem ipDecode_eq_ok_iff {b r : List Byte} {h : Ip4Header} :
    ipDecode b = .ok h r ↔
      20 ≤ b.length ∧ 20 ≤ (ipFixedFields b).hlen ∧ (ipFixedFields b).hlen ≤ (ipFixedFields b).tlen.toNat ∧
        (ipFixedFields b).hlen ≤ b.length ∧
        h = { ipFixedFields b with opts := (b.drop 20).take ((ipFixedFields b).hlen - 20) } ∧
        r = b.drop (ipFixedFields b).hlen := by
  unfold ipDecode
  split
  · simp
    omega
  dsimp only
  split
  · simp
    omega
  split
  · simp
    omega
  split
  · rename_i h1
    rw [List.length_drop] at h1
    simp
    omega
  rename_i h1 h2 h3 h4
  rw [List.length_drop] at h4
  have hd : (b.drop 20).drop ((ipFixedFields b).hlen - 20) = b.drop (ipFixedFields b).hlen := by
    rw [List.drop_drop]
    congr 1
    omega
  rw [hd]
  simp only [CodecResult.ok.injEq]
  constructor
  · rintro ⟨rfl, rfl⟩
    exact ⟨by omega, by omega, by omega, by omega, rfl, rfl⟩
  · rintro ⟨_, _, _, _, rfl, rfl⟩
    exact ⟨rfl, rfl⟩

theorem icmpDecode_eq_ok_iff {b r : List Byte} {h : IcmpHeader} :
    icmpDecode b = .ok h r ↔
      (hasPair (byteAt b 0) = true ∧ 8 ≤ b.length ∧
        h = ⟨byteAt b 0, byteAt b 1, be16 b 2, be16 b 4, be16 b 6⟩ ∧ r = b.drop 8) ∨
      (hasPair (byteAt b 0) = false ∧ 4 ≤ b.length ∧ h = ⟨byteAt b 0, byteAt b 1, be16 b 2, 0, 0⟩ ∧ r = b.drop 4) := by
  unfold icmpDecode
  split
  · simp
    omega
  split
  · split
    · rename_i h1 h2 h3
      simp [h2]
      omega
    · rename_i h1 h2 h3
      simp only [h2, CodecResult.ok.injEq, true_and, Bool.true_eq_false, false_and, or_false]
      constructor
      · rintro ⟨rfl, rfl⟩
        exact ⟨by omega, rfl, rfl⟩
      · rintro ⟨_, rfl, rfl⟩
        exact ⟨rfl, rfl⟩
  · rename_i h1 h2
    rw [Bool.not_eq_true] at h2
    simp only [h2, CodecResult.ok.injEq, true_and, Bool.false_eq_true, false_and, false_or]
    constructor
    · rintro ⟨rfl, rfl⟩
      exact ⟨by omega, rfl, rfl⟩
    · rintro ⟨_, rfl, rfl⟩
      exact ⟨rfl, rfl⟩

/-! ### The word sum -/

theorem wordSum_append_even {a : List Byte} (h : a.length % 2 = 0) (b : List Byte) : wordSum (a ++ b) = wordSum a + wordSum b := by
  induction a using wordSum.induct with
  | case1 => simp [wordSum]
  | case2 => simp at h
  | case3 hi lo rest ih =>
    simp only [List.cons_append, wordSum, ih (by simp only [List.length_cons] at h; omega)]
    omega

theorem wordSum_bytes16 (v : U16) : wordSum (bytes16 v) = v.toNat := by
  simp only [bytes16, wordSum, Nat.add_zero, bytes16_toNat]

/-- Enough passes fold a sum into 16 bits without changing its residue modulo `0xFFFF`, and a sum above 0 stays above 0. -/
theorem foldCarry_spec : ∀ fuel acc, acc ≤ fuel →
    foldCarry fuel acc ≤ 0xFFFF ∧ foldCarry fuel acc % 0xFFFF = acc % 0xFFFF ∧ (foldCarry fuel acc = 0 ↔ acc = 0)
  | 0, acc, h => by
    obtain rfl : acc = 0 := by omega
    simp [foldCarry]
  | fuel + 1, acc, h => by
    unfold foldCarry
    split
    · exact ⟨by omega, rfl, Iff.rfl⟩
    · obtain ⟨h1, h2, h3⟩ := foldCarry_spec fuel (acc % 65536 + acc / 65536) (by omega)
      exact ⟨h1, by omega, by omega⟩

end Sys2Proof.Machine
end

