-- ==== Sys2Proof/Laws/Memory.lean ====
section
/-! SUPPORT. The two byte spaces: what a write leaves, and that every memory operation keeps `Memory.wf`. -/

namespace Sys2Proof.Machine

open Sys2Proof

variable (m : Memory) (sp : Space)

@[simp] theorem Memory.buf_txb : m.buf .txb = m.txb := rfl
@[simp] theorem Memory.buf_rxb : m.buf .rxb = m.rxb := rfl
@[simp] theorem Memory.setBuf_buf_self (b : List Byte) : (m.setBuf sp b).buf sp = b := by cases sp <;> rfl
theorem Memory.setBuf_buf_of_ne {sp sp' : Space} (h : sp' ≠ sp) (b : List Byte) : (m.setBuf sp b).buf sp' = m.buf sp' := by
  cases sp <;> cases sp' <;> first | rfl | exact absurd rfl h

theorem Memory.overwrite_eq (v : List Byte) : m.overwrite sp v = m.setBuf sp v := by
  cases sp <;> simp [Memory.overwrite, Memory.setLen, Memory.memWrite, Memory.setBuf, Memory.buf]

theorem Memory.memWrite_end (v : List Byte) : m.memWrite sp (m.buf sp).length v = m.setBuf sp (m.buf sp ++ v) := by
  simp [Memory.memWrite, List.drop_of_length_le]

theorem Memory.setLen_zero : m.setLen sp 0 = m.setBuf sp [] := by simp [Memory.setLen]

theorem Memory.readByte_eq_none_iff (a : Nat) : m.readByte sp a = none ↔ (m.buf sp).length ≤ a := by
  simp [Memory.readByte]

theorem Memory.readByte_setBuf_of_ne {sp sp' : Space} (h : sp' ≠ sp) (b : List Byte) (a : Nat) :
    (m.setBuf sp b).readByte sp' a = m.readByte sp' a := by
  simp [Memory.readByte, Memory.setBuf_buf_of_ne m h]

theorem Memory.readByte_append_lt (v : List Byte) {a : Nat} (h : a < (m.buf sp).length) :
    (m.setBuf sp (m.buf sp ++ v)).readByte sp a = m.readByte sp a := by
  simp [Memory.readByte, List.getElem?_append_left h]

theorem Memory.readByte_append_ge (v : List Byte) (j : Nat) :
    (m.setBuf sp (m.buf sp ++ v)).readByte sp ((m.buf sp).length + j) = v[j]? := by
  simp [Memory.readByte, List.getElem?_append_right]

theorem Memory.memWrite_buf_outside {off a : Nat} {v : List Byte} (hoff : off ≤ (m.buf sp).length)
    (ha : a < off ∨ off + v.length ≤ a) : (m.memWrite sp off v).readByte sp a = m.readByte sp a := by
  have htake : ((m.buf sp).take off).length = off := by simpa using hoff
  unfold Memory.readByte Memory.memWrite
  rw [Memory.setBuf_buf_self]
  rcases ha with h | h
  · rw [List.append_assoc, List.getElem?_append_left (by omega), List.getElem?_take_of_lt h]
  · rw [List.getElem?_append_right (by simp; omega), List.getElem?_drop]
    congr 1
    simp; omega

theorem Memory.memWrite_buf_inside {off j : Nat} {v : List Byte} (hoff : off ≤ (m.buf sp).length) (hj : j < v.length) :
    (m.memWrite sp off v).readByte sp (off + j) = some v[j] := by
  have htake : ((m.buf sp).take off).length = off := by simpa using hoff
  unfold Memory.readByte Memory.memWrite
  rw [Memory.setBuf_buf_self, List.append_assoc, List.getElem?_append_right (by omega), htake, Nat.add_sub_cancel_left,
    List.getElem?_append_left hj, List.getElem?_eq_getElem hj]

theorem Memory.memRead_eq_some_iff {off n : Nat} {b : List Byte} :
    m.memRead sp off n = some b ↔ off + n ≤ (m.buf sp).length ∧ b = slice (m.buf sp) off n := by
  unfold Memory.memRead; split <;> simp_all [eq_comm]

/-! ### The canonical form -/

theorem Memory.cells_rising : (m.cells sp).Pairwise fun a b => a.1 < b.1 := by
  have key : ∀ (l : List Byte) (n : Nat), ((l.zipIdx n).map fun p => (p.2, p.1)).Pairwise fun a b => a.1 < b.1 := by
    intro l
    induction l with
    | nil => intro n; simp
    | cons x xs ih =>
      intro n
      simp only [List.zipIdx_cons, List.map_cons, List.pairwise_cons]
      refine ⟨?_, ih (n + 1)⟩
      intro a ha
      obtain ⟨p, hp, rfl⟩ := List.mem_map.1 ha
      have := (List.mem_zipIdx hp).1
      simp; omega
  exact key _ 0

theorem Memory.wf_iff : m.wf = true ↔ m.txb.length ≤ Config.txCap ∧ m.rxb.length ≤ Config.capMax := by
  simp [Memory.wf]

theorem Memory.wf_memWrite_txb {off : Nat} {v : List Byte} (h : m.wf = true) (hv : off + v.length ≤ Config.txCap) :
    (m.memWrite .txb off v).wf = true := by
  simp [Memory.wf, Memory.memWrite, Memory.setBuf, Memory.buf] at *
  omega

theorem Memory.wf_memWrite_rxb {off : Nat} {v : List Byte} (h : m.wf = true) (hv : off + v.length ≤ Config.capMax) :
    (m.memWrite .rxb off v).wf = true := by
  simp [Memory.wf, Memory.memWrite, Memory.setBuf, Memory.buf] at *
  omega

theorem Memory.wf_append {v : List Byte} (h : m.wf = true) (hv : m.txb.length + v.length ≤ Config.txCap) :
    (m.memWrite .txb m.txb.length v).wf = true := by
  have := Memory.memWrite_end m .txb v
  simp only [Memory.buf_txb] at this
  rw [this]; simp_all [Memory.wf, Memory.setBuf]

theorem Memory.wf_overwrite_rxb {v : List Byte} (h : m.wf = true) (hv : v.length ≤ Config.capMax) :
    (m.overwrite .rxb v).wf = true := by
  rw [Memory.overwrite_eq]; simp_all [Memory.wf, Memory.setBuf]

theorem Memory.wf_overwrite_txb {v : List Byte} (h : m.wf = true) (hv : v.length ≤ Config.txCap) :
    (m.overwrite .txb v).wf = true := by
  rw [Memory.overwrite_eq]; simp_all [Memory.wf, Memory.setBuf]

theorem Memory.wf_setLen (n : Nat) (h : m.wf = true) : (m.setLen sp n).wf = true := by
  cases sp <;> simp_all [Memory.wf, Memory.setLen, Memory.setBuf, Memory.buf]

theorem Memory.wf_reset : State.reset.mem.wf = true := by simp [Memory.wf, State.reset]

end Sys2Proof.Machine
end

