-- ==== Sys2Proof/Laws/State.lean ====
section
/-! SUPPORT. Each field after each register write: the lemmas that keep later proofs from unfolding a record update. -/

namespace Sys2Proof.Machine

open Sys2Proof

variable (s : State)

@[simp] theorem State.setEth_eth (v : EthReg) : (s.setEth v).eth = v := rfl
@[simp] theorem State.setEth_ip4 (v : EthReg) : (s.setEth v).ip4 = s.ip4 := rfl
@[simp] theorem State.setEth_icmp (v : EthReg) : (s.setEth v).icmp = s.icmp := rfl
@[simp] theorem State.setEth_acc (v : EthReg) : (s.setEth v).acc = s.acc := rfl
@[simp] theorem State.setEth_mem (v : EthReg) : (s.setEth v).mem = s.mem := rfl
@[simp] theorem State.setEth_rx (v : EthReg) : (s.setEth v).rx = s.rx := rfl
@[simp] theorem State.setEth_sock (v : EthReg) : (s.setEth v).sock = s.sock := rfl
@[simp] theorem State.setEth_arp (v : EthReg) : (s.setEth v).arp = s.arp := rfl
@[simp] theorem State.setEth_tally (v : EthReg) : (s.setEth v).tally = s.tally := rfl
@[simp] theorem State.setEth_flt (v : EthReg) : (s.setEth v).flt = s.flt := rfl
@[simp] theorem State.setEth_lmac (v : EthReg) : (s.setEth v).lmac = s.lmac := rfl
@[simp] theorem State.setEth_ghost (v : EthReg) : (s.setEth v).ghost = s.ghost := rfl
@[simp] theorem State.setEth_link (v : EthReg) : (s.setEth v).link = s.link := rfl
@[simp] theorem State.setEth_trace (v : EthReg) : (s.setEth v).trace = s.trace := rfl
@[simp] theorem State.setEth_host (v : EthReg) : (s.setEth v).host = s.host := rfl
@[simp] theorem State.setEth_busy (v : EthReg) : (s.setEth v).busy = s.busy := rfl
@[simp] theorem State.setEth_reply (v : EthReg) : (s.setEth v).reply = s.reply := rfl

@[simp] theorem State.setIp4_eth (v : Ip4Reg) : (s.setIp4 v).eth = s.eth := rfl
@[simp] theorem State.setIp4_ip4 (v : Ip4Reg) : (s.setIp4 v).ip4 = v := rfl
@[simp] theorem State.setIp4_icmp (v : Ip4Reg) : (s.setIp4 v).icmp = s.icmp := rfl
@[simp] theorem State.setIp4_acc (v : Ip4Reg) : (s.setIp4 v).acc = s.acc := rfl
@[simp] theorem State.setIp4_mem (v : Ip4Reg) : (s.setIp4 v).mem = s.mem := rfl
@[simp] theorem State.setIp4_rx (v : Ip4Reg) : (s.setIp4 v).rx = s.rx := rfl
@[simp] theorem State.setIp4_sock (v : Ip4Reg) : (s.setIp4 v).sock = s.sock := rfl
@[simp] theorem State.setIp4_arp (v : Ip4Reg) : (s.setIp4 v).arp = s.arp := rfl
@[simp] theorem State.setIp4_tally (v : Ip4Reg) : (s.setIp4 v).tally = s.tally := rfl
@[simp] theorem State.setIp4_flt (v : Ip4Reg) : (s.setIp4 v).flt = s.flt := rfl
@[simp] theorem State.setIp4_lmac (v : Ip4Reg) : (s.setIp4 v).lmac = s.lmac := rfl
@[simp] theorem State.setIp4_ghost (v : Ip4Reg) : (s.setIp4 v).ghost = s.ghost := rfl
@[simp] theorem State.setIp4_link (v : Ip4Reg) : (s.setIp4 v).link = s.link := rfl
@[simp] theorem State.setIp4_trace (v : Ip4Reg) : (s.setIp4 v).trace = s.trace := rfl
@[simp] theorem State.setIp4_host (v : Ip4Reg) : (s.setIp4 v).host = s.host := rfl
@[simp] theorem State.setIp4_busy (v : Ip4Reg) : (s.setIp4 v).busy = s.busy := rfl
@[simp] theorem State.setIp4_reply (v : Ip4Reg) : (s.setIp4 v).reply = s.reply := rfl

@[simp] theorem State.setIcmp_eth (v : IcmpReg) : (s.setIcmp v).eth = s.eth := rfl
@[simp] theorem State.setIcmp_ip4 (v : IcmpReg) : (s.setIcmp v).ip4 = s.ip4 := rfl
@[simp] theorem State.setIcmp_icmp (v : IcmpReg) : (s.setIcmp v).icmp = v := rfl
@[simp] theorem State.setIcmp_acc (v : IcmpReg) : (s.setIcmp v).acc = s.acc := rfl
@[simp] theorem State.setIcmp_mem (v : IcmpReg) : (s.setIcmp v).mem = s.mem := rfl
@[simp] theorem State.setIcmp_rx (v : IcmpReg) : (s.setIcmp v).rx = s.rx := rfl
@[simp] theorem State.setIcmp_sock (v : IcmpReg) : (s.setIcmp v).sock = s.sock := rfl
@[simp] theorem State.setIcmp_arp (v : IcmpReg) : (s.setIcmp v).arp = s.arp := rfl
@[simp] theorem State.setIcmp_tally (v : IcmpReg) : (s.setIcmp v).tally = s.tally := rfl
@[simp] theorem State.setIcmp_flt (v : IcmpReg) : (s.setIcmp v).flt = s.flt := rfl
@[simp] theorem State.setIcmp_lmac (v : IcmpReg) : (s.setIcmp v).lmac = s.lmac := rfl
@[simp] theorem State.setIcmp_ghost (v : IcmpReg) : (s.setIcmp v).ghost = s.ghost := rfl
@[simp] theorem State.setIcmp_link (v : IcmpReg) : (s.setIcmp v).link = s.link := rfl
@[simp] theorem State.setIcmp_trace (v : IcmpReg) : (s.setIcmp v).trace = s.trace := rfl
@[simp] theorem State.setIcmp_host (v : IcmpReg) : (s.setIcmp v).host = s.host := rfl
@[simp] theorem State.setIcmp_busy (v : IcmpReg) : (s.setIcmp v).busy = s.busy := rfl
@[simp] theorem State.setIcmp_reply (v : IcmpReg) : (s.setIcmp v).reply = s.reply := rfl

@[simp] theorem State.setAcc_eth (v : Nat) : (s.setAcc v).eth = s.eth := rfl
@[simp] theorem State.setAcc_ip4 (v : Nat) : (s.setAcc v).ip4 = s.ip4 := rfl
@[simp] theorem State.setAcc_icmp (v : Nat) : (s.setAcc v).icmp = s.icmp := rfl
@[simp] theorem State.setAcc_acc (v : Nat) : (s.setAcc v).acc = v := rfl
@[simp] theorem State.setAcc_mem (v : Nat) : (s.setAcc v).mem = s.mem := rfl
@[simp] theorem State.setAcc_rx (v : Nat) : (s.setAcc v).rx = s.rx := rfl
@[simp] theorem State.setAcc_sock (v : Nat) : (s.setAcc v).sock = s.sock := rfl
@[simp] theorem State.setAcc_arp (v : Nat) : (s.setAcc v).arp = s.arp := rfl
@[simp] theorem State.setAcc_tally (v : Nat) : (s.setAcc v).tally = s.tally := rfl
@[simp] theorem State.setAcc_flt (v : Nat) : (s.setAcc v).flt = s.flt := rfl
@[simp] theorem State.setAcc_lmac (v : Nat) : (s.setAcc v).lmac = s.lmac := rfl
@[simp] theorem State.setAcc_ghost (v : Nat) : (s.setAcc v).ghost = s.ghost := rfl
@[simp] theorem State.setAcc_link (v : Nat) : (s.setAcc v).link = s.link := rfl
@[simp] theorem State.setAcc_trace (v : Nat) : (s.setAcc v).trace = s.trace := rfl
@[simp] theorem State.setAcc_host (v : Nat) : (s.setAcc v).host = s.host := rfl
@[simp] theorem State.setAcc_busy (v : Nat) : (s.setAcc v).busy = s.busy := rfl
@[simp] theorem State.setAcc_reply (v : Nat) : (s.setAcc v).reply = s.reply := rfl

@[simp] theorem State.setMem_eth (v : Memory) : (s.setMem v).eth = s.eth := rfl
@[simp] theorem State.setMem_ip4 (v : Memory) : (s.setMem v).ip4 = s.ip4 := rfl
@[simp] theorem State.setMem_icmp (v : Memory) : (s.setMem v).icmp = s.icmp := rfl
@[simp] theorem State.setMem_acc (v : Memory) : (s.setMem v).acc = s.acc := rfl
@[simp] theorem State.setMem_mem (v : Memory) : (s.setMem v).mem = v := rfl
@[simp] theorem State.setMem_rx (v : Memory) : (s.setMem v).rx = s.rx := rfl
@[simp] theorem State.setMem_sock (v : Memory) : (s.setMem v).sock = s.sock := rfl
@[simp] theorem State.setMem_arp (v : Memory) : (s.setMem v).arp = s.arp := rfl
@[simp] theorem State.setMem_tally (v : Memory) : (s.setMem v).tally = s.tally := rfl
@[simp] theorem State.setMem_flt (v : Memory) : (s.setMem v).flt = s.flt := rfl
@[simp] theorem State.setMem_lmac (v : Memory) : (s.setMem v).lmac = s.lmac := rfl
@[simp] theorem State.setMem_ghost (v : Memory) : (s.setMem v).ghost = s.ghost := rfl
@[simp] theorem State.setMem_link (v : Memory) : (s.setMem v).link = s.link := rfl
@[simp] theorem State.setMem_trace (v : Memory) : (s.setMem v).trace = s.trace := rfl
@[simp] theorem State.setMem_host (v : Memory) : (s.setMem v).host = s.host := rfl
@[simp] theorem State.setMem_busy (v : Memory) : (s.setMem v).busy = s.busy := rfl
@[simp] theorem State.setMem_reply (v : Memory) : (s.setMem v).reply = s.reply := rfl

@[simp] theorem State.setRx_eth (v : RxReg) : (s.setRx v).eth = s.eth := rfl
@[simp] theorem State.setRx_ip4 (v : RxReg) : (s.setRx v).ip4 = s.ip4 := rfl
@[simp] theorem State.setRx_icmp (v : RxReg) : (s.setRx v).icmp = s.icmp := rfl
@[simp] theorem State.setRx_acc (v : RxReg) : (s.setRx v).acc = s.acc := rfl
@[simp] theorem State.setRx_mem (v : RxReg) : (s.setRx v).mem = s.mem := rfl
@[simp] theorem State.setRx_rx (v : RxReg) : (s.setRx v).rx = v := rfl
@[simp] theorem State.setRx_sock (v : RxReg) : (s.setRx v).sock = s.sock := rfl
@[simp] theorem State.setRx_arp (v : RxReg) : (s.setRx v).arp = s.arp := rfl
@[simp] theorem State.setRx_tally (v : RxReg) : (s.setRx v).tally = s.tally := rfl
@[simp] theorem State.setRx_flt (v : RxReg) : (s.setRx v).flt = s.flt := rfl
@[simp] theorem State.setRx_lmac (v : RxReg) : (s.setRx v).lmac = s.lmac := rfl
@[simp] theorem State.setRx_ghost (v : RxReg) : (s.setRx v).ghost = s.ghost := rfl
@[simp] theorem State.setRx_link (v : RxReg) : (s.setRx v).link = s.link := rfl
@[simp] theorem State.setRx_trace (v : RxReg) : (s.setRx v).trace = s.trace := rfl
@[simp] theorem State.setRx_host (v : RxReg) : (s.setRx v).host = s.host := rfl
@[simp] theorem State.setRx_busy (v : RxReg) : (s.setRx v).busy = s.busy := rfl
@[simp] theorem State.setRx_reply (v : RxReg) : (s.setRx v).reply = s.reply := rfl

@[simp] theorem State.setSock_eth (v : Vector SockSlot Config.nsock) : (s.setSock v).eth = s.eth := rfl
@[simp] theorem State.setSock_ip4 (v : Vector SockSlot Config.nsock) : (s.setSock v).ip4 = s.ip4 := rfl
@[simp] theorem State.setSock_icmp (v : Vector SockSlot Config.nsock) : (s.setSock v).icmp = s.icmp := rfl
@[simp] theorem State.setSock_acc (v : Vector SockSlot Config.nsock) : (s.setSock v).acc = s.acc := rfl
@[simp] theorem State.setSock_mem (v : Vector SockSlot Config.nsock) : (s.setSock v).mem = s.mem := rfl
@[simp] theorem State.setSock_rx (v : Vector SockSlot Config.nsock) : (s.setSock v).rx = s.rx := rfl
@[simp] theorem State.setSock_sock (v : Vector SockSlot Config.nsock) : (s.setSock v).sock = v := rfl
@[simp] theorem State.setSock_arp (v : Vector SockSlot Config.nsock) : (s.setSock v).arp = s.arp := rfl
@[simp] theorem State.setSock_tally (v : Vector SockSlot Config.nsock) : (s.setSock v).tally = s.tally := rfl
@[simp] theorem State.setSock_flt (v : Vector SockSlot Config.nsock) : (s.setSock v).flt = s.flt := rfl
@[simp] theorem State.setSock_lmac (v : Vector SockSlot Config.nsock) : (s.setSock v).lmac = s.lmac := rfl
@[simp] theorem State.setSock_ghost (v : Vector SockSlot Config.nsock) : (s.setSock v).ghost = s.ghost := rfl
@[simp] theorem State.setSock_link (v : Vector SockSlot Config.nsock) : (s.setSock v).link = s.link := rfl
@[simp] theorem State.setSock_trace (v : Vector SockSlot Config.nsock) : (s.setSock v).trace = s.trace := rfl
@[simp] theorem State.setSock_host (v : Vector SockSlot Config.nsock) : (s.setSock v).host = s.host := rfl
@[simp] theorem State.setSock_busy (v : Vector SockSlot Config.nsock) : (s.setSock v).busy = s.busy := rfl
@[simp] theorem State.setSock_reply (v : Vector SockSlot Config.nsock) : (s.setSock v).reply = s.reply := rfl

@[simp] theorem State.setArp_eth (v : ArpReg) : (s.setArp v).eth = s.eth := rfl
@[simp] theorem State.setArp_ip4 (v : ArpReg) : (s.setArp v).ip4 = s.ip4 := rfl
@[simp] theorem State.setArp_icmp (v : ArpReg) : (s.setArp v).icmp = s.icmp := rfl
@[simp] theorem State.setArp_acc (v : ArpReg) : (s.setArp v).acc = s.acc := rfl
@[simp] theorem State.setArp_mem (v : ArpReg) : (s.setArp v).mem = s.mem := rfl
@[simp] theorem State.setArp_rx (v : ArpReg) : (s.setArp v).rx = s.rx := rfl
@[simp] theorem State.setArp_sock (v : ArpReg) : (s.setArp v).sock = s.sock := rfl
@[simp] theorem State.setArp_arp (v : ArpReg) : (s.setArp v).arp = v := rfl
@[simp] theorem State.setArp_tally (v : ArpReg) : (s.setArp v).tally = s.tally := rfl
@[simp] theorem State.setArp_flt (v : ArpReg) : (s.setArp v).flt = s.flt := rfl
@[simp] theorem State.setArp_lmac (v : ArpReg) : (s.setArp v).lmac = s.lmac := rfl
@[simp] theorem State.setArp_ghost (v : ArpReg) : (s.setArp v).ghost = s.ghost := rfl
@[simp] theorem State.setArp_link (v : ArpReg) : (s.setArp v).link = s.link := rfl
@[simp] theorem State.setArp_trace (v : ArpReg) : (s.setArp v).trace = s.trace := rfl
@[simp] theorem State.setArp_host (v : ArpReg) : (s.setArp v).host = s.host := rfl
@[simp] theorem State.setArp_busy (v : ArpReg) : (s.setArp v).busy = s.busy := rfl
@[simp] theorem State.setArp_reply (v : ArpReg) : (s.setArp v).reply = s.reply := rfl

@[simp] theorem State.setTally_eth (v : Tally) : (s.setTally v).eth = s.eth := rfl
@[simp] theorem State.setTally_ip4 (v : Tally) : (s.setTally v).ip4 = s.ip4 := rfl
@[simp] theorem State.setTally_icmp (v : Tally) : (s.setTally v).icmp = s.icmp := rfl
@[simp] theorem State.setTally_acc (v : Tally) : (s.setTally v).acc = s.acc := rfl
@[simp] theorem State.setTally_mem (v : Tally) : (s.setTally v).mem = s.mem := rfl
@[simp] theorem State.setTally_rx (v : Tally) : (s.setTally v).rx = s.rx := rfl
@[simp] theorem State.setTally_sock (v : Tally) : (s.setTally v).sock = s.sock := rfl
@[simp] theorem State.setTally_arp (v : Tally) : (s.setTally v).arp = s.arp := rfl
@[simp] theorem State.setTally_tally (v : Tally) : (s.setTally v).tally = v := rfl
@[simp] theorem State.setTally_flt (v : Tally) : (s.setTally v).flt = s.flt := rfl
@[simp] theorem State.setTally_lmac (v : Tally) : (s.setTally v).lmac = s.lmac := rfl
@[simp] theorem State.setTally_ghost (v : Tally) : (s.setTally v).ghost = s.ghost := rfl
@[simp] theorem State.setTally_link (v : Tally) : (s.setTally v).link = s.link := rfl
@[simp] theorem State.setTally_trace (v : Tally) : (s.setTally v).trace = s.trace := rfl
@[simp] theorem State.setTally_host (v : Tally) : (s.setTally v).host = s.host := rfl
@[simp] theorem State.setTally_busy (v : Tally) : (s.setTally v).busy = s.busy := rfl
@[simp] theorem State.setTally_reply (v : Tally) : (s.setTally v).reply = s.reply := rfl

@[simp] theorem State.setFlt_eth (v : FltReg) : (s.setFlt v).eth = s.eth := rfl
@[simp] theorem State.setFlt_ip4 (v : FltReg) : (s.setFlt v).ip4 = s.ip4 := rfl
@[simp] theorem State.setFlt_icmp (v : FltReg) : (s.setFlt v).icmp = s.icmp := rfl
@[simp] theorem State.setFlt_acc (v : FltReg) : (s.setFlt v).acc = s.acc := rfl
@[simp] theorem State.setFlt_mem (v : FltReg) : (s.setFlt v).mem = s.mem := rfl
@[simp] theorem State.setFlt_rx (v : FltReg) : (s.setFlt v).rx = s.rx := rfl
@[simp] theorem State.setFlt_sock (v : FltReg) : (s.setFlt v).sock = s.sock := rfl
@[simp] theorem State.setFlt_arp (v : FltReg) : (s.setFlt v).arp = s.arp := rfl
@[simp] theorem State.setFlt_tally (v : FltReg) : (s.setFlt v).tally = s.tally := rfl
@[simp] theorem State.setFlt_flt (v : FltReg) : (s.setFlt v).flt = v := rfl
@[simp] theorem State.setFlt_lmac (v : FltReg) : (s.setFlt v).lmac = s.lmac := rfl
@[simp] theorem State.setFlt_ghost (v : FltReg) : (s.setFlt v).ghost = s.ghost := rfl
@[simp] theorem State.setFlt_link (v : FltReg) : (s.setFlt v).link = s.link := rfl
@[simp] theorem State.setFlt_trace (v : FltReg) : (s.setFlt v).trace = s.trace := rfl
@[simp] theorem State.setFlt_host (v : FltReg) : (s.setFlt v).host = s.host := rfl
@[simp] theorem State.setFlt_busy (v : FltReg) : (s.setFlt v).busy = s.busy := rfl
@[simp] theorem State.setFlt_reply (v : FltReg) : (s.setFlt v).reply = s.reply := rfl

@[simp] theorem State.setGhost_eth (v : Ghost) : (s.setGhost v).eth = s.eth := rfl
@[simp] theorem State.setGhost_ip4 (v : Ghost) : (s.setGhost v).ip4 = s.ip4 := rfl
@[simp] theorem State.setGhost_icmp (v : Ghost) : (s.setGhost v).icmp = s.icmp := rfl
@[simp] theorem State.setGhost_acc (v : Ghost) : (s.setGhost v).acc = s.acc := rfl
@[simp] theorem State.setGhost_mem (v : Ghost) : (s.setGhost v).mem = s.mem := rfl
@[simp] theorem State.setGhost_rx (v : Ghost) : (s.setGhost v).rx = s.rx := rfl
@[simp] theorem State.setGhost_sock (v : Ghost) : (s.setGhost v).sock = s.sock := rfl
@[simp] theorem State.setGhost_arp (v : Ghost) : (s.setGhost v).arp = s.arp := rfl
@[simp] theorem State.setGhost_tally (v : Ghost) : (s.setGhost v).tally = s.tally := rfl
@[simp] theorem State.setGhost_flt (v : Ghost) : (s.setGhost v).flt = s.flt := rfl
@[simp] theorem State.setGhost_lmac (v : Ghost) : (s.setGhost v).lmac = s.lmac := rfl
@[simp] theorem State.setGhost_ghost (v : Ghost) : (s.setGhost v).ghost = v := rfl
@[simp] theorem State.setGhost_link (v : Ghost) : (s.setGhost v).link = s.link := rfl
@[simp] theorem State.setGhost_trace (v : Ghost) : (s.setGhost v).trace = s.trace := rfl
@[simp] theorem State.setGhost_host (v : Ghost) : (s.setGhost v).host = s.host := rfl
@[simp] theorem State.setGhost_busy (v : Ghost) : (s.setGhost v).busy = s.busy := rfl
@[simp] theorem State.setGhost_reply (v : Ghost) : (s.setGhost v).reply = s.reply := rfl

@[simp] theorem State.setLink_eth (v : LinkEnv) : (s.setLink v).eth = s.eth := rfl
@[simp] theorem State.setLink_ip4 (v : LinkEnv) : (s.setLink v).ip4 = s.ip4 := rfl
@[simp] theorem State.setLink_icmp (v : LinkEnv) : (s.setLink v).icmp = s.icmp := rfl
@[simp] theorem State.setLink_acc (v : LinkEnv) : (s.setLink v).acc = s.acc := rfl
@[simp] theorem State.setLink_mem (v : LinkEnv) : (s.setLink v).mem = s.mem := rfl
@[simp] theorem State.setLink_rx (v : LinkEnv) : (s.setLink v).rx = s.rx := rfl
@[simp] theorem State.setLink_sock (v : LinkEnv) : (s.setLink v).sock = s.sock := rfl
@[simp] theorem State.setLink_arp (v : LinkEnv) : (s.setLink v).arp = s.arp := rfl
@[simp] theorem State.setLink_tally (v : LinkEnv) : (s.setLink v).tally = s.tally := rfl
@[simp] theorem State.setLink_flt (v : LinkEnv) : (s.setLink v).flt = s.flt := rfl
@[simp] theorem State.setLink_lmac (v : LinkEnv) : (s.setLink v).lmac = s.lmac := rfl
@[simp] theorem State.setLink_ghost (v : LinkEnv) : (s.setLink v).ghost = s.ghost := rfl
@[simp] theorem State.setLink_link (v : LinkEnv) : (s.setLink v).link = v := rfl
@[simp] theorem State.setLink_trace (v : LinkEnv) : (s.setLink v).trace = s.trace := rfl
@[simp] theorem State.setLink_host (v : LinkEnv) : (s.setLink v).host = s.host := rfl
@[simp] theorem State.setLink_busy (v : LinkEnv) : (s.setLink v).busy = s.busy := rfl
@[simp] theorem State.setLink_reply (v : LinkEnv) : (s.setLink v).reply = s.reply := rfl

@[simp] theorem State.setTrace_eth (v : List LinkEvent) : (s.setTrace v).eth = s.eth := rfl
@[simp] theorem State.setTrace_ip4 (v : List LinkEvent) : (s.setTrace v).ip4 = s.ip4 := rfl
@[simp] theorem State.setTrace_icmp (v : List LinkEvent) : (s.setTrace v).icmp = s.icmp := rfl
@[simp] theorem State.setTrace_acc (v : List LinkEvent) : (s.setTrace v).acc = s.acc := rfl
@[simp] theorem State.setTrace_mem (v : List LinkEvent) : (s.setTrace v).mem = s.mem := rfl
@[simp] theorem State.setTrace_rx (v : List LinkEvent) : (s.setTrace v).rx = s.rx := rfl
@[simp] theorem State.setTrace_sock (v : List LinkEvent) : (s.setTrace v).sock = s.sock := rfl
@[simp] theorem State.setTrace_arp (v : List LinkEvent) : (s.setTrace v).arp = s.arp := rfl
@[simp] theorem State.setTrace_tally (v : List LinkEvent) : (s.setTrace v).tally = s.tally := rfl
@[simp] theorem State.setTrace_flt (v : List LinkEvent) : (s.setTrace v).flt = s.flt := rfl
@[simp] theorem State.setTrace_lmac (v : List LinkEvent) : (s.setTrace v).lmac = s.lmac := rfl
@[simp] theorem State.setTrace_ghost (v : List LinkEvent) : (s.setTrace v).ghost = s.ghost := rfl
@[simp] theorem State.setTrace_link (v : List LinkEvent) : (s.setTrace v).link = s.link := rfl
@[simp] theorem State.setTrace_trace (v : List LinkEvent) : (s.setTrace v).trace = v := rfl
@[simp] theorem State.setTrace_host (v : List LinkEvent) : (s.setTrace v).host = s.host := rfl
@[simp] theorem State.setTrace_busy (v : List LinkEvent) : (s.setTrace v).busy = s.busy := rfl
@[simp] theorem State.setTrace_reply (v : List LinkEvent) : (s.setTrace v).reply = s.reply := rfl

@[simp] theorem State.setHost_eth (v : List HostInput) : (s.setHost v).eth = s.eth := rfl
@[simp] theorem State.setHost_ip4 (v : List HostInput) : (s.setHost v).ip4 = s.ip4 := rfl
@[simp] theorem State.setHost_icmp (v : List HostInput) : (s.setHost v).icmp = s.icmp := rfl
@[simp] theorem State.setHost_acc (v : List HostInput) : (s.setHost v).acc = s.acc := rfl
@[simp] theorem State.setHost_mem (v : List HostInput) : (s.setHost v).mem = s.mem := rfl
@[simp] theorem State.setHost_rx (v : List HostInput) : (s.setHost v).rx = s.rx := rfl
@[simp] theorem State.setHost_sock (v : List HostInput) : (s.setHost v).sock = s.sock := rfl
@[simp] theorem State.setHost_arp (v : List HostInput) : (s.setHost v).arp = s.arp := rfl
@[simp] theorem State.setHost_tally (v : List HostInput) : (s.setHost v).tally = s.tally := rfl
@[simp] theorem State.setHost_flt (v : List HostInput) : (s.setHost v).flt = s.flt := rfl
@[simp] theorem State.setHost_lmac (v : List HostInput) : (s.setHost v).lmac = s.lmac := rfl
@[simp] theorem State.setHost_ghost (v : List HostInput) : (s.setHost v).ghost = s.ghost := rfl
@[simp] theorem State.setHost_link (v : List HostInput) : (s.setHost v).link = s.link := rfl
@[simp] theorem State.setHost_trace (v : List HostInput) : (s.setHost v).trace = s.trace := rfl
@[simp] theorem State.setHost_host (v : List HostInput) : (s.setHost v).host = v := rfl
@[simp] theorem State.setHost_busy (v : List HostInput) : (s.setHost v).busy = s.busy := rfl
@[simp] theorem State.setHost_reply (v : List HostInput) : (s.setHost v).reply = s.reply := rfl

@[simp] theorem State.setBusy_eth (v : Option Instr) : (s.setBusy v).eth = s.eth := rfl
@[simp] theorem State.setBusy_ip4 (v : Option Instr) : (s.setBusy v).ip4 = s.ip4 := rfl
@[simp] theorem State.setBusy_icmp (v : Option Instr) : (s.setBusy v).icmp = s.icmp := rfl
@[simp] theorem State.setBusy_acc (v : Option Instr) : (s.setBusy v).acc = s.acc := rfl
@[simp] theorem State.setBusy_mem (v : Option Instr) : (s.setBusy v).mem = s.mem := rfl
@[simp] theorem State.setBusy_rx (v : Option Instr) : (s.setBusy v).rx = s.rx := rfl
@[simp] theorem State.setBusy_sock (v : Option Instr) : (s.setBusy v).sock = s.sock := rfl
@[simp] theorem State.setBusy_arp (v : Option Instr) : (s.setBusy v).arp = s.arp := rfl
@[simp] theorem State.setBusy_tally (v : Option Instr) : (s.setBusy v).tally = s.tally := rfl
@[simp] theorem State.setBusy_flt (v : Option Instr) : (s.setBusy v).flt = s.flt := rfl
@[simp] theorem State.setBusy_lmac (v : Option Instr) : (s.setBusy v).lmac = s.lmac := rfl
@[simp] theorem State.setBusy_ghost (v : Option Instr) : (s.setBusy v).ghost = s.ghost := rfl
@[simp] theorem State.setBusy_link (v : Option Instr) : (s.setBusy v).link = s.link := rfl
@[simp] theorem State.setBusy_trace (v : Option Instr) : (s.setBusy v).trace = s.trace := rfl
@[simp] theorem State.setBusy_host (v : Option Instr) : (s.setBusy v).host = s.host := rfl
@[simp] theorem State.setBusy_busy (v : Option Instr) : (s.setBusy v).busy = v := rfl
@[simp] theorem State.setBusy_reply (v : Option Instr) : (s.setBusy v).reply = s.reply := rfl

@[simp] theorem State.setReply_eth (v : Option Reply) : (s.setReply v).eth = s.eth := rfl
@[simp] theorem State.setReply_ip4 (v : Option Reply) : (s.setReply v).ip4 = s.ip4 := rfl
@[simp] theorem State.setReply_icmp (v : Option Reply) : (s.setReply v).icmp = s.icmp := rfl
@[simp] theorem State.setReply_acc (v : Option Reply) : (s.setReply v).acc = s.acc := rfl
@[simp] theorem State.setReply_mem (v : Option Reply) : (s.setReply v).mem = s.mem := rfl
@[simp] theorem State.setReply_rx (v : Option Reply) : (s.setReply v).rx = s.rx := rfl
@[simp] theorem State.setReply_sock (v : Option Reply) : (s.setReply v).sock = s.sock := rfl
@[simp] theorem State.setReply_arp (v : Option Reply) : (s.setReply v).arp = s.arp := rfl
@[simp] theorem State.setReply_tally (v : Option Reply) : (s.setReply v).tally = s.tally := rfl
@[simp] theorem State.setReply_flt (v : Option Reply) : (s.setReply v).flt = s.flt := rfl
@[simp] theorem State.setReply_lmac (v : Option Reply) : (s.setReply v).lmac = s.lmac := rfl
@[simp] theorem State.setReply_ghost (v : Option Reply) : (s.setReply v).ghost = s.ghost := rfl
@[simp] theorem State.setReply_link (v : Option Reply) : (s.setReply v).link = s.link := rfl
@[simp] theorem State.setReply_trace (v : Option Reply) : (s.setReply v).trace = s.trace := rfl
@[simp] theorem State.setReply_host (v : Option Reply) : (s.setReply v).host = s.host := rfl
@[simp] theorem State.setReply_busy (v : Option Reply) : (s.setReply v).busy = s.busy := rfl
@[simp] theorem State.setReply_reply (v : Option Reply) : (s.setReply v).reply = v := rfl

end Sys2Proof.Machine
end

