-- ==== Sys2Proof/Laws/Ops.lean ====
section
/-! SUPPORT. One lemma for each shared operation that says once what it can do; proofs about the meanings cite these and unfold
nothing. -/

namespace Sys2Proof.Machine

open Sys2Proof

/-! ### The end of an operation -/

@[simp] theorem raise_eq (s : State) (e : Status) : raise s e = .done s e .none := rfl

@[simp] theorem OpEnd.outcome_done (i : Instr) (s : State) (e : Status) (r : Result) :
    (OpEnd.done s e r).outcome i = .next (s.answered e r) := rfl

@[simp] theorem OpEnd.outcome_blocked (i : Instr) (s : State) : (OpEnd.blocked s).outcome i = .next (s.waiting i) := rfl

@[simp] theorem OpEnd.outcome_outOfBuffer (i : Instr) : OpEnd.outOfBuffer.outcome i = .fault .outOfBuffer := rfl

theorem OpEnd.outcome_eq_next {i : Instr} {r : OpEnd} {t : State} (h : r.outcome i = .next t) :
    (∃ s e res, r = .done s e res ∧ t = s.answered e res) ∨ ∃ s, r = .blocked s ∧ t = s.waiting i := by
  cases r with
  | done s e res => exact .inl ⟨s, e, res, rfl, by simpa using h.symm⟩
  | blocked s => exact .inr ⟨s, rfl, by simpa using h.symm⟩
  | outOfBuffer => simp at h

@[simp] theorem OpEnd.andThen_ok (s : State) (r : Result) (f : State → OpEnd) (g : State → Status → OpEnd) :
    (OpEnd.done s .ok r).andThen f g = f s := rfl

theorem OpEnd.andThen_err (s : State) {e : Status} (r : Result) (f : State → OpEnd) (g : State → Status → OpEnd)
    (h : e ≠ .ok) : (OpEnd.done s e r).andThen f g = g s e := by
  cases e <;> first | rfl | exact absurd rfl h

@[simp] theorem OpEnd.andThen_blocked (s : State) (f : State → OpEnd) (g : State → Status → OpEnd) :
    (OpEnd.blocked s).andThen f g = .blocked s := rfl

@[simp] theorem OpEnd.andThen_outOfBuffer (f : State → OpEnd) (g : State → Status → OpEnd) :
    OpEnd.outOfBuffer.andThen f g = .outOfBuffer := rfl

theorem OpEnd.andThen_cases (r : OpEnd) (f : State → OpEnd) (g : State → Status → OpEnd) :
    (∃ s res, r = .done s .ok res ∧ r.andThen f g = f s) ∨
      (∃ s e res, r = .done s e res ∧ e ≠ .ok ∧ r.andThen f g = g s e) ∨
      (∃ s, r = .blocked s ∧ r.andThen f g = .blocked s) ∨ r = .outOfBuffer ∧ r.andThen f g = .outOfBuffer := by
  cases r with
  | done s e res => cases e <;> simp [OpEnd.andThen]
  | blocked s => simp
  | outOfBuffer => simp

/-! ### The views of a state after each register write -/

section Views

variable (s : State)

@[simp] theorem State.answered_busy (e : Status) (r : Result) : (s.answered e r).busy = none := rfl
@[simp] theorem State.answered_reply (e : Status) (r : Result) : (s.answered e r).reply = some ⟨e, r⟩ := rfl
@[simp] theorem State.answered_eth (e : Status) (r : Result) : (s.answered e r).eth = s.eth := rfl
@[simp] theorem State.answered_ip4 (e : Status) (r : Result) : (s.answered e r).ip4 = s.ip4 := rfl
@[simp] theorem State.answered_icmp (e : Status) (r : Result) : (s.answered e r).icmp = s.icmp := rfl
@[simp] theorem State.answered_acc (e : Status) (r : Result) : (s.answered e r).acc = s.acc := rfl
@[simp] theorem State.answered_mem (e : Status) (r : Result) : (s.answered e r).mem = s.mem := rfl
@[simp] theorem State.answered_rx (e : Status) (r : Result) : (s.answered e r).rx = s.rx := rfl
@[simp] theorem State.answered_sock (e : Status) (r : Result) : (s.answered e r).sock = s.sock := rfl
@[simp] theorem State.answered_arp (e : Status) (r : Result) : (s.answered e r).arp = s.arp := rfl
@[simp] theorem State.answered_tally (e : Status) (r : Result) : (s.answered e r).tally = s.tally := rfl
@[simp] theorem State.answered_flt (e : Status) (r : Result) : (s.answered e r).flt = s.flt := rfl
@[simp] theorem State.answered_lmac (e : Status) (r : Result) : (s.answered e r).lmac = s.lmac := rfl
@[simp] theorem State.answered_ghost (e : Status) (r : Result) : (s.answered e r).ghost = s.ghost := rfl
@[simp] theorem State.answered_link (e : Status) (r : Result) : (s.answered e r).link = s.link := rfl
@[simp] theorem State.answered_trace (e : Status) (r : Result) : (s.answered e r).trace = s.trace := rfl
@[simp] theorem State.answered_host (e : Status) (r : Result) : (s.answered e r).host = s.host := rfl

@[simp] theorem State.waiting_busy (i : Instr) : (s.waiting i).busy = some i := rfl
@[simp] theorem State.waiting_reply (i : Instr) : (s.waiting i).reply = none := rfl
@[simp] theorem State.waiting_eth (i : Instr) : (s.waiting i).eth = s.eth := rfl
@[simp] theorem State.waiting_ip4 (i : Instr) : (s.waiting i).ip4 = s.ip4 := rfl
@[simp] theorem State.waiting_icmp (i : Instr) : (s.waiting i).icmp = s.icmp := rfl
@[simp] theorem State.waiting_acc (i : Instr) : (s.waiting i).acc = s.acc := rfl
@[simp] theorem State.waiting_mem (i : Instr) : (s.waiting i).mem = s.mem := rfl
@[simp] theorem State.waiting_rx (i : Instr) : (s.waiting i).rx = s.rx := rfl
@[simp] theorem State.waiting_sock (i : Instr) : (s.waiting i).sock = s.sock := rfl
@[simp] theorem State.waiting_arp (i : Instr) : (s.waiting i).arp = s.arp := rfl
@[simp] theorem State.waiting_tally (i : Instr) : (s.waiting i).tally = s.tally := rfl
@[simp] theorem State.waiting_flt (i : Instr) : (s.waiting i).flt = s.flt := rfl
@[simp] theorem State.waiting_lmac (i : Instr) : (s.waiting i).lmac = s.lmac := rfl
@[simp] theorem State.waiting_ghost (i : Instr) : (s.waiting i).ghost = s.ghost := rfl
@[simp] theorem State.waiting_link (i : Instr) : (s.waiting i).link = s.link := rfl
@[simp] theorem State.waiting_trace (i : Instr) : (s.waiting i).trace = s.trace := rfl
@[simp] theorem State.waiting_host (i : Instr) : (s.waiting i).host = s.host := rfl

end Views

/-! ### Reading the remainder -/

theorem State.remainder_eq {s : State} (h : s.rx.pos ≤ s.rxlen) : s.remainder = some (s.mem.rxb.drop s.rx.pos) := by
  have hle : s.rx.pos + (s.rxlen - s.rx.pos) ≤ (s.mem.buf .rxb).length := Nat.le_of_eq (Nat.add_sub_cancel' h)
  rw [State.remainder, Memory.memRead, if_pos hle, slice, List.take_of_length_le (by simp [State.rxlen]), Memory.buf_rxb]

theorem State.remainder_eq_none {s : State} (h : s.rxlen < s.rx.pos) : s.remainder = none := by
  have hlt : ¬ s.rx.pos + (s.rxlen - s.rx.pos) ≤ (s.mem.buf .rxb).length :=
    Nat.not_le.2 (Nat.lt_of_lt_of_le h (Nat.le_add_right _ _))
  rw [State.remainder, Memory.memRead, if_neg hlt]

theorem State.remainder_eq_some_iff {s : State} {b : List Byte} :
    s.remainder = some b ↔ s.rx.pos ≤ s.rxlen ∧ b = s.mem.rxb.drop s.rx.pos := by
  by_cases h : s.rx.pos ≤ s.rxlen
  · simp [State.remainder_eq h, h, eq_comm]
  · simp [State.remainder_eq_none (Nat.lt_of_not_le h), h]

/-- All that a decode bound to the cursor can do. -/
theorem decodeOp_cases {α : Type} (dec : List Byte → CodecResult α) (put : State → α → State) (res : α → Result) (s : State) :
    (s.rx.valid = false ∧ decodeOp dec put res s = raise s .eNoValue) ∨
    (s.rx.valid = true ∧ s.rxlen < s.rx.pos ∧ decodeOp dec put res s = .outOfBuffer) ∨
    (∃ e, s.rx.valid = true ∧ s.rx.pos ≤ s.rxlen ∧ dec (s.mem.rxb.drop s.rx.pos) = .err e ∧ decodeOp dec put res s = raise s e) ∨
    (∃ h rest, s.rx.valid = true ∧ s.rx.pos ≤ s.rxlen ∧ dec (s.mem.rxb.drop s.rx.pos) = .ok h rest ∧
      decodeOp dec put res s = .done ((put s h).setRx { s.rx with pos := s.rxlen - rest.length }) .ok (res h)) := by
  unfold decodeOp
  by_cases hv : s.rx.valid = false
  · exact .inl ⟨hv, if_pos hv⟩
  rw [if_neg hv]
  rw [Bool.not_eq_false] at hv
  by_cases hp : s.rx.pos ≤ s.rxlen
  · rw [State.remainder_eq hp]
    cases hd : dec (s.mem.rxb.drop s.rx.pos) with
    | err e => exact .inr (.inr (.inl ⟨e, hv, hp, rfl, by simp only [hd]⟩))
    | ok h rest => exact .inr (.inr (.inr ⟨h, rest, hv, hp, rfl, by simp only [hd]⟩))
  · rw [State.remainder_eq_none (by omega)]
    exact .inr (.inl ⟨hv, by omega, rfl⟩)

section Decode

variable {α : Type} {dec : List Byte → CodecResult α} {put : State → α → State} {res : α → Result} {s : State}

theorem decodeOp_noValue (h : s.rx.valid = false) : decodeOp dec put res s = raise s .eNoValue := if_pos h

theorem decodeOp_outside (hv : s.rx.valid = true) (hp : s.rxlen < s.rx.pos) : decodeOp dec put res s = .outOfBuffer := by
  simp [decodeOp, hv, State.remainder_eq_none hp]

theorem decodeOp_err {e : Status} (hv : s.rx.valid = true) (hp : s.rx.pos ≤ s.rxlen)
    (hd : dec (s.mem.rxb.drop s.rx.pos) = .err e) : decodeOp dec put res s = raise s e := by
  simp [decodeOp, hv, State.remainder_eq hp, hd]

/-- A decode that succeeds and leaves all but its first `n` bytes moves the cursor by `n`. -/
theorem decodeOp_ok {h : α} {n : Nat} (hv : s.rx.valid = true) (hp : s.rx.pos + n ≤ s.rxlen)
    (hd : dec (s.mem.rxb.drop s.rx.pos) = .ok h ((s.mem.rxb.drop s.rx.pos).drop n)) :
    decodeOp dec put res s = .done ((put s h).setRx { s.rx with pos := s.rx.pos + n }) .ok (res h) := by
  have : s.rxlen - ((s.mem.rxb.drop s.rx.pos).drop n).length = s.rx.pos + n := by
    simp only [List.length_drop, State.rxlen] at *
    omega
  simp only [decodeOp, hv, State.remainder_eq (Nat.le_trans (Nat.le_add_right _ n) hp), hd, this, Bool.true_eq_false, if_false]

end Decode

/-! ### Writing the transmit buffer -/

/-- The state with bytes appended to `TXB`. -/
def State.appended (s : State) (data : List Byte) : State := { s with mem := { s.mem with txb := s.mem.txb ++ data } }

theorem appendTx_fits {s : State} {data : List Byte} (h : s.txlen + data.length ≤ Config.txCap) :
    appendTx s data = .done (s.appended data) .ok .none := by
  have := Memory.memWrite_end s.mem .txb data
  rw [appendTx, if_neg (Nat.not_lt.2 h)]
  simp only [State.txlen, Memory.buf_txb] at *
  rw [this]; rfl

theorem appendTx_full {s : State} {data : List Byte} (h : Config.txCap < s.txlen + data.length) :
    appendTx s data = raise s .eInval := if_pos h

/-- All that an append can do. -/
theorem appendTx_cases (s : State) (data : List Byte) :
    (Config.txCap < s.txlen + data.length ∧ appendTx s data = raise s .eInval) ∨
    (s.txlen + data.length ≤ Config.txCap ∧ appendTx s data = .done (s.appended data) .ok .none) := by
  by_cases h : s.txlen + data.length ≤ Config.txCap
  · exact .inr ⟨h, appendTx_fits h⟩
  · exact .inl ⟨by omega, appendTx_full (by omega)⟩

/-- All that an encode bound to `TXB` can do. -/
theorem encodeOp_cases (valid : Bool) (bytes : List Byte) (s : State) :
    (valid = false ∧ encodeOp valid bytes s = raise s .eNoValue) ∨
    (valid = true ∧ Config.txCap < s.txlen + bytes.length ∧ encodeOp valid bytes s = raise s .eInval) ∨
    (valid = true ∧ s.txlen + bytes.length ≤ Config.txCap ∧ encodeOp valid bytes s = .done (s.appended bytes) .ok .none) := by
  cases valid with
  | false => exact .inl ⟨rfl, rfl⟩
  | true =>
    rcases appendTx_cases s bytes with ⟨h, e⟩ | ⟨h, e⟩
    · exact .inr (.inl ⟨rfl, h, by simpa [encodeOp] using e⟩)
    · exact .inr (.inr ⟨rfl, h, by simpa [encodeOp] using e⟩)

/-! ### Sockets -/

theorem State.openSlot_eq_some_iff {s : State} {k : Nat} {slot : SockSlot} :
    s.openSlot k = some slot ↔ ∃ h : k < Config.nsock, s.sock[k] = slot ∧ slot.isOpen = true := by
  unfold State.openSlot
  by_cases h : k < Config.nsock
  · simp only [dif_pos h]
    constructor
    · intro e
      split at e
      · obtain rfl : s.sock[k] = slot := by simpa using e
        exact ⟨h, rfl, by assumption⟩
      · simp at e
    · rintro ⟨_, rfl, ho⟩
      simp [ho]
  · simp [h]

theorem State.openSlot_congr {s t : State} (h : t.sock = s.sock) (k : Nat) : t.openSlot k = s.openSlot k := by
  simp only [State.openSlot, h]

theorem State.openSlot_isSome_lt {s : State} {k : Nat} (h : (s.openSlot k).isSome = true) : k < Config.nsock := by
  obtain ⟨slot, e⟩ := Option.isSome_iff_exists.1 h
  exact (State.openSlot_eq_some_iff.1 e).1

theorem State.reset_openSlot (k : Nat) : State.reset.openSlot k = none := by
  unfold State.openSlot
  split
  · simp [State.reset]
  · rfl

/-- All that `SOCK.OPEN` makes of the slots when the link answers `ok`. -/
theorem slotsAfterOpen_ok {k : Nat} (h : k < Config.nsock) (flt : EtherFilter) (cap : Nat) (v : Vector SockSlot Config.nsock) :
    slotsAfterOpen .ok k flt cap v = v.set k ⟨true, flt, cap⟩ h := by
  simp [slotsAfterOpen, Vector.setIfInBounds, Vector.set, Array.setIfInBounds, h]

/-! ### The link -/

/-- The state after one answer of the link to `LinkOpen` or `LinkSend`: the script `open_` or `send` left, the counter, the record. -/
def State.afterAck (s : State) (openAcks sendAcks : List LinkAck) (draws : Nat) (ev : LinkEvent) : State :=
  { s with link := { s.link with openAcks := openAcks, sendAcks := sendAcks, draws := draws }, trace := s.trace ++ [ev] }

/-- All that `LinkOpen` can do. -/
theorem linkOpen_cases (s : State) (k : Nat) (flt : EtherFilter) :
    (∃ a rest, s.link.openAcks = a :: rest ∧
      linkOpen s k flt = (a, s.afterAck rest s.link.sendAcks s.link.draws (.opened k flt a))) ∨
    (s.link.openAcks = [] ∧ ∃ a, linkOpen s k flt = (a, s.afterAck [] s.link.sendAcks (s.link.draws + 1) (.opened k flt a))) := by
  rcases s with ⟨_, _, _, _, _, _, _, _, _, _, _, _, ⟨_ | ⟨a, rest⟩, _, _, _, _⟩, _, _, _, _⟩
  · exact .inr ⟨rfl, _, rfl⟩
  · exact .inl ⟨a, rest, rfl, rfl⟩

/-- All that `LinkSend` can do. -/
theorem linkSend_cases (s : State) (k : Nat) (frame : List Byte) (dest : LinkAddr) :
    (∃ a rest, s.link.sendAcks = a :: rest ∧
      linkSend s k frame dest = (a, s.afterAck s.link.openAcks rest s.link.draws (.sent k frame dest a))) ∨
    (s.link.sendAcks = [] ∧
      ∃ a, linkSend s k frame dest = (a, s.afterAck s.link.openAcks [] (s.link.draws + 1) (.sent k frame dest a))) := by
  rcases s with ⟨_, _, _, _, _, _, _, _, _, _, _, _, ⟨_, _ | ⟨a, rest⟩, _, _, _⟩, _, _, _, _⟩
  · exact .inr ⟨rfl, _, rfl⟩
  · exact .inl ⟨a, rest, rfl, rfl⟩

@[simp] theorem ackStatus_ok : ackStatus .ok = .ok := rfl
@[simp] theorem ackStatus_fail : ackStatus .fail = .eIo := rfl

theorem ackStatus_eq (a : LinkAck) : ackStatus a = if a = .ok then .ok else .eIo := by cases a <;> rfl

/-! ### A receive -/

/-- What the link has ready comes from its scripts, or is a free answer. -/
theorem LinkEnv.offers_cases (l : LinkEnv) :
    (l.inbound ≠ [] ∧ l.offers = l.inbound ∧ l.drawsAfter = l.draws) ∨
      (l.inbound = [] ∧ l.cycle ≠ [] ∧ l.offers = l.cycle ∧ l.drawsAfter = l.draws) ∨
      l.inbound = [] ∧ l.cycle = [] ∧ l.offers = [Config.recvAnswer l.draws] ∧ l.drawsAfter = l.draws + 1 := by
  rcases l with ⟨_, _, _ | ⟨a, i⟩, _ | ⟨b, c⟩, d⟩ <;> simp [LinkEnv.offers, LinkEnv.drawsAfter]

theorem LinkEnv.offers_ne_nil (l : LinkEnv) : l.offers ≠ [] := by
  rcases l.offers_cases with ⟨h, e, -⟩ | ⟨-, h, e, -⟩ | ⟨-, -, e, -⟩ <;> simp [*]

theorem LinkEnv.offers_mem {l : LinkEnv} (h : l.cycle ≠ []) {a : RecvAnswer} (ha : a ∈ l.offers) : a ∈ l.inbound ++ l.cycle := by
  rcases l.offers_cases with ⟨-, e, -⟩ | ⟨-, -, e, -⟩ | ⟨-, h', -⟩
  · exact List.mem_append_left _ (e ▸ ha)
  · exact List.mem_append_right _ (e ▸ ha)
  · exact absurd h' h

/-- A free answer has an index of its width (log 10). -/
theorem recvAnswer_fits {n : Nat} {f : List Byte} {src : LinkAddr} (h : Config.recvAnswer n = .frame f src) : src.wf = true := by
  unfold Config.recvAnswer RecvAnswer.fit at h
  split at h <;> simp only [RecvAnswer.frame.injEq, reduceCtorEq] at h
  obtain ⟨-, rfl⟩ := h
  rename_i w _
  by_cases h0 : w.ifindex % 2 ^ Config.ifindexW = 0
  · simp [LinkAddr.wf, ifindexFits, h0]
  · have hlt := (Nat.log2_lt h0).2 (Nat.mod_lt w.ifindex (Nat.two_pow_pos Config.ifindexW))
    simp [LinkAddr.wf, ifindexFits, hlt]

/-- When the frames of the scripts have indexes of their width, so has every frame the link has ready. -/
theorem LinkEnv.offers_fit {l : LinkEnv} (h : ∀ f src, RecvAnswer.frame f src ∈ l.inbound ++ l.cycle → src.wf = true) {f : List Byte}
    {src : LinkAddr} (hf : RecvAnswer.frame f src ∈ l.offers) : src.wf = true := by
  rcases l.offers_cases with ⟨-, e, -⟩ | ⟨-, -, e, -⟩ | ⟨-, -, e, -⟩ <;> rw [e] at hf
  · exact h f src (List.mem_append_left _ hf)
  · exact h f src (List.mem_append_right _ hf)
  · exact recvAnswer_fits (List.mem_singleton.1 hf).symm

theorem scanInbound_append {flt : EtherFilter} {dropped : List RecvAnswer} (h : allDropped flt dropped) (tail : List RecvAnswer) :
    scanInbound flt (dropped ++ tail) =
      ⟨(scanInbound flt tail).verdict, dropped ++ (scanInbound flt tail).used, (scanInbound flt tail).rest⟩ := by
  induction dropped with
  | nil => simp
  | cons a l ih =>
    obtain ⟨g, src, rfl, hp⟩ := h a (by simp)
    rw [List.cons_append, scanInbound, if_neg (by simp [hp]), ih fun b hb => h b (by simp [hb])]
    rfl

/-- The ways a script of answers can go: nothing but dropped frames, or after them silence, a failure, or a frame that passes. -/
theorem inbound_cases (flt : EtherFilter) (answers : List RecvAnswer) :
    (∃ dropped rest, allDropped flt dropped ∧ (answers = dropped ++ .silence :: rest ∨ answers = dropped ∧ rest = [])) ∨
    (∃ dropped rest, allDropped flt dropped ∧ answers = dropped ++ .fail :: rest) ∨
    (∃ dropped f src rest, allDropped flt dropped ∧ passes flt f = true ∧ answers = dropped ++ .frame f src :: rest) := by
  induction answers with
  | nil => exact .inl ⟨[], [], by simp [allDropped], .inr ⟨rfl, rfl⟩⟩
  | cons a l ih =>
    cases a with
    | silence => exact .inl ⟨[], l, by simp [allDropped], .inl rfl⟩
    | fail => exact .inr (.inl ⟨[], l, by simp [allDropped], rfl⟩)
    | frame f src =>
      by_cases hp : passes flt f = true
      · exact .inr (.inr ⟨[], f, src, l, by simp [allDropped], hp, rfl⟩)
      · have hd : ∀ {d}, allDropped flt d → allDropped flt (.frame f src :: d) := by
          intro d hd a ha
          rcases List.mem_cons.1 ha with rfl | ha
          · exact ⟨f, src, rfl, by simpa using hp⟩
          · exact hd a ha
        rcases ih with ⟨d, r, h, e⟩ | ⟨d, r, h, rfl⟩ | ⟨d, g, src', r, h, hg, rfl⟩
        · refine .inl ⟨_, r, hd h, ?_⟩
          rcases e with rfl | ⟨rfl, rfl⟩
          · exact .inl rfl
          · exact .inr ⟨rfl, rfl⟩
        · exact .inr (.inl ⟨_, r, hd h, rfl⟩)
        · exact .inr (.inr ⟨_, g, src', r, hd h, hg, rfl⟩)

/-- A slot that is open settles what a receive on it comes to. -/
theorem State.receive_settled {s : State} {k : Nat} {slot : SockSlot} (h : s.openSlot k = some slot) :
    (∃ dropped rest, s.NoAnswer k slot dropped rest) ∨ (∃ dropped rest, s.LinkFails k slot dropped rest) ∨
      ∃ dropped f src rest, s.Delivers k slot dropped f src rest := by
  rcases inbound_cases slot.filter s.link.offers with ⟨d, r, hd, e⟩ | ⟨d, r, hd, e⟩ | ⟨d, f, src, r, hd, hp, e⟩
  · exact .inl ⟨d, r, h, e, hd⟩
  · exact .inr (.inl ⟨d, r, h, e, hd⟩)
  · exact .inr (.inr ⟨d, f, src, r, h, e, hd, hp⟩)

theorem receive_closed {s : State} {k : Nat} (h : (s.openSlot k).isSome = false) : receive k s = raise s .eInval := by
  rw [Option.isSome_eq_false_iff, Option.isNone_iff_eq_none] at h
  simp [receive, h]

theorem receive_noAnswer {s : State} {k : Nat} {slot : SockSlot} {dropped rest : List RecvAnswer}
    (h : s.NoAnswer k slot dropped rest) : receive k s = .blocked (s.afterAnswers k dropped rest) := by
  have hs : scanInbound slot.filter s.link.offers = ⟨.blocked, dropped, rest⟩ := by
    rcases h.script with e | ⟨e, rfl⟩
    · simp [e, scanInbound_append h.dropped, scanInbound]
    · simpa [e, scanInbound] using scanInbound_append h.dropped []
  simp only [receive, h.slotOpen, hs]
  rfl

theorem receive_linkFails {s : State} {k : Nat} {slot : SockSlot} {dropped rest : List RecvAnswer}
    (h : s.LinkFails k slot dropped rest) : receive k s = raise (s.afterAnswers k (dropped ++ [.fail]) rest) .eIo := by
  simp only [receive, h.slotOpen, h.script, scanInbound_append h.dropped, scanInbound]
  rfl

theorem receive_delivers {s : State} {k : Nat} {slot : SockSlot} {dropped : List RecvAnswer} {f : List Byte} {src : LinkAddr}
    {rest : List RecvAnswer} (h : s.Delivers k slot dropped f src rest) :
    receive k s = .done ((s.afterAnswers k (dropped ++ [.frame f src]) rest).captured f slot.cap src) .ok
      (.recv (min f.length slot.cap) src) := by
  have ht : f.take (min f.length slot.cap) = f.take slot.cap := by
    rw [Nat.min_comm, List.take_eq_take_min (i := slot.cap)]
  simp only [receive, h.slotOpen, h.script, scanInbound_append h.dropped, scanInbound, h.passes, if_true, ht,
    Memory.overwrite_eq]
  rfl

/-- All that a receive can do. -/
theorem receive_cases (k : Nat) (s : State) :
    ((s.openSlot k).isSome = false ∧ receive k s = raise s .eInval) ∨
    (∃ slot dropped rest, s.NoAnswer k slot dropped rest ∧ receive k s = .blocked (s.afterAnswers k dropped rest)) ∨
    (∃ slot dropped rest, s.LinkFails k slot dropped rest ∧
      receive k s = raise (s.afterAnswers k (dropped ++ [.fail]) rest) .eIo) ∨
    (∃ slot dropped f src rest, s.Delivers k slot dropped f src rest ∧
      receive k s = .done ((s.afterAnswers k (dropped ++ [.frame f src]) rest).captured f slot.cap src) .ok
        (.recv (min f.length slot.cap) src)) := by
  cases ho : s.openSlot k with
  | none => exact .inl ⟨rfl, receive_closed (by simp [ho])⟩
  | some slot =>
    rcases State.receive_settled ho with ⟨d, r, h⟩ | ⟨d, r, h⟩ | ⟨d, f, src, r, h⟩
    · exact .inr (.inl ⟨slot, d, r, h, receive_noAnswer h⟩)
    · exact .inr (.inr (.inl ⟨slot, d, r, h, receive_linkFails h⟩))
    · exact .inr (.inr (.inr ⟨slot, d, f, src, r, h, receive_delivers h⟩))

/-! ### A link that never gives what a receive waits for -/

/-- Whatever one receive leaves of a link's scripts, the rest of them is still drawn from the same answers. -/
theorem LinkEnv.left_mem {l : LinkEnv} (hc : l.cycle ≠ []) {used rest : List RecvAnswer} (h : l.offers = used ++ rest) {a : RecvAnswer}
    (ha : a ∈ rest ++ l.cycle) : a ∈ l.inbound ++ l.cycle := by
  rcases List.mem_append.1 ha with ha | ha
  · exact LinkEnv.offers_mem hc (h ▸ List.mem_append_right _ ha)
  · exact List.mem_append_right _ ha

/-- A receive over a link that never brings a passing frame waits, and the link it leaves never brings one either. -/
theorem LinkEnv.NeverPasses.waits {s : State} {k : Nat} {slot : SockSlot} (ho : s.openSlot k = some slot)
    (h : s.link.NeverPasses slot.filter) :
    ∃ dropped rest, s.NoAnswer k slot dropped rest ∧ (s.afterAnswers k dropped rest).link.NeverPasses slot.filter := by
  have away : ∀ {a}, a ∈ s.link.offers → a = .silence ∨ ∃ f src, a = .frame f src ∧ passes slot.filter f = false :=
    fun ha => h.foreign _ (LinkEnv.offers_mem h.goesOn ha)
  rcases State.receive_settled ho with ⟨d, r, hn⟩ | ⟨d, r, hn⟩ | ⟨d, f, src, r, hn⟩
  · refine ⟨d, r, hn, h.goesOn, fun a ha => h.foreign a ?_⟩
    rcases hn.script with e | ⟨e, rfl⟩
    · rw [List.append_cons] at e
      exact LinkEnv.left_mem h.goesOn e ha
    · exact LinkEnv.left_mem h.goesOn (e.trans (List.append_nil d).symm) ha
  · rcases away (a := .fail) (by simp [hn.script]) with e | ⟨_, _, e, _⟩ <;> cases e
  · rcases away (a := .frame f src) (by simp [hn.script]) with e | ⟨_, _, e, hp⟩ <;> cases e
    rw [hn.passes] at hp
    cases hp

/-- A receive over a link that never brings an ARP reply waits or captures a frame that is none, and the link it leaves never brings one
either. -/
theorem LinkEnv.NeverReplies.receives {s : State} {k : Nat} {slot : SockSlot} (ho : s.openSlot k = some slot)
    (h : s.link.NeverReplies slot) :
    (∃ dropped rest, s.NoAnswer k slot dropped rest ∧ (s.afterAnswers k dropped rest).link.NeverReplies slot) ∨
    ∃ dropped f src rest, s.Delivers k slot dropped f src rest ∧ arpMatch (f.take slot.cap) = false ∧
      (s.afterAnswers k (dropped ++ [.frame f src]) rest).link.NeverReplies slot := by
  have away : ∀ {a}, a ∈ s.link.offers →
      a = .silence ∨ ∃ f src, a = .frame f src ∧ (passes slot.filter f = true → arpMatch (f.take slot.cap) = false) :=
    fun ha => h.foreign _ (LinkEnv.offers_mem h.goesOn ha)
  rcases State.receive_settled ho with ⟨d, r, hn⟩ | ⟨d, r, hn⟩ | ⟨d, f, src, r, hn⟩
  · refine .inl ⟨d, r, hn, h.goesOn, fun a ha => h.foreign a ?_⟩
    rcases hn.script with e | ⟨e, rfl⟩
    · rw [List.append_cons] at e
      exact LinkEnv.left_mem h.goesOn e ha
    · exact LinkEnv.left_mem h.goesOn (e.trans (List.append_nil d).symm) ha
  · rcases away (a := .fail) (by simp [hn.script]) with e | ⟨_, _, e, _⟩ <;> cases e
  · rcases away (a := .frame f src) (by simp [hn.script]) with e | ⟨_, _, e, hm⟩ <;> cases e
    exact .inr ⟨d, f, src, r, hn, hm hn.passes, h.goesOn, fun a ha =>
      h.foreign a (LinkEnv.left_mem h.goesOn (hn.script.trans (List.append_cons d _ r)) ha)⟩

end Sys2Proof.Machine
end

