-- ==== Sys2Proof/Laws/Meanings.lean ====
section
/-! SUPPORT. For each compound operation one lemma that says once what it can do. -/

namespace Sys2Proof.Machine

open Sys2Proof

/-- All that a setter of the builder can do. -/
theorem ipSetter_cases (f : Ip4Header → Ip4Header) (s : State) :
    (s.ip4.valid = false ∧ ipSetter f s = raise s .eNoValue) ∨
    (s.ip4.valid = true ∧ ipSetter f s = .done (s.putIp4 (f s.ip4.hdr)) .ok .none) := by
  cases h : s.ip4.valid <;> simp [ipSetter, h]

/-- All that `IP.LOAD` can do. -/
theorem ipLoadOp_cases (h : Ip4Header) (s : State) :
    (h.wf = true ∧ ipLoadOp h s = .done (s.putIp4 h) .ok .none) ∨ (h.wf = false ∧ ipLoadOp h s = raise s .eInval) := by
  have hw := h.wf_iff
  unfold ipLoadOp
  split
  · exact .inr ⟨by rw [← Bool.not_eq_true, hw]; omega, rfl⟩
  split
  · exact .inr ⟨by rw [← Bool.not_eq_true, hw]; omega, rfl⟩
  split
  · exact .inr ⟨by rw [← Bool.not_eq_true, hw]; omega, rfl⟩
  · exact .inl ⟨by rw [hw]; omega, rfl⟩

/-- What an IPv4 decode that succeeds yields is a valid header, and it consumed the header's bytes. -/
theorem ipDecode_wf {b r : List Byte} {h : Ip4Header} (hd : ipDecode b = .ok h r) :
    h.wf = true ∧ h.hlen ≤ b.length ∧ r = b.drop h.hlen := by
  obtain ⟨h1, h2, h3, h4, rfl, rfl⟩ := ipDecode_eq_ok_iff.1 hd
  have hl := ipFixedFields_hlen b
  refine ⟨?_, h4, rfl⟩
  simp [Ip4Header.wf]
  omega

/-- What an ICMP decode that succeeds yields is a valid header, and it consumed the header's bytes. -/
theorem icmpDecode_wf {b r : List Byte} {h : IcmpHeader} (hd : icmpDecode b = .ok h r) :
    h.wf = true ∧ ∃ n, n ≤ b.length ∧ r = b.drop n := by
  rcases icmpDecode_eq_ok_iff.1 hd with ⟨hp, hl, rfl, rfl⟩ | ⟨hp, hl, rfl, rfl⟩
  · exact ⟨by simp [IcmpHeader.wf, hp], 8, hl, rfl⟩
  · exact ⟨by simp [IcmpHeader.wf], 4, hl, rfl⟩

theorem ethDecode_err {b : List Byte} {e : Status} (h : ethDecode b = .err e) : e = .eTrunc ∧ b.length < 14 := by
  unfold ethDecode at h
  split at h
  · rename_i hl
    exact ⟨by simpa using h.symm, hl⟩
  · simp at h

theorem ipDecode_err {b : List Byte} {e : Status} (h : ipDecode b = .err e) : e = .eTrunc ∨ e = .eInval := by
  unfold ipDecode at h
  split at h
  · exact .inl (by simpa using h.symm)
  dsimp only at h
  split at h
  · exact .inr (by simpa using h.symm)
  split at h
  · exact .inr (by simpa using h.symm)
  split at h
  · exact .inl (by simpa using h.symm)
  · simp at h

theorem icmpDecode_err {b : List Byte} {e : Status} (h : icmpDecode b = .err e) : e = .eTrunc := by
  unfold icmpDecode at h
  split at h
  · simpa using h.symm
  split at h
  · split at h
    · simpa using h.symm
    · simp at h
  · simp at h

/-- All that `ETH.DEC` can do. -/
theorem ethDecOp_cases (s : State) :
    (s.rx.valid = false ∧ ethDecOp s = raise s .eNoValue) ∨
    (s.rx.valid = true ∧ s.rxlen < s.rx.pos ∧ ethDecOp s = .outOfBuffer) ∨
    (s.rx.valid = true ∧ s.rx.pos ≤ s.rxlen ∧ (s.mem.rxb.drop s.rx.pos).length < 14 ∧ ethDecOp s = raise s .eTrunc) ∨
    (∃ h, s.rx.valid = true ∧ s.rx.pos + 14 ≤ s.rxlen ∧
      ethDecode (s.mem.rxb.drop s.rx.pos) = .ok h (s.mem.rxb.drop (s.rx.pos + 14)) ∧
      ethDecOp s = .done ((s.setEth ⟨true, h⟩).setRx { s.rx with pos := s.rx.pos + 14 }) .ok (.eth h)) := by
  rcases decodeOp_cases ethDecode (fun s h => s.setEth ⟨true, h⟩) .eth s with
    ⟨h, e⟩ | ⟨h, h', e⟩ | ⟨err, h, h', hd, e⟩ | ⟨hdr, r, h, h', hd, -⟩
  · exact .inl ⟨h, e⟩
  · exact .inr (.inl ⟨h, h', e⟩)
  · obtain ⟨rfl, hl⟩ := ethDecode_err hd
    exact .inr (.inr (.inl ⟨h, h', hl, e⟩))
  · obtain ⟨hl, rfl, rfl⟩ := ethDecode_eq_ok_iff.1 hd
    have hle : s.rx.pos + 14 ≤ s.rxlen := by
      simp only [List.length_drop, State.rxlen] at *
      omega
    refine .inr (.inr (.inr ⟨_, h, hle, ?_, decodeOp_ok h hle hd⟩))
    rw [hd, List.drop_drop]

/-- All that `IP.DEC` can do. -/
theorem ipDecOp_cases (s : State) :
    (s.rx.valid = false ∧ ipDecOp s = raise s .eNoValue) ∨
    (s.rx.valid = true ∧ s.rxlen < s.rx.pos ∧ ipDecOp s = .outOfBuffer) ∨
    (∃ e, s.rx.valid = true ∧ s.rx.pos ≤ s.rxlen ∧ ipDecode (s.mem.rxb.drop s.rx.pos) = .err e ∧ ipDecOp s = raise s e) ∨
    (∃ h, s.rx.valid = true ∧ h.wf = true ∧ s.rx.pos + h.hlen ≤ s.rxlen ∧
      ipDecode (s.mem.rxb.drop s.rx.pos) = .ok h (s.mem.rxb.drop (s.rx.pos + h.hlen)) ∧
      ipDecOp s = .done ((s.putIp4 h).setRx { s.rx with pos := s.rx.pos + h.hlen }) .ok (.ip4 h)) := by
  rcases decodeOp_cases ipDecode State.putIp4 .ip4 s with
    ⟨h, e⟩ | ⟨h, h', e⟩ | ⟨err, h, h', hd, e⟩ | ⟨hdr, r, h, h', hd, -⟩
  · exact .inl ⟨h, e⟩
  · exact .inr (.inl ⟨h, h', e⟩)
  · exact .inr (.inr (.inl ⟨err, h, h', hd, e⟩))
  · obtain ⟨hw, hl, rfl⟩ := ipDecode_wf hd
    have hle : s.rx.pos + hdr.hlen ≤ s.rxlen := by
      simp only [List.length_drop, State.rxlen] at *
      omega
    refine .inr (.inr (.inr ⟨_, h, hw, hle, ?_, decodeOp_ok h hle hd⟩))
    rw [hd, List.drop_drop]

/-- All that `ICMP.DEC` can do. -/
theorem icmpDecOp_cases (s : State) :
    let op := decodeOp icmpDecode State.putIcmp .icmp s
    (s.rx.valid = false ∧ op = raise s .eNoValue) ∨
    (s.rx.valid = true ∧ s.rxlen < s.rx.pos ∧ op = .outOfBuffer) ∨
    (s.rx.valid = true ∧ s.rx.pos ≤ s.rxlen ∧ icmpDecode (s.mem.rxb.drop s.rx.pos) = .err .eTrunc ∧ op = raise s .eTrunc) ∨
    (∃ h n, s.rx.valid = true ∧ h.wf = true ∧ s.rx.pos + n ≤ s.rxlen ∧
      icmpDecode (s.mem.rxb.drop s.rx.pos) = .ok h (s.mem.rxb.drop (s.rx.pos + n)) ∧
      op = .done ((s.putIcmp h).setRx { s.rx with pos := s.rx.pos + n }) .ok (.icmp h)) := by
  rcases decodeOp_cases icmpDecode State.putIcmp .icmp s with
    ⟨h, e⟩ | ⟨h, h', e⟩ | ⟨err, h, h', hd, e⟩ | ⟨hdr, r, h, h', hd, -⟩
  · exact .inl ⟨h, e⟩
  · exact .inr (.inl ⟨h, h', e⟩)
  · obtain rfl := icmpDecode_err hd
    exact .inr (.inr (.inl ⟨h, h', hd, e⟩))
  · obtain ⟨hw, n, hl, rfl⟩ := icmpDecode_wf hd
    have hle : s.rx.pos + n ≤ s.rxlen := by
      simp only [List.length_drop, State.rxlen] at *
      omega
    refine .inr (.inr (.inr ⟨_, n, h, hw, hle, ?_, decodeOp_ok h hle hd⟩))
    rw [hd, List.drop_drop]

/-! ### The loop bodies -/

/-- The capture of a frame on slot `k`, the state both decodes start from. -/
def State.afterFrame (s : State) (k : Nat) (dropped : List RecvAnswer) (f : List Byte) (src : LinkAddr) (rest : List RecvAnswer)
    (cap : Nat) : State :=
  (s.afterAnswers k (dropped ++ [.frame f src]) rest).captured f cap src

/-- All that the common part of the loop bodies can do. -/
theorem captureAndDecode_cases (k : Nat) (onFrame : State → OpEnd) (s : State) :
    let op := captureAndDecode k onFrame s
    ((s.openSlot k).isSome = false ∧ op = raise s .eInval) ∨
    (∃ slot dropped rest, s.NoAnswer k slot dropped rest ∧ op = .blocked (s.afterAnswers k dropped rest)) ∨
    (∃ slot dropped rest, s.LinkFails k slot dropped rest ∧ op = raise (s.afterAnswers k (dropped ++ [.fail]) rest) .eIo) ∨
    (∃ slot dropped f src rest, s.Delivers k slot dropped f src rest ∧ (f.take slot.cap).length < 14 ∧
      op = .done (s.afterFrame k dropped f src rest slot.cap) .eTrunc .frameSkipped) ∨
    (∃ slot dropped f src rest e r err, s.Delivers k slot dropped f src rest ∧ ethDecode (f.take slot.cap) = .ok e r ∧
      ipDecode r = .err err ∧
      op = .done (((s.afterFrame k dropped f src rest slot.cap).setEth ⟨true, e⟩).setRx ⟨true, 14, src⟩) err .frameSkipped) ∨
    (∃ slot dropped f src rest e r h p, s.Delivers k slot dropped f src rest ∧ ethDecode (f.take slot.cap) = .ok e r ∧
      ipDecode r = .ok h p ∧ h.wf = true ∧ 14 + h.hlen ≤ (f.take slot.cap).length ∧ p = (f.take slot.cap).drop (14 + h.hlen) ∧
      op = onFrame ((((s.afterFrame k dropped f src rest slot.cap).setEth ⟨true, e⟩).putIp4 h).setRx ⟨true, 14 + h.hlen, src⟩)) := by
  rcases receive_cases k s with ⟨h, e⟩ | ⟨slot, d, r, h, e⟩ | ⟨slot, d, r, h, e⟩ | ⟨slot, d, f, src, r, h, e⟩
  · exact .inl ⟨h, by simp [captureAndDecode, e, OpEnd.andThen]⟩
  · exact .inr (.inl ⟨slot, d, r, h, by simp [captureAndDecode, e]⟩)
  · exact .inr (.inr (.inl ⟨slot, d, r, h, by simp [captureAndDecode, e, OpEnd.andThen]⟩))
  refine .inr (.inr (.inr ?_))
  change receive k s = .done (s.afterFrame k d f src r slot.cap) .ok _ at e
  simp only [captureAndDecode, e, OpEnd.andThen_ok]
  have hv : (s.afterFrame k d f src r slot.cap).rx = ⟨true, 0, src⟩ := rfl
  have hm : (s.afterFrame k d f src r slot.cap).mem.rxb = f.take slot.cap := rfl
  rcases ethDecOp_cases (s.afterFrame k d f src r slot.cap) with ⟨h', e'⟩ | ⟨h', hp, e'⟩ | ⟨h', hp, hl, e'⟩ | ⟨eh, h', hp, hd, e'⟩
  · simp [hv] at h'
  · simp [hv] at hp
  · refine .inl ⟨slot, d, f, src, r, h, by simpa [hv, hm] using hl, ?_⟩
    rw [e', raise_eq, OpEnd.andThen_err _ _ _ _ (by simp)]
    rfl
  · refine .inr ?_
    rw [hv, hm] at hd
    rw [hv, Nat.zero_add] at hp
    rw [e', OpEnd.andThen_ok, hv]
    simp only [Nat.zero_add, List.drop_zero] at hd ⊢
    have hv2 : (((s.afterFrame k d f src r slot.cap).setEth ⟨true, eh⟩).setRx ⟨true, 14, src⟩).rx = ⟨true, 14, src⟩ := rfl
    have hm2 : (((s.afterFrame k d f src r slot.cap).setEth ⟨true, eh⟩).setRx ⟨true, 14, src⟩).mem.rxb = f.take slot.cap := rfl
    have hn2 : (((s.afterFrame k d f src r slot.cap).setEth ⟨true, eh⟩).setRx ⟨true, 14, src⟩).rxlen = (f.take slot.cap).length := rfl
    rcases ipDecOp_cases (((s.afterFrame k d f src r slot.cap).setEth ⟨true, eh⟩).setRx ⟨true, 14, src⟩) with
      ⟨h'', e''⟩ | ⟨h'', hp', e''⟩ | ⟨err, h'', hp', hd', e''⟩ | ⟨ih, h'', hw, hp', hd', e''⟩
    · simp at h''
    · rw [hv2, hn2] at hp'
      exact absurd hp (Nat.not_le.2 hp')
    · rw [hv2, hm2] at hd'
      refine .inl ⟨slot, d, f, src, r, eh, _, err, h, hd, hd', ?_⟩
      have hne : err ≠ .ok := by
        rcases ipDecode_err hd' with rfl | rfl <;> simp
      rw [e'', raise_eq, OpEnd.andThen_err _ _ _ _ hne]
      rfl
    · rw [hv2, hm2] at hd'
      rw [hv2, hn2] at hp'
      refine .inr ⟨slot, d, f, src, r, eh, _, ih, _, h, hd, hd', hw, hp', rfl, ?_⟩
      rw [e'', OpEnd.andThen_ok]
      rfl

/-- All that `ARP.POLL` can do. -/
theorem execArpPoll_cases (s : State) :
    (s.arp.state ≠ .awaitingReply ∧ execArpPoll s = .next (s.answered .eInval .none)) ∨
    (s.arp.state = .awaitingReply ∧ (s.openSlot s.arp.sock).isSome = false ∧
      execArpPoll s = .next ((s.setArp { s.arp with state := .failed, err := .eNoReply }).answered .eNoReply .none)) ∨
    (∃ slot dropped rest, s.arp.state = .awaitingReply ∧ s.NoAnswer s.arp.sock slot dropped rest ∧
      execArpPoll s = .next ((s.afterAnswers s.arp.sock dropped rest).waiting .arpPoll)) ∨
    (∃ slot dropped rest, s.arp.state = .awaitingReply ∧ s.LinkFails s.arp.sock slot dropped rest ∧
      execArpPoll s = .next (((s.afterAnswers s.arp.sock (dropped ++ [.fail]) rest).setArp
        { s.arp with state := .failed, err := .eNoReply }).answered .eNoReply .none)) ∨
    (∃ slot dropped f src rest, s.arp.state = .awaitingReply ∧ s.Delivers s.arp.sock slot dropped f src rest ∧
      arpMatch (f.take slot.cap) = true ∧
      execArpPoll s = .next (((s.afterFrame s.arp.sock dropped f src rest slot.cap).setArp
        { s.arp with mac := macAt (f.take slot.cap) 22, state := .resolved }).answered .ok (.mac (macAt (f.take slot.cap) 22)))) ∨
    (∃ slot dropped f src rest, s.arp.state = .awaitingReply ∧ s.Delivers s.arp.sock slot dropped f src rest ∧
      arpMatch (f.take slot.cap) = false ∧
      execArpPoll s = .next ((s.afterFrame s.arp.sock dropped f src rest slot.cap).answered .eNoMatch .none)) := by
  by_cases hs : s.arp.state = .awaitingReply
  · refine .inr ?_
    rcases receive_cases s.arp.sock s with ⟨h, e⟩ | ⟨slot, d, r, h, e⟩ | ⟨slot, d, r, h, e⟩ | ⟨slot, d, f, src, r, h, e⟩
    · exact .inl ⟨hs, h, by simp [execArpPoll, hs, e, OpEnd.andThen, arpNoReply]⟩
    · exact .inr (.inl ⟨slot, d, r, hs, h, by simp [execArpPoll, hs, e]⟩)
    · exact .inr (.inr (.inl ⟨slot, d, r, hs, h, by simp [execArpPoll, hs, e, OpEnd.andThen, arpNoReply]; rfl⟩))
    · change receive _ s = .done (s.afterFrame s.arp.sock d f src r slot.cap) .ok _ at e
      have hm : (s.afterFrame s.arp.sock d f src r slot.cap).mem.rxb = f.take slot.cap := rfl
      have ha : (s.afterFrame s.arp.sock d f src r slot.cap).arp = s.arp := rfl
      cases hmatch : arpMatch (f.take slot.cap) with
      | true => exact .inr (.inr (.inr (.inl ⟨slot, d, f, src, r, hs, h, hmatch, by
          simp [execArpPoll, hs, e, arpJudge, hm, hmatch, ha]⟩)))
      | false => exact .inr (.inr (.inr (.inr ⟨slot, d, f, src, r, hs, h, hmatch, by
          simp [execArpPoll, hs, e, arpJudge, hm, hmatch]⟩)))
  · exact .inl ⟨hs, by simp [execArpPoll, hs]⟩

/-- All that `SOCK.OPEN` can do. -/
theorem execSockOpen_cases (k : Nat) (flt : EtherFilter) (cap : Nat) (s : State) :
    ((Config.nsock ≤ k ∨ (s.openSlot k).isSome = true ∨ Config.capMax < cap) ∧
      execSockOpen k flt cap s = .next (s.answered .eInval .none)) ∨
    (∃ h : k < Config.nsock, (s.openSlot k).isSome = false ∧ cap ≤ Config.capMax ∧ ∃ t, linkOpen s k flt = (.ok, t) ∧
      execSockOpen k flt cap s = .next ((t.setSock (s.sock.set k ⟨true, flt, cap⟩ h)).answered .ok .none)) ∨
    (k < Config.nsock ∧ (s.openSlot k).isSome = false ∧ cap ≤ Config.capMax ∧ ∃ t, linkOpen s k flt = (.fail, t) ∧
      execSockOpen k flt cap s = .next ((t.setSock s.sock).answered .eIo .none)) := by
  unfold execSockOpen
  split
  · exact .inl ⟨.inl (by omega), rfl⟩
  rename_i hk
  rw [Decidable.not_not] at hk
  split
  · rename_i ho
    exact .inl ⟨.inr (.inl ho), rfl⟩
  rename_i ho
  rw [Bool.not_eq_true] at ho
  split
  · exact .inl ⟨.inr (.inr (by omega)), rfl⟩
  rename_i hc
  refine .inr ?_
  rcases hl : linkOpen s k flt with ⟨_ | _, t⟩
  · exact .inl ⟨hk, ho, by omega, t, rfl, by simp [slotsAfterOpen_ok hk]⟩
  · exact .inr ⟨hk, ho, by omega, t, rfl, by simp [slotsAfterOpen]⟩

end Sys2Proof.Machine
end

