-- ==== Sys2Proof/Laws/Exec.lean ====
section
/-! SUPPORT. What an operation can do, said once: every next state of `exec` is one of these. A property of every operation is one
case analysis over `Happens`, which unfolds no meaning. -/

namespace Sys2Proof.Machine

open Sys2Proof

/-- The operations that run a receive, with the slot they run it on. -/
def receivesOn (s : State) : Instr → Nat → Prop
  | .sockRecv k, j => k = j
  | .anaStep k, j => k = j
  | .fltStep k, j => k = j
  | .arpPoll, j => s.arp.state = .awaitingReply ∧ s.arp.sock = j
  | _, _ => False

/-- The state in which both headers of a captured frame are decoded (47_consumers.md R211, R217). -/
def State.afterHeaders (s : State) (e : EthHeader) (h : Ip4Header) (src : LinkAddr) : State :=
  ((s.setEth ⟨true, e⟩).putIp4 h).setRx ⟨true, 14 + h.hlen, src⟩

/-- What operation `i` can do in state `s`: the states it can end in, with what was the case. -/
inductive Happens (s : State) : Instr → State → Prop
  | raises (i : Instr) (e : Status) : e ≠ .ok → e ∈ statusesOf i → Happens s i (s.answered e .none)
  | waits (i : Instr) (k : Nat) (slot : SockSlot) (dropped rest : List RecvAnswer) : receivesOn s i k →
      s.NoAnswer k slot dropped rest → Happens s i ((s.afterAnswers k dropped rest).waiting i)
  | linkFails (i : Instr) (k : Nat) (slot : SockSlot) (dropped rest : List RecvAnswer) : receivesOn s i k → i ≠ .arpPoll →
      s.LinkFails k slot dropped rest → Happens s i ((s.afterAnswers k (dropped ++ [.fail]) rest).answered .eIo .none)
  | csum (buf : List Byte) : Happens s (.csum buf) ((s.setAcc (foldedSum buf)).answered .ok (.csum (csum16 buf)))
  | ethLoad (dst src : Mac) (etype : U16) :
      Happens s (.ethLoad dst src etype) ((s.setEth ⟨true, ⟨dst, src, etype⟩⟩).answered .ok .none)
  | ethDec (h : EthHeader) : s.rx.valid = true → s.rx.pos + 14 ≤ s.rxlen →
      ethDecode (s.mem.rxb.drop s.rx.pos) = .ok h (s.mem.rxb.drop (s.rx.pos + 14)) →
      Happens s .ethDec (((s.setEth ⟨true, h⟩).setRx { s.rx with pos := s.rx.pos + 14 }).answered .ok (.eth h))
  | ethEnc : s.eth.valid = true → s.txlen + (ethEncode s.eth.hdr).length ≤ Config.txCap →
      Happens s .ethEnc ((s.appended (ethEncode s.eth.hdr)).answered .ok .none)
  | ipNew (id : U16) : Happens s (.ipNew id) ((s.putIp4 (ipNewHeader id)).answered .ok .none)
  | ipTtl (v : Byte) : s.ip4.valid = true →
      Happens s (.ipTtl v) ((s.putIp4 { s.ip4.hdr with ttl := v }).answered .ok .none)
  | ipProtocol (v : Byte) : s.ip4.valid = true →
      Happens s (.ipProtocol v) ((s.putIp4 { s.ip4.hdr with proto := v }).answered .ok .none)
  | ipDestination (a : Ip4) : s.ip4.valid = true →
      Happens s (.ipDestination a) ((s.putIp4 { s.ip4.hdr with dst := a }).answered .ok .none)
  | ipAppendOpt (opt : List Byte) : s.ip4.valid = true → s.ip4.hdr.hlen + (pad4 opt).length ≤ 60 →
      s.ip4.hdr.tlen.toNat + (pad4 opt).length ≤ 0xFFFF →
      Happens s (.ipAppendOpt opt) ((s.putIp4 (ipWithOptions s.ip4.hdr (pad4 opt))).answered .ok .none)
  | ipChecksum : s.ip4.valid = true →
      Happens s .ipChecksum ((((s.setIp4 ⟨true, { s.ip4.hdr with csum := csum16 (ipHeaderBytes s.ip4.hdr) }⟩).setAcc
        (foldedSum (ipHeaderBytes s.ip4.hdr))).setGhost s.ghost.ipSummed).answered .ok (.csum (csum16 (ipHeaderBytes s.ip4.hdr))))
  | ipDec (h : Ip4Header) : s.rx.valid = true → h.wf = true → s.rx.pos + h.hlen ≤ s.rxlen →
      ipDecode (s.mem.rxb.drop s.rx.pos) = .ok h (s.mem.rxb.drop (s.rx.pos + h.hlen)) →
      Happens s .ipDec (((s.putIp4 h).setRx { s.rx with pos := s.rx.pos + h.hlen }).answered .ok (.ip4 h))
  | ipEnc : s.ip4.valid = true → s.txlen + (ipEncode s.ip4.hdr).length ≤ Config.txCap →
      Happens s .ipEnc ((s.appended (ipEncode s.ip4.hdr)).answered .ok .none)
  | ipLoad (h : Ip4Header) : h.wf = true →
      Happens s (.ipLoad h.ver h.hlen h.tos h.tlen h.id h.df h.mf h.foff h.ttl h.proto h.csum h.src h.dst h.opts)
        ((s.putIp4 h).answered .ok .none)
  | icmpLoad (type code : Byte) (ident seq : U16) :
      Happens s (.icmpLoad type code ident seq) ((s.putIcmp (icmpLoadHeader type code ident seq)).answered .ok .none)
  | icmpDec (h : IcmpHeader) (n : Nat) : s.rx.valid = true → h.wf = true → s.rx.pos + n ≤ s.rxlen →
      icmpDecode (s.mem.rxb.drop s.rx.pos) = .ok h (s.mem.rxb.drop (s.rx.pos + n)) →
      Happens s .icmpDec (((s.putIcmp h).setRx { s.rx with pos := s.rx.pos + n }).answered .ok (.icmp h))
  | icmpEnc : s.icmp.valid = true → s.txlen + (icmpEncode s.icmp.hdr).length ≤ Config.txCap →
      Happens s .icmpEnc ((s.appended (icmpEncode s.icmp.hdr)).answered .ok .none)
  | icmpChecksum (p : List Byte) : s.icmp.valid = true →
      Happens s (.icmpChecksum p) ((((s.setIcmp ⟨true, { s.icmp.hdr with csum := csum16 (icmpSummedBytes s.icmp.hdr p) }⟩).setAcc
        (foldedSum (icmpSummedBytes s.icmp.hdr p))).setGhost (s.ghost.icmpSummed p)).answered .ok
          (.csum (csum16 (icmpSummedBytes s.icmp.hdr p))))
  | sockOpen (k : Nat) (flt : EtherFilter) (cap : Nat) (hk : k < Config.nsock) (t : State) : (s.openSlot k).isSome = false →
      cap ≤ Config.capMax → linkOpen s k flt = (.ok, t) →
      Happens s (.sockOpen k flt cap) ((t.setSock (s.sock.set k ⟨true, flt, cap⟩ hk)).answered .ok .none)
  | sockOpenRefused (k : Nat) (flt : EtherFilter) (cap : Nat) (t : State) : k < Config.nsock → linkOpen s k flt = (.fail, t) →
      Happens s (.sockOpen k flt cap) ((t.setSock s.sock).answered .eIo .none)
  | sockSend (k : Nat) (dest : LinkAddr) (a : LinkAck) (t : State) : (s.openSlot k).isSome = true →
      linkSend s k s.mem.txb dest = (a, t) → Happens s (.sockSend k dest) (t.answered (ackStatus a) .none)
  | sockRecv (k : Nat) (slot : SockSlot) (dropped : List RecvAnswer) (f : List Byte) (src : LinkAddr) (rest : List RecvAnswer) :
      s.Delivers k slot dropped f src rest →
      Happens s (.sockRecv k) ((s.afterFrame k dropped f src rest slot.cap).answered .ok (.recv (min f.length slot.cap) src))
  | txClear : Happens s .txClear ((s.setMem (s.mem.setLen .txb 0)).answered .ok .none)
  | txAppend (data : List Byte) : s.txlen + data.length ≤ Config.txCap →
      Happens s (.txAppend data) ((s.appended data).answered .ok .none)
  | rxRest : s.rx.valid = true → s.rx.pos ≤ s.rxlen → Happens s .rxRest (s.answered .ok (.rest (s.mem.rxb.drop s.rx.pos)))
  | rxRewind : s.rx.valid = true → Happens s .rxRewind ((s.setRx { s.rx with pos := 0 }).answered .ok .none)
  | arpStart (k : Nat) (target lip : Ip4) (lmac : Mac) (a : LinkAck) (t : State) : (s.openSlot k).isSome = true →
      linkSend (s.setMem (s.mem.overwrite .txb (arpRequest target lip lmac))) k (arpRequest target lip lmac) arpDest = (a, t) →
      Happens s (.arpStart k target lip lmac) ((t.setArp (arpAfterSend a k s.arp)).answered (ackStatus a) .none)
  | arpClosed : s.arp.state = .awaitingReply → (s.openSlot s.arp.sock).isSome = false →
      Happens s .arpPoll ((s.setArp { s.arp with state := .failed, err := .eNoReply }).answered .eNoReply .none)
  | arpNoReply (slot : SockSlot) (dropped rest : List RecvAnswer) : s.arp.state = .awaitingReply →
      s.LinkFails s.arp.sock slot dropped rest →
      Happens s .arpPoll (((s.afterAnswers s.arp.sock (dropped ++ [.fail]) rest).setArp
        { s.arp with state := .failed, err := .eNoReply }).answered .eNoReply .none)
  | arpResolved (slot : SockSlot) (dropped : List RecvAnswer) (f : List Byte) (src : LinkAddr) (rest : List RecvAnswer) :
      s.arp.state = .awaitingReply → s.Delivers s.arp.sock slot dropped f src rest → arpMatch (f.take slot.cap) = true →
      Happens s .arpPoll (((s.afterFrame s.arp.sock dropped f src rest slot.cap).setArp
        { s.arp with mac := macAt (f.take slot.cap) 22, state := .resolved }).answered .ok (.mac (macAt (f.take slot.cap) 22)))
  | arpForeign (slot : SockSlot) (dropped : List RecvAnswer) (f : List Byte) (src : LinkAddr) (rest : List RecvAnswer) :
      s.arp.state = .awaitingReply → s.Delivers s.arp.sock slot dropped f src rest → arpMatch (f.take slot.cap) = false →
      Happens s .arpPoll ((s.afterFrame s.arp.sock dropped f src rest slot.cap).answered .eNoMatch .none)
  | skipsEth (i : Instr) (k : Nat) (slot : SockSlot) (dropped : List RecvAnswer) (f : List Byte) (src : LinkAddr)
      (rest : List RecvAnswer) : i = .anaStep k ∨ i = .fltStep k → s.Delivers k slot dropped f src rest →
      (f.take slot.cap).length < 14 →
      Happens s i ((s.afterFrame k dropped f src rest slot.cap).answered .eTrunc .frameSkipped)
  | skipsIp (i : Instr) (k : Nat) (slot : SockSlot) (dropped : List RecvAnswer) (f : List Byte) (src : LinkAddr)
      (rest : List RecvAnswer) (e : EthHeader) (r : List Byte) (err : Status) : i = .anaStep k ∨ i = .fltStep k →
      s.Delivers k slot dropped f src rest → ethDecode (f.take slot.cap) = .ok e r → ipDecode r = .err err →
      Happens s i ((((s.afterFrame k dropped f src rest slot.cap).setEth ⟨true, e⟩).setRx ⟨true, 14, src⟩).answered err .frameSkipped)
  | counts (k : Nat) (slot : SockSlot) (dropped : List RecvAnswer) (f : List Byte) (src : LinkAddr) (rest : List RecvAnswer)
      (e : EthHeader) (r : List Byte) (h : Ip4Header) (p : List Byte) : s.Delivers k slot dropped f src rest →
      ethDecode (f.take slot.cap) = .ok e r → ipDecode r = .ok h p → h.wf = true → 14 + h.hlen ≤ (f.take slot.cap).length →
      Happens s (.anaStep k) ((((s.afterFrame k dropped f src rest slot.cap).afterHeaders e h src).setTally
        (tallyAdd h.proto s.tally)).answered .ok (.tally (tallyAdd h.proto s.tally)))
  | filters (k : Nat) (slot : SockSlot) (dropped : List RecvAnswer) (f : List Byte) (src : LinkAddr) (rest : List RecvAnswer)
      (e : EthHeader) (r : List Byte) (h : Ip4Header) (p : List Byte) (res : Result) : s.Delivers k slot dropped f src rest →
      ethDecode (f.take slot.cap) = .ok e r → ipDecode r = .ok h p → h.wf = true → 14 + h.hlen ≤ (f.take slot.cap).length →
      res = (if fltMatch s.flt e h then .isMatch (fltRecord h p) else .noMatch) →
      Happens s (.fltStep k) (((s.afterFrame k dropped f src rest slot.cap).afterHeaders e h src).answered .ok res)
  | fltSet (smac dmac : Option Mac) (sip dip : Option Ip4) :
      Happens s (.fltSet smac dmac sip dip) ((s.setFlt ⟨smac, dmac, sip, dip⟩).answered .ok .none)

/-- What an operation answers: a next state that `Happens`, or, with the cursor beyond the capture, the fault. -/
def Answers (i : Instr) (s : State) (o : Host.Outcome State Fault Refusal) : Prop :=
  (∃ t, o = .next t ∧ Happens s i t) ∨ (o = .fault .outOfBuffer ∧ s.rxlen < s.rx.pos)

theorem Answers.next {i : Instr} {s t : State} (h : Happens s i t) : Answers i s (.next t) := .inl ⟨t, rfl, h⟩

theorem Answers.raises {i : Instr} {s : State} (e : Status) (h : e ≠ .ok := by simp)
    (hm : e ∈ statusesOf i := by simp [statusesOf]) : Answers i s (.next (s.answered e .none)) := .next (.raises i e h hm)

/-- The loop bodies, but for what they do with a decoded frame. -/
theorem captureAndDecode_answers {i : Instr} {k : Nat} {onFrame : State → OpEnd} {s : State} (hi : i = .anaStep k ∨ i = .fltStep k)
    (hf : ∀ slot dropped f src rest e r h p, s.Delivers k slot dropped f src rest → ethDecode (f.take slot.cap) = .ok e r →
      ipDecode r = .ok h p → h.wf = true → 14 + h.hlen ≤ (f.take slot.cap).length → p = (f.take slot.cap).drop (14 + h.hlen) →
      Answers i s ((onFrame ((s.afterFrame k dropped f src rest slot.cap).afterHeaders e h src)).outcome i)) :
    Answers i s ((captureAndDecode k onFrame s).outcome i) := by
  have hr : receivesOn s i k := by rcases hi with rfl | rfl <;> rfl
  have hne : i ≠ .arpPoll := by rcases hi with rfl | rfl <;> simp
  rcases captureAndDecode_cases k onFrame s with ⟨_, e⟩ | ⟨_, _, _, hn, e⟩ | ⟨_, _, _, hn, e⟩ | ⟨_, _, _, _, _, hd, hl, e⟩ |
    ⟨_, _, _, _, _, _, _, _, hd, h1, h2, e⟩ | ⟨_, _, _, _, _, _, _, _, _, hd, h1, h2, hw, hl, hp, e⟩ <;> rw [e]
  · rcases hi with rfl | rfl <;> exact .raises _
  · exact .next (.waits _ _ _ _ _ hr hn)
  · exact .next (.linkFails _ _ _ _ _ hr hne hn)
  · exact .next (.skipsEth _ _ _ _ _ _ _ hi hd hl)
  · exact .next (.skipsIp _ _ _ _ _ _ _ _ _ _ hi hd h1 h2)
  · exact hf _ _ _ _ _ _ _ _ _ hd h1 h2 hw hl hp

/-- Every operation answers as `Happens` says, or faults with the cursor beyond the capture. -/
theorem exec_answers (i : Instr) (s : State) : Answers i s (exec i s) := by
  cases i with
  | csum buf => exact .next (.csum buf)
  | ethLoad d c e => exact .next (.ethLoad d c e)
  | ethDec =>
    simp only [exec, execEthDec]
    rcases ethDecOp_cases s with ⟨_, e⟩ | ⟨_, hp, e⟩ | ⟨_, _, _, e⟩ | ⟨h, hv, hp, hd, e⟩ <;> rw [e]
    · exact .raises _
    · exact .inr ⟨rfl, hp⟩
    · exact .raises _
    · exact .next (.ethDec h hv hp hd)
  | ethEnc =>
    simp only [exec, execEthEnc]
    rcases encodeOp_cases s.eth.valid (ethEncode s.eth.hdr) s with ⟨_, e⟩ | ⟨_, _, e⟩ | ⟨hv, hl, e⟩ <;> rw [e]
    · exact .raises _
    · exact .raises _
    · exact .next (.ethEnc hv hl)
  | ipNew id => exact .next (.ipNew id)
  | ipTtl v =>
    simp only [exec, execIpTtl]
    rcases ipSetter_cases (fun h => { h with ttl := v }) s with ⟨_, e⟩ | ⟨hv, e⟩ <;> rw [e]
    · exact .raises _
    · exact .next (.ipTtl v hv)
  | ipProtocol v =>
    simp only [exec, execIpProtocol]
    rcases ipSetter_cases (fun h => { h with proto := v }) s with ⟨_, e⟩ | ⟨hv, e⟩ <;> rw [e]
    · exact .raises _
    · exact .next (.ipProtocol v hv)
  | ipDestination a =>
    simp only [exec, execIpDestination]
    rcases ipSetter_cases (fun h => { h with dst := a }) s with ⟨_, e⟩ | ⟨hv, e⟩ <;> rw [e]
    · exact .raises _
    · exact .next (.ipDestination a hv)
  | ipAppendOpt opt =>
    simp only [exec, execIpAppendOpt]
    split
    · exact .raises _
    split
    · exact .raises _
    split
    · exact .raises _
    · exact .next (.ipAppendOpt opt (by simp_all) (by omega) (by omega))
  | ipChecksum =>
    simp only [exec, execIpChecksum]
    split
    · exact .raises _
    · rw [OpEnd.outcome_done]
      exact .next (.ipChecksum (by simp_all))
  | ipDec =>
    simp only [exec, execIpDec]
    rcases ipDecOp_cases s with ⟨_, e⟩ | ⟨_, hp, e⟩ | ⟨err, _, _, hd, e⟩ | ⟨h, hv, hw, hp, hd, e⟩ <;> rw [e]
    · exact .raises _
    · exact .inr ⟨rfl, hp⟩
    · rcases ipDecode_err hd with rfl | rfl <;> exact .raises _
    · exact .next (.ipDec h hv hw hp hd)
  | ipEnc =>
    simp only [exec, execIpEnc]
    rcases encodeOp_cases s.ip4.valid (ipEncode s.ip4.hdr) s with ⟨_, e⟩ | ⟨_, _, e⟩ | ⟨hv, hl, e⟩ <;> rw [e]
    · exact .raises _
    · exact .raises _
    · exact .next (.ipEnc hv hl)
  | ipLoad ver hlen tos tlen id df mf foff ttl proto csum src dst opts =>
    simp only [exec, execIpLoad]
    rcases ipLoadOp_cases ⟨ver, hlen, tos, tlen, id, df, mf, foff, ttl, proto, csum, src, dst, opts⟩ s with ⟨hw, e⟩ | ⟨_, e⟩ <;> rw [e]
    · exact .next (.ipLoad _ hw)
    · exact .raises _
  | icmpLoad a b c d => exact .next (.icmpLoad a b c d)
  | icmpDec =>
    simp only [exec, execIcmpDec]
    rcases icmpDecOp_cases s with ⟨_, e⟩ | ⟨_, hp, e⟩ | ⟨_, _, _, e⟩ | ⟨h, n, hv, hw, hp, hd, e⟩ <;> rw [e]
    · exact .raises _
    · exact .inr ⟨rfl, hp⟩
    · exact .raises _
    · exact .next (.icmpDec h n hv hw hp hd)
  | icmpEnc =>
    simp only [exec, execIcmpEnc]
    rcases encodeOp_cases s.icmp.valid (icmpEncode s.icmp.hdr) s with ⟨_, e⟩ | ⟨_, _, e⟩ | ⟨hv, hl, e⟩ <;> rw [e]
    · exact .raises _
    · exact .raises _
    · exact .next (.icmpEnc hv hl)
  | icmpChecksum p =>
    simp only [exec, execIcmpChecksum]
    split
    · exact .raises _
    · rw [OpEnd.outcome_done]
      exact .next (.icmpChecksum p (by simp_all))
  | sockOpen k f c =>
    simp only [exec]
    rcases execSockOpen_cases k f c s with ⟨_, e⟩ | ⟨hk, ho, hc, t, hl, e⟩ | ⟨hk, _, _, t, hl, e⟩ <;> rw [e]
    · exact .raises _
    · exact .next (.sockOpen k f c hk t ho hc hl)
    · exact .next (.sockOpenRefused k f c t hk hl)
  | sockSend k d =>
    simp only [exec, execSockSend]
    split
    · exact .raises _
    · rename_i slot ho
      rw [OpEnd.outcome_done]
      exact .next (.sockSend k d _ (linkSend s k s.mem.txb d).2 (by simp [ho]) rfl)
  | sockRecv k =>
    simp only [exec, execSockRecv]
    rcases receive_cases k s with ⟨_, e⟩ | ⟨slot, d, r, h, e⟩ | ⟨slot, d, r, h, e⟩ | ⟨slot, d, f, src, r, h, e⟩ <;> rw [e]
    · exact .raises _
    · exact .next (.waits _ _ _ _ _ rfl h)
    · exact .next (.linkFails _ k _ _ _ rfl (by simp) h)
    · exact .next (.sockRecv _ _ _ _ _ _ h)
  | txClear => exact .next .txClear
  | txAppend d =>
    simp only [exec, execTxAppend]
    rcases appendTx_cases s d with ⟨_, e⟩ | ⟨h, e⟩ <;> rw [e]
    · exact .raises _
    · exact .next (.txAppend d h)
  | rxRest =>
    simp only [exec, execRxRest]
    split
    · exact .raises _
    rename_i hv
    by_cases hp : s.rx.pos ≤ s.rxlen
    · rw [State.remainder_eq hp]
      exact .next (.rxRest (by simpa using hv) hp)
    · rw [State.remainder_eq_none (by omega)]
      exact .inr ⟨rfl, by omega⟩
  | rxRewind =>
    simp only [exec, execRxRewind]
    split
    · exact .raises _
    · exact .next (.rxRewind (by simp_all))
  | arpStart k a b m =>
    simp only [exec, execArpStart]
    split
    · exact .raises _
    · rename_i slot ho
      rw [OpEnd.outcome_done]
      exact .next (.arpStart k a b m _
        (linkSend (s.setMem (s.mem.overwrite .txb (arpRequest a b m))) k (arpRequest a b m) arpDest).2 (by simp [ho]) rfl)
  | arpPoll =>
    simp only [exec]
    rcases execArpPoll_cases s with ⟨_, e⟩ | ⟨ha, ho, e⟩ | ⟨_, _, _, ha, hn, e⟩ | ⟨_, _, _, ha, hf, e⟩ | ⟨_, _, _, _, _, ha, hd, hm, e⟩ |
      ⟨_, _, _, _, _, ha, hd, hm, e⟩ <;> rw [e]
    · exact .raises _
    · exact .next (.arpClosed ha ho)
    · exact .next (.waits _ _ _ _ _ ⟨ha, rfl⟩ hn)
    · exact .next (.arpNoReply _ _ _ ha hf)
    · exact .next (.arpResolved _ _ _ _ _ ha hd hm)
    · exact .next (.arpForeign _ _ _ _ _ ha hd hm)
  | anaStep k =>
    simp only [exec, execAnaStep]
    refine captureAndDecode_answers (.inl rfl) fun slot d f src rest e r h p hd h1 h2 hw hl _ => ?_
    have hp : ((s.afterFrame k d f src rest slot.cap).afterHeaders e h src).ip4.hdr.proto = h.proto := rfl
    have ht : ((s.afterFrame k d f src rest slot.cap).afterHeaders e h src).tally = s.tally := rfl
    simp only [hp, ht, OpEnd.outcome_done]
    exact .next (.counts _ _ _ _ _ _ _ _ _ _ hd h1 h2 hw hl)
  | fltSet a b c d => exact .next (.fltSet a b c d)
  | fltStep k =>
    simp only [exec, execFltStep]
    refine captureAndDecode_answers (.inr rfl) fun slot d f src rest e r h p hd h1 h2 hw hl hp => ?_
    have hm : ((s.afterFrame k d f src rest slot.cap).afterHeaders e h src).flt = s.flt := rfl
    have he : ((s.afterFrame k d f src rest slot.cap).afterHeaders e h src).eth.hdr = e := rfl
    have hh : ((s.afterFrame k d f src rest slot.cap).afterHeaders e h src).ip4.hdr = h := rfl
    have hrem : ((s.afterFrame k d f src rest slot.cap).afterHeaders e h src).remainder = some p :=
      State.remainder_eq_some_iff.2 ⟨hl, hp⟩
    simp only [hrem, hm, he, hh]
    split
    · rename_i hmatch
      rw [OpEnd.outcome_done]
      exact .next (.filters _ _ _ _ _ _ _ _ _ _ _ hd h1 h2 hw hl (if_pos hmatch).symm)
    · rename_i hmatch
      rw [OpEnd.outcome_done]
      exact .next (.filters _ _ _ _ _ _ _ _ _ _ _ hd h1 h2 hw hl (if_neg hmatch).symm)

theorem exec_happens {i : Instr} {s t : State} (h : exec i s = .next t) : Happens s i t := by
  rcases exec_answers i s with ⟨u, e, hu⟩ | ⟨e, -⟩
  · rw [h] at e
    cases e
    exact hu
  · rw [h] at e
    cases e

/-! ### The host's loops -/

/-- A loop that ended did so on a reply of its operation that stops it. -/
theorem repeatUntil_ended {i : Instr} {stop : Reply → Bool} {fuel : Nat} {s t : State} (h : repeatUntil i stop fuel s = .ended t) :
    ∃ u r, exec i u = .next t ∧ t.reply = some r ∧ stop r = true := by
  induction fuel generalizing s with
  | zero => cases h
  | succ n ih =>
    unfold repeatUntil at h
    split at h
    · rename_i u hu
      split at h
      · rename_i hs
        cases h
        obtain ⟨r, hr, hs⟩ := (Option.any_eq_true _ _).1 hs
        exact ⟨s, r, hu, hr, hs⟩
      · exact ih h
    · cases h

/-- A loop whose operation keeps a property and, while it holds, never gives a reply that stops it does not end. -/
theorem repeatUntil_unended {i : Instr} {stop : Reply → Bool} {P : State → Prop}
    (hstep : ∀ s, P s → ∃ t, exec i s = .next t ∧ t.reply.any stop = false ∧ P t) (fuel : Nat) {s : State} (h : P s) :
    ∃ t, repeatUntil i stop fuel s = .unended t ∧ P t := by
  induction fuel generalizing s with
  | zero => exact ⟨s, rfl, h⟩
  | succ n ih =>
    obtain ⟨t, he, hs, ht⟩ := hstep s h
    obtain ⟨u, hu, hp⟩ := ih ht
    exact ⟨u, by simp [repeatUntil, he, hs, hu], hp⟩

end Sys2Proof.Machine
end

