-- ==== Sys2Proof/Laws/PerInstr.lean ====
section
/-! SUPPORT. The statements about every operation, one lemma per constructor: the command of an operation has the operand types of its
selector's row (30_encoding.md R76, R77). -/

namespace Sys2Proof.Laws.EncodeMatchesRow

open Sys2Proof

/-- The command of an operation carries its row's operands, each of its type and in the row's order. -/
def Statement (i : Instr) : Prop := (encode i).args.map Operand.ty = operandTypes (encode i).sel

theorem csum (buf : List Byte) : Statement (.csum buf) := rfl

theorem ethLoad (dst src : Mac) (etype : U16) : Statement (.ethLoad dst src etype) := rfl

theorem ethDec : Statement .ethDec := rfl

theorem ethEnc : Statement .ethEnc := rfl

theorem ipNew (id : U16) : Statement (.ipNew id) := rfl

theorem ipTtl (ttl : Byte) : Statement (.ipTtl ttl) := rfl

theorem ipProtocol (proto : Byte) : Statement (.ipProtocol proto) := rfl

theorem ipDestination (dst : Ip4) : Statement (.ipDestination dst) := rfl

theorem ipAppendOpt (opt : List Byte) : Statement (.ipAppendOpt opt) := rfl

theorem ipChecksum : Statement .ipChecksum := rfl

theorem ipDec : Statement .ipDec := rfl

theorem ipEnc : Statement .ipEnc := rfl

theorem ipLoad (ver : BitVec 4) (hlen : Nat) (tos : Byte) (tlen id : U16) (df mf : Bool) (foff : BitVec 13)
    (ttl proto : Byte) (csum : U16) (src dst : Ip4) (opts : List Byte) : Statement (.ipLoad ver hlen tos tlen id df mf foff ttl proto csum src dst opts) := rfl

theorem icmpLoad (type code : Byte) (ident seq : U16) : Statement (.icmpLoad type code ident seq) := rfl

theorem icmpDec : Statement .icmpDec := rfl

theorem icmpEnc : Statement .icmpEnc := rfl

theorem icmpChecksum (payload : List Byte) : Statement (.icmpChecksum payload) := rfl

theorem sockOpen (slot : Nat) (filter : EtherFilter) (cap : Nat) : Statement (.sockOpen slot filter cap) := rfl

theorem sockSend (slot : Nat) (dest : LinkAddr) : Statement (.sockSend slot dest) := rfl

theorem sockRecv (slot : Nat) : Statement (.sockRecv slot) := rfl

theorem txClear : Statement .txClear := rfl

theorem txAppend (data : List Byte) : Statement (.txAppend data) := rfl

theorem rxRest : Statement .rxRest := rfl

theorem rxRewind : Statement .rxRewind := rfl

theorem arpStart (slot : Nat) (target lip : Ip4) (lmac : Mac) : Statement (.arpStart slot target lip lmac) := rfl

theorem arpPoll : Statement .arpPoll := rfl

theorem anaStep (slot : Nat) : Statement (.anaStep slot) := rfl

theorem fltSet (smac dmac : Option Mac) (sip dip : Option Ip4) : Statement (.fltSet smac dmac sip dip) := rfl

theorem fltStep (slot : Nat) : Statement (.fltStep slot) := rfl

end Sys2Proof.Laws.EncodeMatchesRow
end

