-- ==== Sys2Proof/Tests/Slice0.lean ====
section
/-! SUPPORT. Tests: the well-formedness checks, the decoder on commands written out from the selector table, single steps on the spec's
own vectors (95_test_vectors.md, named in each comment), and for every obligation with hypotheses a witness that meets them. -/

namespace Sys2Proof.Tests

open Sys2Proof Sys2Proof.Machine

/-! ### Well-formedness: the one check -/

/-- An index of more than `IFINDEX_W` bits is refused: `2 ^ IFINDEX_W` is the least such number (10_state.md R23). -/
theorem test_wf_refuses_wide_ifindex : (Instr.sockSend 0 ⟨2 ^ Config.ifindexW, Mac.zero⟩).wf = false := by
  simp [Instr.wf, LinkAddr.wf, ifindexFits, Nat.log2_two_pow]

/-- The decoder refuses it too. -/
theorem test_decode_refuses_wide_ifindex :
    decode ⟨0x41, [.slot 0, .linkaddr ⟨2 ^ Config.ifindexW, Mac.zero⟩]⟩ = .badOperands := by
  simp [decode, LinkAddr.wf, ifindexFits, Nat.log2_two_pow]

theorem test_wf_accepts_ifindex_zero : (Instr.sockSend 0 ⟨0, Mac.zero⟩).wf = true := rfl

/-! ### Decoding: every selector of 30_encoding.md R76, written out, with its operands -/

def macA : Mac := ⟨0xAA, 0xBB, 0xCC, 0xDD, 0xEE, 0xFF⟩
def macB : Mac := ⟨0x11, 0x22, 0x33, 0x44, 0x55, 0x66⟩
def macL : Mac := ⟨0x02, 0x00, 0x00, 0x00, 0x00, 0x01⟩
def ip11 : Ip4 := ⟨192, 168, 1, 1⟩
def ip100 : Ip4 := ⟨192, 168, 1, 100⟩

theorem test_decode_csum : decode ⟨0b00000001, [.bytes [1, 2]]⟩ = .instr (.csum [1, 2]) := rfl

theorem test_decode_eth :
    decode ⟨0b00010000, [.mac macA, .mac macB, .u16 0x0800]⟩ = .instr (.ethLoad macA macB 0x0800) ∧
      decode ⟨0b00010001, []⟩ = .instr .ethDec ∧ decode ⟨0b00010010, []⟩ = .instr .ethEnc := ⟨rfl, rfl, rfl⟩

theorem test_decode_ip_build :
    decode ⟨0b00100000, [.u16 0x1234]⟩ = .instr (.ipNew 0x1234) ∧ decode ⟨0b00100001, [.u8 64]⟩ = .instr (.ipTtl 64) ∧
      decode ⟨0b00100010, [.u8 6]⟩ = .instr (.ipProtocol 6) ∧ decode ⟨0b00100011, [.ip4 ip11]⟩ = .instr (.ipDestination ip11) ∧
      decode ⟨0b00100100, [.bytes [1, 2, 3]]⟩ = .instr (.ipAppendOpt [1, 2, 3]) := ⟨rfl, rfl, rfl, rfl, rfl⟩

theorem test_decode_ip_rest :
    decode ⟨0b00100101, []⟩ = .instr .ipChecksum ∧ decode ⟨0b00100110, []⟩ = .instr .ipDec ∧
      decode ⟨0b00100111, []⟩ = .instr .ipEnc ∧
      decode ⟨0b00101000, [.u4 4, .nat 20, .u8 1, .u16 28, .u16 7, .bit false, .bit true, .u13 2, .u8 64, .u8 1, .u16 3, .ip4 ip100,
        .ip4 ip11, .bytes []]⟩ = .instr (.ipLoad 4 20 1 28 7 false true 2 64 1 3 ip100 ip11 []) := ⟨rfl, rfl, rfl, rfl⟩

theorem test_decode_icmp :
    decode ⟨0b00110000, [.u8 8, .u8 0, .u16 1, .u16 2]⟩ = .instr (.icmpLoad 8 0 1 2) ∧ decode ⟨0b00110001, []⟩ = .instr .icmpDec ∧
      decode ⟨0b00110010, []⟩ = .instr .icmpEnc ∧ decode ⟨0b00110011, [.bytes [9]]⟩ = .instr (.icmpChecksum [9]) :=
  ⟨rfl, rfl, rfl, rfl⟩

theorem test_decode_socket :
    decode ⟨0b01000000, [.slot 1, .filter (.single 0x0800), .nat 64]⟩ = .instr (.sockOpen 1 (.single 0x0800) 64) ∧
      decode ⟨0b01000001, [.slot 1, .linkaddr ⟨0, macA⟩]⟩ = .instr (.sockSend 1 ⟨0, macA⟩) ∧
      decode ⟨0b01000010, [.slot 1]⟩ = .instr (.sockRecv 1) := ⟨rfl, rfl, rfl⟩

theorem test_decode_buffers :
    decode ⟨0b01001000, []⟩ = .instr .txClear ∧ decode ⟨0b01001001, [.bytes [5]]⟩ = .instr (.txAppend [5]) ∧
      decode ⟨0b01001010, []⟩ = .instr .rxRest ∧ decode ⟨0b01001011, []⟩ = .instr .rxRewind := ⟨rfl, rfl, rfl, rfl⟩

theorem test_decode_arp :
    decode ⟨0b01010000, [.slot 0, .ip4 ip11, .ip4 ip100, .mac macL]⟩ = .instr (.arpStart 0 ip11 ip100 macL) ∧
      decode ⟨0b01010001, []⟩ = .instr .arpPoll := ⟨rfl, rfl⟩

theorem test_decode_consumers :
    decode ⟨0b01100000, [.slot 0]⟩ = .instr (.anaStep 0) ∧
      decode ⟨0b01101000, [.optMac (some macA), .optMac none, .optIp4 none, .optIp4 (some ip11)]⟩ =
        .instr (.fltSet (some macA) none none (some ip11)) ∧
      decode ⟨0b01101001, [.slot 0]⟩ = .instr (.fltStep 0) := ⟨rfl, rfl, rfl⟩

/-- X1: selectors outside the table. -/
theorem test_decode_unassigned : ∀ sel ∈ [0x00#8, 0x02#8, 0x13#8, 0x29#8, 0x43#8, 0x52#8, 0x61#8, 0xFF#8],
    decode ⟨sel, []⟩ = .unassigned := by decide

/-- An assigned selector with an operand of another type, with one too few or one too many. -/
theorem test_decode_bad_operands : decode ⟨0x21, [.u16 5]⟩ = .badOperands ∧ decode ⟨0x21, []⟩ = .badOperands ∧
    decode ⟨0x26, [.u8 0]⟩ = .badOperands := ⟨rfl, rfl, rfl⟩

/-! ### Single steps -/

/-- What the host gets from an operation. -/
def replyOf : Host.Outcome State Fault Refusal → Option Reply
  | .next t => t.reply
  | _ => none

/-- A field of the next state. -/
def look {α : Type} (f : State → α) : Host.Outcome State Fault Refusal → Option α
  | .next t => some (f t)
  | _ => none

/-- After reset, with `b` captured. -/
def capturedState (b : List Byte) : State := { State.reset with mem := ⟨[], b⟩, rx := ⟨true, 0, ⟨0, macA⟩⟩ }

/-- After reset, with slot 0 open and the link about to answer as given, silent after that. -/
def openState (flt : EtherFilter) (cap : Nat) (inbound : List RecvAnswer) : State :=
  { State.reset with sock := #v[⟨true, flt, cap⟩, ⟨false, .all, 0⟩], link := ⟨[], [], inbound, [.silence], 0⟩ }

/-- After reset, with a header in `IP4`. -/
def ipState (h : Ip4Header) : State := { State.reset with ip4 := ⟨true, h⟩ }

/-- After reset, with a header in `ICMP`. -/
def icmpState (h : IcmpHeader) : State := { State.reset with icmp := ⟨true, h⟩ }

/-- I2 before its checksum. -/
def headerI2 : Ip4Header := { ipNewHeader 1 with dst := ip11, proto := 6 }

/-- The 20 bytes of I2, its checksum in place. -/
def bytesI2 : List Byte := [0x45, 0, 0, 0x14, 0, 1, 0x40, 0, 0x40, 6, 0x79, 0x3A, 0, 0, 0, 0, 0xC0, 0xA8, 1, 1]

/-- The frame F2 of section 2.7. -/
def frameF2 : List Byte :=
  [2, 0, 0, 0, 0, 1, 0xAA, 0xBB, 0xCC, 0xDD, 0xEE, 0xFF, 8, 0, 0x45, 0, 0, 0x14, 0, 2, 0x40, 0, 0x40, 6, 0x26, 0xD4, 10, 0, 0, 9, 10, 0,
    0, 6]

/-- The frame F1 of section 2.7. -/
def frameF1 : List Byte :=
  [2, 0, 0, 0, 0, 1, 0xAA, 0xBB, 0xCC, 0xDD, 0xEE, 0xFF, 8, 0, 0x46, 0, 0, 0x24, 0, 0x42, 0, 0, 0x3F, 1, 0x64, 0x89, 10, 0, 0, 9, 10, 0,
    0, 5, 1, 1, 1, 0, 0, 0, 0x0E, 0xFA, 0x12, 0x34, 0, 1, 0x70, 0x69, 0x6E, 0x67]

/-- The frame F3 of section 2.7, cut inside the IPv4 header. -/
def frameF3 : List Byte := [2, 0, 0, 0, 0, 1, 0xAA, 0xBB, 0xCC, 0xDD, 0xEE, 0xFF, 8, 0, 0x45, 0, 0, 0x54, 0, 3, 0x40]

/-- The captured frame A1 of section 2.6. -/
def frameA1 : List Byte :=
  [2, 0, 0, 0, 0, 1, 2, 3, 4, 5, 6, 7, 8, 6, 0, 1, 8, 0, 6, 4, 0, 2, 2, 3, 4, 5, 6, 7, 0xC0, 0xA8, 1, 1, 2, 0, 0, 0, 0, 1, 0xC0, 0xA8, 1,
    0x64]

/-- The request of section 2.6. -/
def frameRequest : List Byte :=
  [0xFF, 0xFF, 0xFF, 0xFF, 0xFF, 0xFF, 2, 0, 0, 0, 0, 1, 8, 6, 0, 1, 8, 0, 6, 4, 0, 1, 2, 0, 0, 0, 0, 1, 0xC0, 0xA8, 1, 0x64, 0, 0, 0, 0,
    0, 0, 0xC0, 0xA8, 1, 1]

/-- 2.1: the carry is added back. -/
theorem test_csum_carry : replyOf (exec (.csum [0xFF, 0xFF, 0x00, 0x01]) .reset) = some ⟨.ok, .csum 0xFFFE⟩ := by decide

/-- 2.1: an odd last byte is the high byte of a word. -/
theorem test_csum_odd : replyOf (exec (.csum [0x12, 0x34, 0x56]) .reset) = some ⟨.ok, .csum 0x97CB⟩ := by decide

/-- S6: the operands of `ETH.LOAD`. -/
theorem test_ethLoad : look State.eth (exec (.ethLoad macA macB 0x0800) .reset) = some ⟨true, ⟨macA, macB, 0x0800⟩⟩ := by decide

/-- E1: decode with tail. -/
theorem test_ethDec : look (fun t => (t.eth, t.rx.pos))
    (exec .ethDec (capturedState [0xAA, 0xBB, 0xCC, 0xDD, 0xEE, 0xFF, 0x11, 0x22, 0x33, 0x44, 0x55, 0x66, 8, 0, 0x45, 0])) =
      some (⟨true, ⟨macA, macB, 0x0800⟩⟩, 14) := by decide

/-- E5: 13 bytes. -/
theorem test_ethDec_short : replyOf (exec .ethDec (capturedState (frameF2.take 13))) = some ⟨.eTrunc, .none⟩ := by decide

/-- E4: an asymmetric ethertype goes out high byte first. -/
theorem test_ethEnc : look (fun t => t.mem.txb) (exec .ethEnc { State.reset with eth := ⟨true, ⟨macA, macB, 0x1234⟩⟩ }) =
    some [0xAA, 0xBB, 0xCC, 0xDD, 0xEE, 0xFF, 0x11, 0x22, 0x33, 0x44, 0x55, 0x66, 0x12, 0x34] := by decide

/-- E8: nothing loaded. -/
theorem test_ethEnc_empty : replyOf (exec .ethEnc .reset) = some ⟨.eNoValue, .none⟩ := by decide

/-- S4: the lengths of a new header. -/
theorem test_ipNew : look (fun t => (t.ip4.hdr.hlen, t.ip4.hdr.tlen, t.ip4.hdr.ttl, t.ip4.hdr.id)) (exec (.ipNew 0x1234) .reset) =
    some (20, 20, 64, 0x1234) := by decide

/-- I13: a setter before new. -/
theorem test_ipTtl_empty : replyOf (exec (.ipTtl 5) .reset) = some ⟨.eNoValue, .none⟩ := by decide

/-- I14: the stored checksum stays. -/
theorem test_ipTtl : look (fun t => (t.ip4.hdr.ttl, t.ip4.hdr.csum)) (exec (.ipTtl 1) (ipState { headerI2 with csum := 0x793A })) =
    some (1, 0x793A) := by decide

theorem test_ipProtocol : look (fun t => t.ip4.hdr.proto) (exec (.ipProtocol 6) (ipState (ipNewHeader 1))) = some 6 := by decide

theorem test_ipDestination : look (fun t => t.ip4.hdr.dst) (exec (.ipDestination ip11) (ipState (ipNewHeader 1))) = some ip11 := by
  decide

/-- S4: 3 bytes are padded to 4, both lengths grow by 4. -/
theorem test_ipAppendOpt : look (fun t => (t.ip4.hdr.opts, t.ip4.hdr.hlen, t.ip4.hdr.tlen))
    (exec (.ipAppendOpt [1, 2, 3]) (ipState (ipNewHeader 0x1234))) = some ([1, 2, 3, 0], 24, 24) := by decide

/-- I12: the total length would overflow. -/
theorem test_ipAppendOpt_overflow :
    replyOf (exec (.ipAppendOpt [1]) (ipState { ipNewHeader 1 with tlen := 0xFFFE })) = some ⟨.eInval, .none⟩ := by decide

/-- S7. -/
theorem test_ipChecksum : replyOf (exec .ipChecksum (ipState headerI2)) = some ⟨.ok, .csum 0x793A⟩ := by decide

/-- I24: the unnamed flag bit is not taken for `DF` or the offset. -/
theorem test_ipDec_flags : look (fun t => (t.ip4.hdr.df, t.ip4.hdr.mf, t.ip4.hdr.foff))
    (exec .ipDec (capturedState [0x45, 0, 0, 0x14, 0, 1, 0xC0, 0, 0x40, 1, 0, 0, 0, 0, 0, 0, 0, 0, 0, 0])) =
      some (true, false, 0) := by decide

/-- I19: the length is tested before the nibble. -/
theorem test_ipDec_short : replyOf (exec .ipDec (capturedState [0x41, 0, 0, 0, 0, 0, 0, 0, 0, 0])) = some ⟨.eTrunc, .none⟩ := by decide

/-- S7: the encoded header. -/
theorem test_ipEnc : look (fun t => t.mem.txb) (exec .ipEnc (ipState { headerI2 with csum := 0x793A })) = some bytesI2 := by decide

/-- I7: every field at its largest value. -/
theorem test_ipEnc_all_ones : look (fun t => t.mem.txb) (exec .ipEnc (ipState
    ⟨4, 20, 0x10, 0xFFFF, 0xFFFF, true, true, 0x1FFF, 255, 17, 0x3BDE, ⟨255, 255, 255, 255⟩, ⟨255, 255, 255, 255⟩, []⟩)) =
      some [0x45, 0x10, 0xFF, 0xFF, 0xFF, 0xFF, 0x7F, 0xFF, 0xFF, 0x11, 0x3B, 0xDE, 0xFF, 0xFF, 0xFF, 0xFF, 0xFF, 0xFF, 0xFF, 0xFF] := by
  decide

/-- I16: a header length without its options. -/
theorem test_ipLoad_bad : replyOf (exec (.ipLoad 4 24 0 24 1 false false 0 64 1 0 ip100 ip11 []) .reset) = some ⟨.eInval, .none⟩ := by
  decide

/-- I6: a header that is loaded whole. -/
theorem test_ipLoad : look (fun t => t.ip4)
    (exec (.ipLoad 4 20 0 28 7 false false 0 64 1 0 ⟨10, 0, 0, 1⟩ ⟨10, 0, 0, 2⟩ []) .reset) =
      some ⟨true, ⟨4, 20, 0, 28, 7, false, false, 0, 64, 1, 0, ⟨10, 0, 0, 1⟩, ⟨10, 0, 0, 2⟩, []⟩⟩ := by decide

/-- M6: the pair's operands are ignored outside the family. -/
theorem test_icmpLoad : look (fun t => t.icmp) (exec (.icmpLoad 3 1 0x5555 0x6666) .reset) = some ⟨true, ⟨3, 1, 0, 0, 0⟩⟩ := by decide

/-- M12: type 18 is of the family. -/
theorem test_icmpDec : look (fun t => (t.icmp.hdr, t.rx.pos)) (exec .icmpDec (capturedState [0x12, 0, 0, 0, 0, 1, 0, 2, 9])) =
    some (⟨18, 0, 0, 1, 2⟩, 8) := by decide

/-- M11: a type outside the family takes 4 bytes. -/
theorem test_icmpDec_no_pair : look (fun t => (t.icmp.hdr, t.rx.pos))
    (exec .icmpDec (capturedState [3, 1, 0xFC, 0xFE, 0, 0, 0, 0])) = some (⟨3, 1, 0xFCFE, 0, 0⟩, 4) := by decide

/-- M3: the encoded header. -/
theorem test_icmpEnc : look (fun t => t.mem.txb) (exec .icmpEnc (icmpState ⟨8, 0, 0x06FA, 0x1234, 1⟩)) =
    some [8, 0, 6, 0xFA, 0x12, 0x34, 0, 1] := by decide

/-- M2: an odd total length. -/
theorem test_icmpChecksum : replyOf (exec (.icmpChecksum [0x61, 0x62, 0x63]) (icmpState ⟨8, 0, 0, 1, 1⟩)) =
    some ⟨.ok, .csum 0x339B⟩ := by decide

/-- T4: the link refuses, the slot stays closed. -/
theorem test_sockOpen_refused : look (fun t => (t.reply, t.openSlot 0))
    (exec (.sockOpen 0 .all 42) { State.reset with link := ⟨[.fail], [], [], [], 0⟩ }) = some (some ⟨.eIo, .none⟩, none) := by decide

/-- T2: a slot that is open keeps its first setting. -/
theorem test_sockOpen_twice : look (fun t => (t.reply, t.openSlot 0)) (exec (.sockOpen 0 .all 42) (openState .all 7 [])) =
    some (some ⟨.eInval, .none⟩, some ⟨true, .all, 7⟩) := by decide

/-- T7: the frame handed over is `TXB`, which stays. -/
theorem test_sockSend : look (fun t => (t.trace, t.mem.txb))
    (exec (.sockSend 0 ⟨0, macA⟩) { openState .all 42 [] with mem := ⟨[1, 2], []⟩, link := ⟨[], [.ok], [], [], 0⟩ }) =
      some ([.sent 0 [1, 2] ⟨0, macA⟩ .ok], [1, 2]) := by decide

/-- T5: a closed slot; nothing is handed to the link. -/
theorem test_sockSend_closed : look (fun t => (t.reply, t.trace)) (exec (.sockSend 0 ⟨0, macA⟩) .reset) =
    some (some ⟨.eInval, .none⟩, []) := by decide

/-- T8, T11: an ARP frame is dropped, the next is cut to the capacity. -/
theorem test_sockRecv : look (fun t => (t.mem.rxb, t.link.inbound))
    (exec (.sockRecv 0) (openState (.single 0x0800) 16 [.frame frameA1 ⟨0, macB⟩, .frame frameF2 ⟨0, macA⟩])) =
      some (frameF2.take 16, []) := by decide

/-- T14: no answer, no status. -/
theorem test_sockRecv_waits : look (fun t => (t.busy, t.reply)) (exec (.sockRecv 0) (openState .all 16 [])) =
    some (some (.sockRecv 0), none) := by decide

/-- A silence ends: the receive waits, and what the link has left outlives a reset that ends it (70_reset_and_hazards.md R261). -/
theorem test_sockRecv_silence : look (fun t => (t.busy, t.link.inbound, t.applyReset.link.inbound))
    (exec (.sockRecv 0) (openState .all 16 [.silence, .frame frameF2 ⟨0, macA⟩])) =
      some (some (.sockRecv 0), [.frame frameF2 ⟨0, macA⟩], [.frame frameF2 ⟨0, macA⟩]) := by decide

/-- After reset the link's answers are free. -/
theorem test_reset_link_free : State.reset.link.offers = [Config.recvAnswer 0] := rfl

theorem test_txClear : look (fun t => t.mem.txb) (exec .txClear { State.reset with mem := ⟨[1, 2], []⟩ }) = some [] := by decide

theorem test_txAppend : look (fun t => t.mem.txb) (exec (.txAppend [3]) { State.reset with mem := ⟨[1, 2], []⟩ }) = some [1, 2, 3] := by
  decide

/-- P3 steps 6 and 8: the remainder. -/
theorem test_rxRest : replyOf (exec .rxRest { capturedState [7, 8, 9] with rx := ⟨true, 1, ⟨0, macA⟩⟩ }) = some ⟨.ok, .rest [8, 9]⟩ := by
  decide

/-- T16: after reset. -/
theorem test_rxRewind_empty : replyOf (exec .rxRewind .reset) = some ⟨.eNoValue, .none⟩ := by decide

theorem test_rxRewind : look (fun t => t.rx.pos) (exec .rxRewind { capturedState [7, 8, 9] with rx := ⟨true, 2, ⟨0, macA⟩⟩ }) =
    some 0 := by decide

/-- 2.6: the request, sent once. -/
theorem test_arpStart : look (fun t => (t.mem.txb, t.arp.state))
    (exec (.arpStart 0 ip11 ip100 macL) { openState .all 42 [] with link := ⟨[], [.ok], [], [], 0⟩ }) =
      some (frameRequest, .awaitingReply) := by decide

/-- A9: the link refuses; the writes stand. -/
theorem test_arpStart_refused : look (fun t => (t.mem.txb, t.arp.state, t.arp.err))
    (exec (.arpStart 0 ip11 ip100 macL) { openState .all 42 [] with link := ⟨[], [.fail], [], [], 0⟩ }) =
      some (frameRequest, .failed, .eIo) := by decide

/-- S9, A1. -/
theorem test_arpPoll : replyOf (exec .arpPoll { openState .all 42 [.frame frameA1 ⟨0, macA⟩] with
    arp := ⟨.awaitingReply, 0, Mac.zero, .ok⟩ }) = some ⟨.ok, .mac ⟨2, 3, 4, 5, 6, 7⟩⟩ := by decide

/-- A2: cut to 41 bytes. -/
theorem test_arpPoll_short : look (fun t => (t.reply, t.arp.state)) (exec .arpPoll { openState .all 41 [.frame frameA1 ⟨0, macA⟩] with
    arp := ⟨.awaitingReply, 0, Mac.zero, .ok⟩ }) = some (some ⟨.eNoMatch, .none⟩, .awaitingReply) := by decide

/-- 2.7: F2 counted beside protocol 1. -/
theorem test_anaStep : replyOf (exec (.anaStep 0) { openState (.single 0x0800) 64 [.frame frameF2 ⟨0, macA⟩] with tally := [(1, 1)] }) =
    some ⟨.ok, .tally [(1, 1), (6, 1)]⟩ := by decide

/-- 2.7: F3 is reported and skipped. -/
theorem test_anaStep_skip : look (fun t => (t.reply, t.tally, t.rx.pos)) (exec (.anaStep 0)
    { openState (.single 0x0800) 64 [.frame frameF3 ⟨0, macA⟩] with tally := [(1, 1)] }) =
      some (some ⟨.eTrunc, .frameSkipped⟩, [(1, 1)], 14) := by decide

theorem test_fltSet : look State.flt (exec (.fltSet (some macA) none none (some ip11)) .reset) =
    some ⟨some macA, none, none, some ip11⟩ := by decide

/-- 2.7: F1 with the destination 10.0.0.5, and its record. -/
theorem test_fltStep : replyOf (exec (.fltStep 0)
    { openState (.single 0x0800) 64 [.frame frameF1 ⟨0, macA⟩] with flt := ⟨none, none, none, some ⟨10, 0, 0, 5⟩⟩ }) =
      some ⟨.ok, .isMatch ⟨4, 24, 0, 36, 0x0042, false, false, 0, 63, 1, 0x6489, ⟨10, 0, 0, 9⟩, ⟨10, 0, 0, 5⟩, some [1, 1, 1, 0],
        [0, 0, 0x0E, 0xFA, 0x12, 0x34, 0, 1, 0x70, 0x69, 0x6E, 0x67]⟩⟩ := by decide

/-- 2.7: F2 does not match it. -/
theorem test_fltStep_no_match : replyOf (exec (.fltStep 0)
    { openState (.single 0x0800) 64 [.frame frameF2 ⟨0, macA⟩] with flt := ⟨none, none, none, some ⟨10, 0, 0, 5⟩⟩ }) =
      some ⟨.ok, .noMatch⟩ := by decide

/-- X7: reset ends a blocked operation without a status. -/
theorem test_reset_ends_waiting : look (fun t => (t.busy, t.reply, t.openSlot 0))
    (step { openState .all 16 [] with busy := some (.sockRecv 0), host := [.reset] }) = some (none, none, none) := by decide

/-- A command waits while an operation is in progress. -/
theorem test_step_busy : look (fun t => (t.busy, t.host))
    (step { openState .all 16 [] with busy := some (.sockRecv 0), host := [.issue ⟨0x48, []⟩] }) =
      some (some (.sockRecv 0), [.issue ⟨0x48, []⟩]) := by decide

/-- A word of the opcode table runs as the first operation after reset. -/
theorem test_withFetchWord : look (fun t => t.ip4.valid) (step (State.reset.withFetchWord 8 0x20)) = some true ∧
    decodeTableWord 8 0x20 = some (.ipNew 0) ∧ decodeTableWord 8 0x13 = none := by decide

/-! ### Witnesses: for every obligation with hypotheses, a state and operands that meet them, clause by clause -/

/-- A full transmit buffer. -/
def fullState : State := { State.reset with mem := ⟨List.replicate Config.txCap 0, []⟩ }

theorem fullState_txlen : fullState.txlen = Config.txCap := List.length_replicate

/-- Slot 0 open with capacity 42, awaiting an ARP reply over it, the link about to answer as given. -/
def waitingState (inbound : List RecvAnswer) : State :=
  { openState .all 42 inbound with arp := ⟨.awaitingReply, 0, Mac.zero, .ok⟩ }

theorem test_witness_ChecksumZeroPadsOddLength : ([7] : List Byte).length % 2 = 1 := rfl

theorem test_witness_ChecksumSelfConsistent : ([] : List Byte).length % 2 = 0 ∧ ([1, 2] : List Byte).length % 2 = 0 := ⟨rfl, rfl⟩

theorem test_witness_EthHeaderRoundTrip : 14 ≤ (frameF2.take 14).length := by decide

/-- Both ends of the header length; a sequence that decodes. -/
theorem test_witness_Ip4HeaderRoundTrip :
    headerI2.wf = true ∧ ({ headerI2 with hlen := 60, tlen := 60, opts := zeros 40 } : Ip4Header).wf = true ∧
      ipDecode bytesI2 = .ok { headerI2 with csum := 0x793A } [] := by decide

/-- With the pair and without. -/
theorem test_witness_IcmpHeaderRoundTrip :
    (⟨8, 0, 0, 1, 1⟩ : IcmpHeader).wf = true ∧ (⟨3, 1, 0, 0, 0⟩ : IcmpHeader).wf = true ∧
      icmpDecode [8, 0, 0xF7, 0xFD, 0, 1, 0, 1] = .ok ⟨8, 0, 0xF7FD, 1, 1⟩ [] ∧
      icmpDecode [3, 1, 0xFC, 0xFE] = .ok ⟨3, 1, 0xFCFE, 0, 0⟩ [] := by decide

/-- The codec of one byte. -/
def byteCodec : Codec Byte where
  decode b := match b with
    | [] => .err .eTrunc
    | x :: r => .ok x r
  encode x := [x]

/-- It round-trips; it refuses the empty sequence at once, and as the second codec of two. -/
theorem test_witness_ComposedCodecRoundTrip :
    (∀ (x : Byte) (tail : List Byte), True → byteCodec.decode (byteCodec.encode x ++ tail) = .ok x tail) ∧
      byteCodec.decode [] = .err .eTrunc ∧ byteCodec.decode [5] = .ok 5 [] := ⟨fun _ _ _ => rfl, rfl, rfl⟩

/-- Both decodes succeed; the first fails with 13 bytes; the second fails on a bad nibble and with no byte left. -/
theorem test_witness_Dec2IsComposedDecode :
    (capturedState frameF2).rx.valid = true ∧ (capturedState frameF2).remainder = some frameF2 ∧
      (∃ e h, (ethCodec.seq ipCodec).decode frameF2 = .ok (e, h) []) ∧
      (capturedState (frameF2.take 13)).remainder = some (frameF2.take 13) ∧
      (ethCodec.seq ipCodec).decode (frameF2.take 13) = .err .eTrunc ∧
      (capturedState (frameF2.take 14)).remainder = some (frameF2.take 14) ∧
      (ethCodec.seq ipCodec).decode (frameF2.take 14) = .err .eTrunc ∧
      ethDecode (frameF2.take 14) = .ok ⟨macL, macA, 0x0800⟩ [] :=
  ⟨rfl, rfl, ⟨⟨macL, macA, 0x0800⟩, { ipNewHeader 2 with proto := 6, csum := 0x26D4, src := ⟨10, 0, 0, 9⟩, dst := ⟨10, 0, 0, 6⟩ },
    by decide⟩, rfl, by decide, rfl, by decide, by decide⟩

/-- Nothing captured; 13 bytes left; exactly 14. -/
theorem test_witness_EthDecReadsAtCursor :
    State.reset.rx.valid = false ∧
      (let s := capturedState (frameF2.take 13)
       s.rx.valid = true ∧ s.rx.pos ≤ s.rxlen ∧ s.rxlen - s.rx.pos < 14) ∧
      (let s := capturedState (frameF2.take 14)
       s.rx.valid = true ∧ s.rx.pos + 14 ≤ s.rxlen) := by decide

/-- Nothing loaded; no room; room in an empty buffer. -/
theorem test_witness_EthEncAppendsHeader :
    State.reset.eth.valid = false ∧
      (let s : State := { fullState with eth := ⟨true, ⟨macA, macB, 0x0800⟩⟩ }
       s.eth.valid = true ∧ s.txlen + 14 > Config.txCap) ∧
      (let s : State := { State.reset with eth := ⟨true, ⟨macA, macB, 0x0800⟩⟩ }
       s.eth.valid = true ∧ s.txlen + 14 ≤ Config.txCap) :=
  ⟨rfl, ⟨rfl, by rw [show ({ fullState with eth := ⟨true, ⟨macA, macB, 0x0800⟩⟩ } : State).txlen = Config.txCap from fullState_txlen]; omega⟩,
    rfl, by decide⟩

theorem test_witness_IpSettersChangeOneField :
    State.reset.ip4.valid = false ∧ (ipState headerI2).ip4.valid = true := ⟨rfl, rfl⟩

/-- No value; one byte over each bound; exactly at both bounds (I5 and a total length of 65535 after 4 bytes more). -/
theorem test_witness_IpAppendOptPadsAndGrows :
    State.reset.ip4.valid = false ∧
      (let s := ipState { headerI2 with hlen := 60, tlen := 60, opts := zeros 40 }
       s.ip4.valid = true ∧ s.ip4.hdr.hlen + (1 + 3) / 4 * 4 > 60) ∧
      (let s := ipState { headerI2 with tlen := 0xFFFC }
       s.ip4.valid = true ∧ s.ip4.hdr.tlen.toNat + (1 + 3) / 4 * 4 > 0xFFFF) ∧
      (let s := ipState { headerI2 with tlen := 0xFFFB }
       s.ip4.valid = true ∧ s.ip4.hdr.hlen + (4 + 3) / 4 * 4 ≤ 60 ∧ s.ip4.hdr.tlen.toNat + (4 + 3) / 4 * 4 ≤ 0xFFFF) ∧
      (let s := ipState headerI2
       s.ip4.valid = true ∧ s.ip4.hdr.hlen + (40 + 3) / 4 * 4 ≤ 60 ∧ s.ip4.hdr.tlen.toNat + (40 + 3) / 4 * 4 ≤ 0xFFFF) := by decide

theorem test_witness_IpChecksumStoresHeaderChecksum :
    State.reset.ip4.valid = false ∧ (ipState headerI2).ip4.valid = true := ⟨rfl, rfl⟩

/-- Nothing captured; 19 bytes; a header length of 16, a total length of 19; 20 bytes where the header has 24; the least header. -/
theorem test_witness_IpDecDecodesRemainder :
    State.reset.rx.valid = false ∧ (bytesI2.take 19).length < 20 ∧
      (let s := capturedState bytesI2
       let b := s.mem.rxb.drop s.rx.pos
       s.rx.valid = true ∧ s.rx.pos ≤ s.rxlen ∧ 20 ≤ (byteAt b 0).toNat % 16 * 4 ∧
        (byteAt b 0).toNat % 16 * 4 ≤ (be16 b 2).toNat ∧ (byteAt b 0).toNat % 16 * 4 ≤ b.length) ∧
      (byteAt (0x44 :: bytesI2.tail) 0).toNat % 16 * 4 < 20 ∧ (be16 (bytesI2.set 3 0x13) 2).toNat < 20 ∧
      (let b := 0x46 :: (bytesI2.tail.set 2 0x18)
       20 ≤ b.length ∧ (byteAt b 0).toNat % 16 * 4 ≤ (be16 b 2).toNat ∧ b.length < (byteAt b 0).toNat % 16 * 4) := by decide

/-- No value; no room; room. -/
theorem test_witness_IpEncAppendsHeader :
    State.reset.ip4.valid = false ∧
      (let s : State := { fullState with ip4 := ⟨true, headerI2⟩ }
       s.ip4.valid = true ∧ s.ip4.hdr.wf = true ∧ s.txlen + s.ip4.hdr.hlen > Config.txCap) ∧
      (let s := ipState headerI2
       s.ip4.valid = true ∧ s.ip4.hdr.wf = true ∧ s.txlen + s.ip4.hdr.hlen ≤ Config.txCap) :=
  ⟨rfl, ⟨rfl, by decide, by
      rw [show ({ fullState with ip4 := ⟨true, headerI2⟩ } : State).txlen = Config.txCap from fullState_txlen]
      exact Nat.lt_add_of_pos_right (by decide)⟩, rfl, by decide, by decide⟩

/-- The least and the greatest header; each of the four tests failing by one. -/
theorem test_witness_IpLoadChecksInvariant :
    let good (hlen : Nat) (tlen : U16) (opts : List Byte) : Prop :=
      hlen % 4 = 0 ∧ 20 ≤ hlen ∧ hlen ≤ 60 ∧ opts.length = hlen - 20 ∧ hlen ≤ tlen.toNat
    good 20 20 [] ∧ good 60 60 (zeros 40) ∧ ¬ good 22 22 (zeros 2) ∧ ¬ good 16 20 [] ∧ ¬ good 64 64 (zeros 44) ∧ ¬ good 24 24 [] ∧
      ¬ good 20 19 [] := by decide

/-- Nothing captured; 3 bytes; a type of the family with 7 bytes and with 8; another type with 4. -/
theorem test_witness_IcmpDecReadsAtCursor :
    State.reset.rx.valid = false ∧ (capturedState [8, 0, 0]).rx.valid = true ∧
      (capturedState [8, 0, 0]).rx.pos ≤ (capturedState [8, 0, 0]).rxlen ∧ ([8, 0, 0] : List Byte).length < 4 ∧
      hasPair (byteAt [8, 0, 0, 0, 0, 1, 0] 0) = true ∧ ([8, 0, 0, 0, 0, 1, 0] : List Byte).length < 8 ∧
      8 ≤ ([8, 0, 0, 0, 0, 1, 0, 1] : List Byte).length ∧ hasPair (byteAt [8, 0, 0, 0, 0, 1, 0, 1] 0) = true ∧
      4 ≤ ([3, 1, 0, 0] : List Byte).length ∧ hasPair (byteAt [3, 1, 0, 0] 0) = false := by decide

/-- No value; no room; room. -/
theorem test_witness_IcmpEncAppendsHeader :
    State.reset.icmp.valid = false ∧
      (let s : State := { fullState with icmp := ⟨true, ⟨8, 0, 0, 1, 1⟩⟩ }
       s.icmp.valid = true ∧ s.txlen + (icmpEncode s.icmp.hdr).length > Config.txCap) ∧
      (let s := icmpState ⟨8, 0, 0, 1, 1⟩
       s.icmp.valid = true ∧ s.txlen + (icmpEncode s.icmp.hdr).length ≤ Config.txCap) :=
  ⟨rfl, ⟨rfl, by
      rw [show ({ fullState with icmp := ⟨true, ⟨8, 0, 0, 1, 1⟩⟩ } : State).txlen = Config.txCap from fullState_txlen]
      exact Nat.lt_add_of_pos_right (by decide)⟩, rfl, by decide⟩

theorem test_witness_IcmpChecksumCoversPayload :
    State.reset.icmp.valid = false ∧ (icmpState ⟨8, 0, 0, 1, 1⟩).icmp.valid = true := ⟨rfl, rfl⟩

theorem test_witness_StoredChecksumsVerify :
    (ipState headerI2).ip4.valid = true ∧ (∃ t, exec .ipChecksum (ipState headerI2) = .next t) ∧
      (icmpState ⟨8, 0, 0, 1, 1⟩).icmp.valid = true ∧
      ∃ t, exec (.icmpChecksum [0x61, 0x62, 0x63]) (icmpState ⟨8, 0, 0, 1, 1⟩) = .next t := ⟨rfl, ⟨_, rfl⟩, rfl, ⟨_, rfl⟩⟩

/-- The first slot that does not exist; an open slot; a capacity one too large; and the least index and largest capacity accepted, with each
answer and with none. -/
theorem test_witness_SockOpenOpensSlot :
    Config.nsock ≤ 2 ∧ ((openState .all 7 []).openSlot 0).isSome = true ∧ Config.capMax < Config.capMax + 1 ∧ 0 < Config.nsock ∧
      1 < Config.nsock ∧ (State.reset.openSlot 0).isSome = false ∧ Config.capMax ≤ Config.capMax ∧
      ({ State.reset with link := ⟨[.ok], [], [], [], 0⟩ } : State).link.openAcks = .ok :: [] ∧
      ({ State.reset with link := ⟨[.fail], [], [], [], 0⟩ } : State).link.openAcks = .fail :: [] ∧ State.reset.link.openAcks = [] :=
  ⟨by decide, by decide, Nat.lt_succ_self _, by decide, by decide, by decide, Nat.le_refl _, rfl, rfl, rfl⟩

/-- A closed slot; an open one with each answer and with none. -/
theorem test_witness_SockSendHandsOverFrame :
    (State.reset.openSlot 0).isSome = false ∧
      ∀ acks ∈ [[LinkAck.ok], [LinkAck.fail], []],
        (({ openState .all 42 [] with link := ⟨[], acks, [], [], 0⟩ } : State).openSlot 0).isSome = true := by decide

theorem delivers_F2 : (openState (.single 0x0800) 64 [.frame frameA1 ⟨0, macB⟩, .frame frameF2 ⟨0, macA⟩]).Delivers 0
    ⟨true, .single 0x0800, 64⟩ [.frame frameA1 ⟨0, macB⟩] frameF2 ⟨0, macA⟩ [] where
  slotOpen := rfl
  script := rfl
  dropped := by
    intro a ha
    rw [List.mem_singleton] at ha
    exact ⟨frameA1, ⟨0, macB⟩, ha, by decide⟩
  passes := by decide

theorem fails_after_A1 : (openState (.single 0x0800) 64 [.frame frameA1 ⟨0, macB⟩, .fail]).LinkFails 0 ⟨true, .single 0x0800, 64⟩
    [.frame frameA1 ⟨0, macB⟩] [] where
  slotOpen := rfl
  script := rfl
  dropped := by
    intro a ha
    rw [List.mem_singleton] at ha
    exact ⟨frameA1, ⟨0, macB⟩, ha, by decide⟩

/-- The end of what the link has ready after a dropped frame. -/
theorem unanswered_after_A1 : (openState (.single 0x0800) 64 [.frame frameA1 ⟨0, macB⟩]).NoAnswer 0 ⟨true, .single 0x0800, 64⟩
    [.frame frameA1 ⟨0, macB⟩] [] where
  slotOpen := rfl
  script := .inr ⟨rfl, rfl⟩
  dropped := by
    intro a ha
    rw [List.mem_singleton] at ha
    exact ⟨frameA1, ⟨0, macB⟩, ha, by decide⟩

/-- A closed slot; each outcome after one dropped frame. -/
theorem test_witness_SockRecvCapturesFirstPassing :
    (State.reset.openSlot 0).isSome = false ∧
      (∃ s : State, ∃ slot d f src r, s.Delivers 0 slot d f src r) ∧ (∃ s : State, ∃ slot d r, s.LinkFails 0 slot d r) ∧
      (∃ s : State, ∃ slot d r, s.NoAnswer 0 slot d r) ∧
      (openState .all 16 [.silence, .fail]).NoAnswer 0 ⟨true, .all, 16⟩ [] [.fail] :=
  ⟨by decide, ⟨_, _, _, _, _, _, delivers_F2⟩, ⟨_, _, _, _, fails_after_A1⟩, ⟨_, _, _, _, unanswered_after_A1⟩,
    ⟨rfl, .inl rfl, fun _ h => (List.not_mem_nil h).elim⟩⟩

/-- Exactly full, and one byte more. -/
theorem test_witness_TxBufferOperations :
    fullState.txlen + ([] : List Byte).length ≤ Config.txCap ∧ Config.txCap < fullState.txlen + ([1] : List Byte).length := by
  rw [fullState_txlen]
  simp

theorem test_witness_RxBufferOperations :
    State.reset.rx.valid = false ∧
      (let s : State := { capturedState [7] with rx := ⟨true, 1, ⟨0, macA⟩⟩ }
       s.rx.valid = true ∧ s.rx.pos ≤ s.rxlen) := by decide

/-- Each of the four operations ends `OK`. -/
theorem test_witness_AppendTouchesOnlyItsBytes :
    (∃ t, exec .ethEnc { State.reset with eth := ⟨true, ⟨macA, macB, 0x0800⟩⟩ } = .next t ∧ t.reply = some ⟨.ok, .none⟩) ∧
      (∃ t, exec .ipEnc (ipState headerI2) = .next t ∧ t.reply = some ⟨.ok, .none⟩) ∧
      (∃ t, exec .icmpEnc (icmpState ⟨8, 0, 0, 1, 1⟩) = .next t ∧ t.reply = some ⟨.ok, .none⟩) ∧
      ∃ t, exec (.txAppend [1]) .reset = .next t ∧ t.reply = some ⟨.ok, .none⟩ :=
  ⟨⟨_, rfl, rfl⟩, ⟨_, rfl, rfl⟩, ⟨_, rfl, rfl⟩, ⟨_, rfl, rfl⟩⟩

/-- The cursor one beyond the capture. -/
theorem test_witness_CursorBeyondCaptureFaults :
    let s : State := { capturedState [7] with rx := ⟨true, 2, ⟨0, macA⟩⟩ }
    s.rx.valid = true ∧ s.rxlen < s.rx.pos := by decide

theorem test_witness_ArpStartSendsOnce :
    (State.reset.openSlot 0).isSome = false ∧
      ∀ acks ∈ [[LinkAck.ok], [LinkAck.fail], []],
        (({ openState .all 42 [] with link := ⟨[], acks, [], [], 0⟩ } : State).openSlot 0).isSome = true := by decide

/-- No exchange; a reply of 42 bytes; a frame that is none; a failure; a closed slot; no answer. -/
theorem test_witness_ArpPollJudgesOneFrame :
    State.reset.arp.state ≠ .awaitingReply ∧
      (let s := waitingState [.frame frameA1 ⟨0, macA⟩]
       s.arp.state = .awaitingReply ∧ s.Delivers s.arp.sock ⟨true, .all, 42⟩ [] frameA1 ⟨0, macA⟩ [] ∧
        42 ≤ (frameA1.take 42).length ∧ byteAt (frameA1.take 42) 20 = 0x00 ∧ byteAt (frameA1.take 42) 21 = 0x02) ∧
      (let s := waitingState [.frame frameRequest ⟨0, macA⟩]
       s.arp.state = .awaitingReply ∧ s.Delivers s.arp.sock ⟨true, .all, 42⟩ [] frameRequest ⟨0, macA⟩ [] ∧
        byteAt (frameRequest.take 42) 21 = 0x01) ∧
      (let s := waitingState [.fail]
       s.arp.state = .awaitingReply ∧ s.LinkFails s.arp.sock ⟨true, .all, 42⟩ [] []) ∧
      (let s : State := { State.reset with arp := ⟨.awaitingReply, 0, Mac.zero, .ok⟩ }
       s.arp.state = .awaitingReply ∧ (s.openSlot s.arp.sock).isSome = false) ∧
      (let s := waitingState []
       s.arp.state = .awaitingReply ∧ s.NoAnswer s.arp.sock ⟨true, .all, 42⟩ [] []) :=
  ⟨by decide, ⟨rfl, ⟨rfl, rfl, fun _ h => (List.not_mem_nil h).elim, rfl⟩, by decide, by decide, by decide⟩,
    ⟨rfl, ⟨rfl, rfl, fun _ h => (List.not_mem_nil h).elim, rfl⟩, by decide⟩,
    ⟨rfl, ⟨rfl, rfl, fun _ h => (List.not_mem_nil h).elim⟩⟩, ⟨rfl, by decide⟩,
    ⟨rfl, ⟨rfl, .inl rfl, fun _ h => (List.not_mem_nil h).elim⟩⟩⟩

/-- A link that brings the same frame for ever. -/
theorem foreign_for_ever {P : RecvAnswer → Prop} {f : List Byte} {src : LinkAddr} (h : P (.frame f src)) :
    ∀ a ∈ ([] : List RecvAnswer) ++ [.frame f src], P a := by
  intro a ha
  rw [List.nil_append, List.mem_singleton] at ha
  exact ha ▸ h

/-- P2: an exchange that ends, with one foreign frame and a silence before the reply; and a link that brings its own request back for ever. -/
theorem test_witness_ArpResolveOutcomes : (∃ t, runArpResolve 4 0 ip11 ip100 macL
    { openState .all 42 [] with
      link := ⟨[], [.ok], [.frame frameRequest ⟨0, macA⟩, .silence, .frame frameA1 ⟨0, macA⟩], [], 0⟩ } = .ended t) ∧
    (let s : State := { openState .all 42 [] with link := ⟨[], [.ok], [], [.frame frameRequest ⟨0, macA⟩], 0⟩ }
     s.openSlot 0 = some ⟨true, .all, 42⟩ ∧ s.link.sendAcks = .ok :: [] ∧ s.link.NeverReplies ⟨true, .all, 42⟩) :=
  ⟨⟨_, rfl⟩, rfl, rfl, ⟨by simp, foreign_for_ever (.inr ⟨_, _, rfl, by decide⟩)⟩⟩

/-- A capacity of 41, and a poll that ends. -/
theorem test_witness_ArpNeedsCapacity42 :
    let s : State := { openState .all 41 [.frame frameA1 ⟨0, macA⟩] with arp := ⟨.awaitingReply, 0, Mac.zero, .ok⟩ }
    s.openSlot s.arp.sock = some ⟨true, .all, 41⟩ ∧ ∃ t r, exec .arpPoll s = .next t ∧ t.reply = some r := ⟨rfl, _, _, rfl, rfl⟩

/-- A closed slot; each outcome of the receive; the three ways a captured frame goes. -/
theorem test_witness_AnaStepCountsProtocol :
    (State.reset.openSlot 0).isSome = false ∧ (∃ s : State, ∃ slot d r, s.LinkFails 0 slot d r) ∧
      (∃ s : State, ∃ slot d r, s.NoAnswer 0 slot d r) ∧ (∃ s : State, ∃ slot d f src r, s.Delivers 0 slot d f src r) ∧
      (frameF2.take 13).length < 14 ∧
      (∃ e r, ethDecode frameF3 = .ok e r ∧ ipDecode r = .err .eTrunc) ∧
      ∃ e r h, ethDecode frameF2 = .ok e r ∧ ipDecode r = .ok h [] :=
  ⟨by decide, ⟨_, _, _, _, fails_after_A1⟩, ⟨_, _, _, _, unanswered_after_A1⟩, ⟨_, _, _, _, _, _, delivers_F2⟩, by decide,
    ⟨_, _, rfl, by decide⟩, ⟨_, _, _, rfl, rfl⟩⟩

theorem test_witness_TallyAddCountsOne :
    ([(1, 2), (6, 1)] : Tally).Pairwise fun a b => a.1.toNat < b.1.toNat := by decide

/-- As for `ANA.STEP`; a header that matches a predicate and one that does not. -/
theorem test_witness_FltStepReportsMatch :
    (State.reset.openSlot 0).isSome = false ∧ (∃ s : State, ∃ slot d r, s.LinkFails 0 slot d r) ∧
      (∃ s : State, ∃ slot d r, s.NoAnswer 0 slot d r) ∧ (∃ s : State, ∃ slot d f src r, s.Delivers 0 slot d f src r) ∧
      (frameF2.take 13).length < 14 ∧
      (∃ e r, ethDecode frameF3 = .ok e r ∧ ipDecode r = .err .eTrunc) ∧
      (∃ e r h, ethDecode frameF2 = .ok e r ∧ ipDecode r = .ok h [] ∧ fltMatch ⟨none, none, none, none⟩ e h = true ∧
        fltMatch ⟨none, none, none, some ⟨10, 0, 0, 5⟩⟩ e h = false) :=
  ⟨by decide, ⟨_, _, _, _, fails_after_A1⟩, ⟨_, _, _, _, unanswered_after_A1⟩, ⟨_, _, _, _, _, _, delivers_F2⟩, by decide,
    ⟨_, _, rfl, by decide⟩, ⟨_, _, _, rfl, rfl, by decide, by decide⟩⟩

/-- Power-on; a reset out of a busy state. -/
theorem test_witness_ResetValues :
    State.reset = State.reset ∧ ∃ s u : State, s = u.applyReset ∧ u.busy = some (.sockRecv 0) :=
  ⟨rfl, _, { openState .all 7 [] with busy := some (.sockRecv 0) }, rfl, rfl⟩

/-- A command to run; an operation in progress with a command waiting; nothing to do. -/
theorem test_witness_StepRunsIssuedOperation :
    (let s : State := { State.reset with host := [.issue ⟨0x26, []⟩] }
     s.busy = none ∧ s.host = .issue ⟨0x26, []⟩ :: [] ∧ decode ⟨0x26, []⟩ = .instr .ipDec) ∧
    (let s : State := { State.reset with busy := some (.sockRecv 0), host := [.issue ⟨0x26, []⟩] }
     s.busy = some (.sockRecv 0) ∧ ∀ rest, s.host ≠ .reset :: rest) ∧
    State.reset.busy = none ∧ State.reset.host = [] :=
  ⟨⟨rfl, rfl, rfl⟩, ⟨rfl, fun _ h => by cases h⟩, rfl, rfl⟩

theorem test_witness_UnassignedSelectorChangesNothing :
    let s : State := { State.reset with host := [.issue ⟨0x13, []⟩] }
    s.busy = none ∧ s.host = .issue ⟨0x13, []⟩ :: [] ∧
      (0x13#8).toNat ∉ [0x01, 0x10, 0x11, 0x12, 0x20, 0x21, 0x22, 0x23, 0x24, 0x25, 0x26, 0x27, 0x28, 0x30, 0x31, 0x32, 0x33, 0x40, 0x41,
        0x42, 0x48, 0x49, 0x4A, 0x4B, 0x50, 0x51, 0x60, 0x68, 0x69] := ⟨rfl, rfl, by decide⟩

theorem test_witness_CommandRoundTrip :
    (Instr.sockSend 0 ⟨0, macA⟩).wf = true ∧ decode ⟨0x41, [.slot 0, .linkaddr ⟨0, macA⟩]⟩ = .instr (.sockSend 0 ⟨0, macA⟩) :=
  ⟨rfl, rfl⟩

/-- After reset every need is unmet: a value, a captured frame, an open slot, an exchange. -/
theorem test_witness_UnpreparedOperationRaises :
    missing .ipEnc .reset = some .eNoValue ∧ missing .ethDec .reset = some .eNoValue ∧ missing (.sockRecv 0) .reset = some .eInval ∧
      missing (.sockRecv 2) .reset = some .eInval ∧ missing .arpPoll .reset = some .eInval := by decide

/-- A state in the middle of work: a frame captured and half decoded, both checksums fresh, an exchange waiting, a tally, a command. -/
def workState : State :=
  { State.reset with
    eth := ⟨true, ⟨macL, macA, 0x0800⟩⟩
    ip4 := ⟨true, { headerI2 with csum := 0x793A }⟩
    icmp := ⟨true, ⟨8, 0, 0x339B, 1, 1⟩⟩
    mem := ⟨[1, 2], frameF2⟩
    rx := ⟨true, 14, ⟨0, macA⟩⟩
    sock := #v[⟨true, .all, 42⟩, ⟨false, .all, 0⟩]
    arp := ⟨.awaitingReply, 0, Mac.zero, .ok⟩
    tally := [(1, 2), (6, 1)]
    ghost := ⟨true, true, [0x61, 0x62, 0x63]⟩
    link := ⟨[.ok], [.fail], [.frame frameA1 ⟨0, macB⟩], [], 0⟩
    host := [.issue ⟨0x26, []⟩] }

theorem workState_inv : workState.Inv where
  mem := by decide
  rxEmpty := fun h => by cases h
  cursor := by decide
  ip4 := fun _ => by decide
  icmp := fun _ => by decide
  slots := by
    intro k slot h
    obtain ⟨hk, rfl, ho⟩ := State.openSlot_eq_some_iff.1 h
    rcases k with _ | _ | k
    · exact Nat.le_add_left _ _
    · cases ho
    · exact absurd hk (by simp [Config.nsock])
  arpWait := fun _ => by decide
  arpErr := fun h => by cases h
  tallyKeys := by decide
  tallyCounts := by decide
  inbound := by
    intro f src h
    rw [show workState.link.inbound ++ workState.link.cycle = [.frame frameA1 ⟨0, macB⟩] from rfl, List.mem_singleton] at h
    cases h
    rfl
  rxSrc := rfl
  busy := fun _ h => by cases h

theorem workState_fresh : workState.FreshInv where
  ip := fun _ => by decide
  icmp := fun _ => by decide

theorem test_witness_OperationEndsOrWaits : workState.Inv := workState_inv

theorem test_witness_GoodStatesNeverFault : workState.Inv := workState_inv

theorem test_witness_StepKeepsInvariant : workState.Inv ∧ ∃ t, step workState = .next t := ⟨workState_inv, _, rfl⟩

theorem test_witness_StepKeepsFreshness : workState.FreshInv ∧ ∃ t, step workState = .next t := ⟨workState_fresh, _, rfl⟩

theorem test_witness_FreshEncodesVerify :
    workState.Inv ∧ workState.FreshInv ∧ workState.ghost.ipFresh = true ∧
      workState.txlen + workState.ip4.hdr.hlen ≤ Config.txCap ∧ workState.ghost.icmpFresh = true ∧
      workState.txlen + (if hasPair workState.icmp.hdr.type then 8 else 4) + workState.ghost.icmpOver.length ≤ Config.txCap :=
  ⟨workState_inv, workState_fresh, rfl, by decide, rfl, by decide⟩

/-- An answer, and a receive still waiting. -/
theorem test_witness_StatusesKeepToMatrix :
    (∃ t r, exec (.sockRecv 0) (openState .all 42 [.fail]) = .next t ∧ t.reply = some r) ∧
      ∃ t, exec (.sockRecv 0) (openState .all 42 []) = .next t ∧ t.reply = none := ⟨⟨_, _, rfl, rfl⟩, _, rfl, rfl⟩

/-- An error with nothing changed, and each of the four kinds that change something. -/
theorem test_witness_ErrorsChangeNothing :
    (∃ t r, exec .ipEnc .reset = .next t ∧ t.reply = some r ∧ r.status ≠ .ok) ∧
      (∃ t r, exec (.arpStart 0 ip11 ip100 macL) { openState .all 42 [] with link := ⟨[], [.fail], [], [], 0⟩ } = .next t ∧
        t.reply = some r ∧ r.status ≠ .ok) ∧
      (∃ t r, exec .arpPoll (waitingState [.fail]) = .next t ∧ t.reply = some r ∧ r.status ≠ .ok) ∧
      (∃ t r, exec .arpPoll (waitingState [.frame frameRequest ⟨0, macA⟩]) = .next t ∧ t.reply = some r ∧ r.status ≠ .ok) ∧
      ∃ t r, exec (.anaStep 0) (openState .all 42 [.frame frameF3 ⟨0, macA⟩]) = .next t ∧ t.reply = some r ∧ r.status ≠ .ok :=
  ⟨⟨_, _, rfl, rfl, by decide⟩, ⟨_, _, rfl, rfl, by decide⟩, ⟨_, _, rfl, rfl, by decide⟩, ⟨_, _, rfl, rfl, by decide⟩,
    ⟨_, _, rfl, rfl, by decide⟩⟩

theorem test_witness_OnlyResetClears :
    ({ openState .all 7 [] with busy := some (.sockRecv 0), host := [.reset] } : State).host = .reset :: [] ∧ (∃ t, step workState = .next t) ∧ (∀ rest, workState.host ≠ .reset :: rest) ∧ workState.eth.valid = true ∧
      workState.ip4.valid = true ∧ workState.icmp.valid = true ∧ workState.rx.valid = true ∧
      workState.openSlot 0 = some ⟨true, .all, 42⟩ :=
  ⟨rfl, ⟨_, rfl⟩, fun _ h => (nomatch h), rfl, rfl, rfl, rfl, rfl⟩

theorem test_witness_WritersOfState : ∃ t, exec (.anaStep 0) workState = .next t := ⟨_, rfl⟩

/-- A poll that resolves and a start that begins to wait. -/
theorem test_witness_ArpTransitions :
    (∃ t, exec .arpPoll (waitingState [.frame frameA1 ⟨0, macA⟩]) = .next t ∧ t.arp.state = .resolved) ∧
      (∃ t, exec (.arpStart 0 ip11 ip100 macL) { openState .all 42 [] with link := ⟨[], [.ok], [], [], 0⟩ } = .next t ∧
        t.arp.state = .awaitingReply) ∧
      ∃ t, exec .txClear .reset = .next t ∧ t.arp.state = .idle := ⟨⟨_, rfl, rfl⟩, ⟨_, rfl, rfl⟩, ⟨_, rfl, rfl⟩⟩

theorem test_witness_RecordIsAppendOnly : ∃ t, exec (.sockSend 0 ⟨0, macA⟩) { openState .all 42 [] with
    link := ⟨[], [.ok], [], [], 0⟩ } = .next t ∧ LinkEvent.sent 0 [] ⟨0, macA⟩ .ok ∈ t.trace := ⟨_, rfl, by decide⟩

/-- A blocked `SOCK.RECV` over a silent link, and a blocked `ARP.POLL` over one that brings frames the filter drops for ever, a command
waiting behind each. -/
theorem test_witness_UnansweredReceiveNeverEnds :
    (let s : State := { openState .all 42 [] with busy := some (.sockRecv 0), host := [.issue ⟨0x48, []⟩] }
     s.busy = some (.sockRecv 0) ∧ s.reply = none ∧ s.openSlot 0 = some ⟨true, .all, 42⟩ ∧ (∀ rest, s.host ≠ .reset :: rest) ∧
      s.link.inbound = [] ∧ s.link.cycle = [.silence] ∧ s.link.NeverPasses .all) ∧
    (let s : State := { openState (.single 0x0800) 42 [] with
       arp := ⟨.awaitingReply, 0, Mac.zero, .ok⟩, busy := some .arpPoll, host := [.issue ⟨0x48, []⟩],
       link := ⟨[], [], [], [.frame frameA1 ⟨0, macA⟩], 0⟩ }
     s.arp.state = .awaitingReply ∧ s.arp.sock = 0 ∧ s.busy = some .arpPoll ∧ s.reply = none ∧
      s.openSlot 0 = some ⟨true, .single 0x0800, 42⟩ ∧ (∀ rest, s.host ≠ .reset :: rest) ∧ s.link.NeverPasses (.single 0x0800)) :=
  ⟨⟨rfl, rfl, rfl, fun _ h => (nomatch h), rfl, rfl, ⟨by decide, fun _ h => .inl (List.mem_singleton.1 h)⟩⟩, rfl, rfl, rfl, rfl, rfl,
    fun _ h => (nomatch h), ⟨by simp, foreign_for_ever (.inr ⟨_, _, rfl, by decide⟩)⟩⟩

end Sys2Proof.Tests
end

section
/-! PROOFS. The state reset leaves (10_state.md R32). -/

namespace Sys2Proof.Machine

/-! ### What the reset event does to the block's own state (70_reset_and_hazards.md R261) -/

section ApplyReset

variable (s : State)

@[simp] theorem State.applyReset_eth : s.applyReset.eth = State.reset.eth := rfl
@[simp] theorem State.applyReset_ip4 : s.applyReset.ip4 = State.reset.ip4 := rfl
@[simp] theorem State.applyReset_icmp : s.applyReset.icmp = State.reset.icmp := rfl
@[simp] theorem State.applyReset_mem : s.applyReset.mem = State.reset.mem := rfl
@[simp] theorem State.applyReset_rx : s.applyReset.rx = State.reset.rx := rfl
@[simp] theorem State.applyReset_sock : s.applyReset.sock = State.reset.sock := rfl
@[simp] theorem State.applyReset_arp : s.applyReset.arp = State.reset.arp := rfl
@[simp] theorem State.applyReset_tally : s.applyReset.tally = State.reset.tally := rfl
@[simp] theorem State.applyReset_flt : s.applyReset.flt = State.reset.flt := rfl
@[simp] theorem State.applyReset_lmac : s.applyReset.lmac = s.lmac := rfl
@[simp] theorem State.applyReset_ghost : s.applyReset.ghost = State.reset.ghost := rfl

@[simp] theorem State.applyReset_openSlot (k : Nat) : s.applyReset.openSlot k = none :=
  (State.openSlot_congr s.applyReset_sock k).trans (State.reset_openSlot k)

end ApplyReset

/-- The power-on state is what the reset event makes of it, so a fact about every `applyReset` covers power-on too. -/
theorem State.reset_applyReset : State.reset.applyReset = State.reset := rfl

/-- Settles O42: power-on is itself an outcome of the reset event, and that event takes each register of the table (R32) to its constant in
`State.reset` and keeps `LMAC`. -/
theorem resetValues : Obligations.ResetValues := by
  refine ⟨fun s hs => ?_, rfl, State.applyReset_lmac⟩
  obtain ⟨u, rfl⟩ : ∃ u : State, s = u.applyReset := by
    rcases hs with rfl | hu
    · exact ⟨State.reset, State.reset_applyReset.symm⟩
    · exact hu
  have hslots : ∀ k, u.applyReset.openSlot k = none := u.applyReset_openSlot
  refine ⟨?eth, ?ip4, ?icmp, ?txlen, ?rxValid, ?rxlen, ?rxPos, hslots, ?arp, ?tally, ?flt, ?ipFresh, ?icmpFresh⟩
  case txlen | rxlen => simp [State.txlen, State.rxlen, State.reset]
  all_goals simp [State.reset]

end Sys2Proof.Machine
end

section
/-! PROOFS. The Internet checksum: how an odd end is padded, what the fold leaves, and why a sequence that carries its own checksum sums to
`0xFFFF` (40_checksum.md R91 to R96). -/

namespace Sys2Proof.Machine

/-! ### The words of a sequence (R91, R95) -/

/-- A zero byte at the end adds nothing to the sum: after an odd byte it is the padding of R91, after an even length a word of its own. -/
theorem wordSum_append_zero (b : List Byte) : wordSum (b ++ [0]) = wordSum b := by
  induction b using wordSum.induct with
  | case1 => rfl
  | case2 hi => simp [wordSum]
  | case3 hi lo rest ih => simp only [List.cons_append, wordSum, ih]

/-- A 16-bit field at an even index is one whole word, so it adds its number whatever follows it. -/
theorem wordSum_field {before : List Byte} (heven : before.length % 2 = 0) (v : U16) (rest : List Byte) :
    wordSum (before ++ bytes16 v ++ rest) = wordSum before + v.toNat + wordSum rest := by
  have hfield : (before ++ bytes16 v).length % 2 = 0 := by
    rw [List.length_append, bytes16_length]
    omega
  rw [wordSum_append_even hfield, wordSum_append_even heven, wordSum_bytes16]

/-! ### The folded sum and the checksum (R91, R93) -/

/-- The checksum sees a sequence only through the sum of its words. -/
theorem csum16_congr {b b' : List Byte} (h : wordSum b = wordSum b') : csum16 b = csum16 b' := by
  simp only [csum16, foldedSum, h]

/-- The fold fits 16 bits, keeps the residue modulo `0xFFFF`, and is 0 only for a sum of 0. -/
theorem foldedSum_spec (b : List Byte) :
    foldedSum b ≤ 0xFFFF ∧ foldedSum b % 0xFFFF = wordSum b % 0xFFFF ∧ (foldedSum b = 0 ↔ wordSum b = 0) :=
  foldCarry_spec (wordSum b) (wordSum b) le_rfl

/-- A positive multiple of `0xFFFF` folds to `0xFFFF`, the residue 0 that is not the number 0. -/
theorem foldedSum_eq_allOnes {b : List Byte} (hpos : wordSum b ≠ 0) (hmod : wordSum b % 0xFFFF = 0) : foldedSum b = 0xFFFF := by
  obtain ⟨hle, hres, hzero⟩ := foldedSum_spec b
  omega

/-- As a number the checksum is what the folded sum lacks of `0xFFFF`. -/
theorem csum16_toNat (b : List Byte) : (csum16 b).toNat = 0xFFFF - foldedSum b := by
  obtain ⟨hle, -, -⟩ := foldedSum_spec b
  rw [csum16, BitVec.toNat_not, BitVec.toNat_ofNat]
  omega

/-- A sequence checksums to 0 when its words fold to `0xFFFF`. -/
theorem csum16_eq_zero {b : List Byte} (h : foldedSum b = 0xFFFF) : csum16 b = 0 :=
  BitVec.eq_of_toNat_eq (by simp [csum16_toNat, h])

/-- With the checksum of the zeroed sequence in the field the words sum to a multiple of `0xFFFF`; never to 0, for words that sum
to 0 have the checksum `0xFFFF` (R96). -/
theorem foldedSum_with_own_csum {before rest : List Byte} {c : U16} (heven : before.length % 2 = 0)
    (hc : c = csum16 (before ++ [0, 0] ++ rest)) : foldedSum (before ++ bytes16 c ++ rest) = 0xFFFF := by
  have hzeroed : wordSum (before ++ [0, 0] ++ rest) = wordSum before + wordSum rest := by
    rw [← bytes16_zero, wordSum_field heven]
    simp
  have hfield : wordSum (before ++ bytes16 c ++ rest) = wordSum before + c.toNat + wordSum rest := wordSum_field heven c rest
  have hcsum : c.toNat = 0xFFFF - foldedSum (before ++ [0, 0] ++ rest) := by rw [hc, csum16_toNat]
  obtain ⟨hle, hres, hzero⟩ := foldedSum_spec (before ++ [0, 0] ++ rest)
  exact foldedSum_eq_allOnes (by omega) (by omega)

/-! ### The operation `CSUM` (R92) -/

theorem exec_csum (buf : List Byte) (s : State) :
    exec (.csum buf) s = .next ((s.setAcc (foldedSum buf)).answered .ok (.csum (csum16 buf))) := rfl

/-! ### The obligations -/

/-- Settles O1: `CSUM` has one outcome, which writes the folded sum to `ACC` and answers. -/
theorem csumReturnsChecksum : Obligations.CsumReturnsChecksum :=
  fun buf s => ⟨rfl, foldedSum buf, exec_csum buf s⟩

/-- Settles O2: the two sequences have the same word sum, whatever the length, and the checksum sees nothing else. -/
theorem checksumZeroPadsOddLength : Obligations.ChecksumZeroPadsOddLength :=
  ⟨fun b _ => csum16_congr (wordSum_append_zero b).symm, by decide, by decide⟩

/-- Settles O4: with its own checksum in the field the sequence folds to `0xFFFF`, whose complement is 0. -/
theorem checksumSelfConsistent : Obligations.ChecksumSelfConsistent := by
  intro before rest heven
  have hfold := foldedSum_with_own_csum (rest := rest) heven rfl
  exact ⟨hfold, csum16_eq_zero hfold⟩

end Sys2Proof.Machine
end

section
/-! PROOFS. The Ethernet header: its codec as a bijection between header values and sequences of 14 bytes, and the three operations bound
to it (42_ether.md R110 to R116). -/

namespace Sys2Proof.Machine

/-! ### Consecutive fields of a sequence as slices (00_scope.md R7) -/

/-- A slice of bytes that exist starts with its first byte. -/
theorem slice_succ {b : List Byte} {i : Nat} (h : i < b.length) (n : Nat) :
    slice b i (n + 1) = byteAt b i :: slice b (i + 1) n := by
  rw [slice, List.drop_eq_getElem_cons h, List.take_succ_cons, ← byteAt_of_lt h, slice]

/-- Two adjacent slices are one. -/
theorem slice_append (b : List Byte) (i m n : Nat) : slice b i m ++ slice b (i + m) n = slice b i (m + n) := by
  simp only [slice, List.take_add, List.drop_drop]

/-- Encoding the hardware address read at an index gives back its six bytes. -/
theorem macBytes_macAt {b : List Byte} {i : Nat} (h : i + 6 ≤ b.length) : macBytes (macAt b i) = slice b i 6 := by
  iterate 6 rw [slice_succ (by omega)]
  simp [macBytes, macAt, slice]

/-- Encoding the number read at an index gives back its two bytes. -/
theorem bytes16_be16 {b : List Byte} {i : Nat} (h : i + 2 ≤ b.length) : bytes16 (be16 b i) = slice b i 2 := by
  iterate 2 rw [slice_succ (by omega)]
  simp [bytes16, be16, bytes16_high, bytes16_low, slice]

/-! ### The decode and the encode (R111, R112) -/

theorem ethDecode_of_short {b : List Byte} (h : b.length < 14) : ethDecode b = .err .eTrunc := if_pos h

theorem ethDecode_of_long {b : List Byte} (h : 14 ≤ b.length) :
    ethDecode b = .ok ⟨macAt b 0, macAt b 6, be16 b 12⟩ (b.drop 14) := if_neg (Nat.not_lt.2 h)

/-- The decode of what is left from a cursor on reads the fields at the cursor's own offsets. -/
theorem ethDecode_drop {b : List Byte} {pos : Nat} (h : pos + 14 ≤ b.length) :
    ethDecode (b.drop pos) = .ok ⟨macAt b pos, macAt b (pos + 6), be16 b (pos + 12)⟩ ((b.drop pos).drop 14) := by
  rw [ethDecode_of_long (by rw [List.length_drop]; omega), macAt_drop, macAt_drop, be16_drop, Nat.add_zero]

/-- Each field of a header stands at its offset in the encoding, whatever follows. -/
theorem ethEncode_fields (h : EthHeader) (tail : List Byte) :
    macAt (ethEncode h ++ tail) 0 = h.dst ∧ macAt (ethEncode h ++ tail) 6 = h.src ∧ be16 (ethEncode h ++ tail) 12 = h.etype :=
  ⟨rfl, rfl, bytes16_join h.etype⟩

theorem ethDecode_ethEncode (h : EthHeader) (tail : List Byte) : ethDecode (ethEncode h ++ tail) = .ok h tail := by
  obtain ⟨hdst, hsrc, htype⟩ := ethEncode_fields h tail
  have hlen : (ethEncode h ++ tail).length = 14 + tail.length := by rw [List.length_append, ethEncode_length]
  rw [ethDecode_of_long (by omega), hdst, hsrc, htype, List.drop_left' (ethEncode_length h)]

/-- The three fields read from the first 14 bytes encode to them: they are the adjacent slices of 6, 6 and 2 bytes. -/
theorem ethEncode_of_fields {b : List Byte} (h : 14 ≤ b.length) :
    ethEncode ⟨macAt b 0, macAt b 6, be16 b 12⟩ = b.take 14 :=
  calc ethEncode ⟨macAt b 0, macAt b 6, be16 b 12⟩
    _ = slice b 0 6 ++ slice b (0 + 6) 6 ++ slice b (0 + (6 + 6)) 2 := by
      rw [ethEncode, macBytes_macAt (by omega), macBytes_macAt (by omega), bytes16_be16 (by omega)]
    _ = slice b 0 14 := by rw [slice_append, slice_append]
    _ = b.take 14 := by rw [slice, List.drop_zero]

/-! ### An encode bound to `TXB`, one equation per case (41_header_codec.md R105) -/

section Encode

variable {bytes : List Byte} {s : State}

theorem encodeOp_noValue : encodeOp false bytes s = raise s .eNoValue := rfl

theorem encodeOp_full (h : Config.txCap < s.txlen + bytes.length) : encodeOp true bytes s = raise s .eInval :=
  appendTx_full h

theorem encodeOp_fits (h : s.txlen + bytes.length ≤ Config.txCap) :
    encodeOp true bytes s = .done (s.appended bytes) .ok .none :=
  appendTx_fits h

end Encode

/-! ### The operations (R114 to R116) -/

theorem exec_ethLoad (dst src : Mac) (etype : U16) (s : State) :
    exec (.ethLoad dst src etype) s = .next ((s.setEth ⟨true, ⟨dst, src, etype⟩⟩).answered .ok .none) := rfl

theorem exec_ethDec (s : State) :
    exec .ethDec s = (decodeOp ethDecode (fun s h => s.setEth ⟨true, h⟩) .eth s).outcome .ethDec := rfl

theorem exec_ethEnc (s : State) : exec .ethEnc s = (encodeOp s.eth.valid (ethEncode s.eth.hdr) s).outcome .ethEnc := rfl

/-! ### The obligations -/

/-- Settles O5: an encoding carries each field at its offset, and the fields read from 14 bytes are adjacent slices that cover them. -/
theorem ethHeaderRoundTrip : Obligations.EthHeaderRoundTrip :=
  ⟨ethDecode_ethEncode, fun _ hlen => ⟨_, ethDecode_of_long hlen, ethEncode_of_fields hlen⟩⟩

/-- Settles O11: `ETH.LOAD` has one outcome, the register written and the answer `OK`. -/
theorem ethLoadWritesRegister : Obligations.EthLoadWritesRegister :=
  fun dst src etype s => ⟨rfl, exec_ethLoad dst src etype s⟩

/-- Settles O12: a decode bound to the cursor ends as the valid bit and then the decode of the remainder say. -/
theorem ethDecReadsAtCursor : Obligations.EthDecReadsAtCursor := by
  refine ⟨rfl, fun s => ⟨fun hinvalid => ?noValue, fun hvalid hpos hshort => ?short, fun hvalid hroom => ?long⟩⟩
  case noValue =>
    rw [exec_ethDec, decodeOp_noValue hinvalid, raise_eq, OpEnd.outcome_done]
  case short =>
    have hrest : (s.mem.rxb.drop s.rx.pos).length < 14 := by rwa [List.length_drop]
    rw [exec_ethDec, decodeOp_err hvalid hpos (ethDecode_of_short hrest), raise_eq, OpEnd.outcome_done]
  case long =>
    rw [exec_ethDec, decodeOp_ok hvalid hroom (ethDecode_drop hroom), OpEnd.outcome_done]
    rfl

/-- Settles O13: an encode bound to `TXB` ends as the valid bit and then the room for the header's 14 bytes say. -/
theorem ethEncAppendsHeader : Obligations.EthEncAppendsHeader := by
  refine ⟨rfl, fun s => ⟨fun hinvalid => ?noValue, fun hvalid hfull => ?full, fun hvalid hroom => ?fits⟩⟩
  case noValue =>
    rw [exec_ethEnc, hinvalid, encodeOp_noValue, raise_eq, OpEnd.outcome_done]
  case full =>
    rw [exec_ethEnc, hvalid, encodeOp_full hfull, raise_eq, OpEnd.outcome_done]
  case fits =>
    rw [exec_ethEnc, hvalid, encodeOp_fits hroom, OpEnd.outcome_done]
    rfl

end Sys2Proof.Machine
end

section
/-! PROOFS. The IPv4 header codec: an inverse in both directions, up to the reserved bit of byte 6 (43_ipv4.md R121, R122, R138). -/

namespace Sys2Proof.Machine

/-! ### Valid headers (R16) -/

/-- The length of a valid header survives its trip through the 4-bit count of words. -/
theorem Ip4Header.hlen_of_words {h : Ip4Header} (hwf : h.wf = true) : (BitVec.ofNat 4 (h.hlen / 4)).toNat * 4 = h.hlen := by
  obtain ⟨hmod, -, hmax, -, -⟩ := h.wf_iff.1 hwf
  rw [BitVec.toNat_ofNat]
  omega

theorem ipEncode_length_of_wf {h : Ip4Header} (hwf : h.wf = true) : (ipEncode h).length = h.hlen := by
  obtain ⟨-, hmin, -, hopts, -⟩ := h.wf_iff.1 hwf
  rw [ipEncode_length, hopts]
  omega

/-! ### Decode after encode (R138) -/

/-- The fixed part of an encoding gives back every field but the options: the packed bytes 0, 6 and 7 come apart, and the 16-bit fields
join again from their two bytes. -/
theorem ipFixedFields_ipEncode {h : Ip4Header} (hwf : h.wf = true) (tail : List Byte) :
    ipFixedFields (ipEncode h ++ tail) = { h with opts := [] } := by
  obtain ⟨hver, hwords⟩ := versionByte_fields h.ver (BitVec.ofNat 4 (h.hlen / 4))
  obtain ⟨hdf, hmf, -⟩ := flagsByte_fields h.df h.mf (h.foff.extractLsb' 8 5)
  calc ipFixedFields (ipEncode h ++ tail)
    _ = { h with
          ver := (h.ver ++ BitVec.ofNat 4 (h.hlen / 4) : BitVec 8).extractLsb' 4 4
          hlen := ((h.ver ++ BitVec.ofNat 4 (h.hlen / 4) : BitVec 8).extractLsb' 0 4).toNat * 4
          tlen := h.tlen.extractLsb' 8 8 ++ h.tlen.extractLsb' 0 8
          id := h.id.extractLsb' 8 8 ++ h.id.extractLsb' 0 8
          df := (0#1 ++ BitVec.ofBool h.df ++ BitVec.ofBool h.mf ++ h.foff.extractLsb' 8 5 : BitVec 8).getLsbD 6
          mf := (0#1 ++ BitVec.ofBool h.df ++ BitVec.ofBool h.mf ++ h.foff.extractLsb' 8 5 : BitVec 8).getLsbD 5
          foff := ((0#1 ++ BitVec.ofBool h.df ++ BitVec.ofBool h.mf ++ h.foff.extractLsb' 8 5 : BitVec 8) ++
            h.foff.extractLsb' 0 8 : U16).extractLsb' 0 13
          csum := h.csum.extractLsb' 8 8 ++ h.csum.extractLsb' 0 8
          opts := [] } := rfl
    _ = { h with opts := [] } := by
      rw [hver, hwords, Ip4Header.hlen_of_words hwf, bytes16_join, bytes16_join, bytes16_join, hdf, hmf, fragment_field]

/-- The bytes of an encoding from index 20 on are the options. -/
theorem ipEncode_drop_fixed (h : Ip4Header) (tail : List Byte) : (ipEncode h ++ tail).drop 20 = h.opts ++ tail := rfl

theorem ipDecode_ipEncode {h : Ip4Header} (hwf : h.wf = true) (tail : List Byte) : ipDecode (ipEncode h ++ tail) = .ok h tail := by
  obtain ⟨-, hmin, -, hopts, htlen⟩ := h.wf_iff.1 hwf
  have hencode := ipEncode_length_of_wf hwf
  have hlen : (ipEncode h ++ tail).length = h.hlen + tail.length := by rw [List.length_append, hencode]
  rw [ipDecode_eq_ok_iff, ipFixedFields_ipEncode hwf, ipEncode_drop_fixed, List.take_left' hopts, List.drop_left' hencode]
  exact ⟨by omega, hmin, htlen, (Nat.le_add_right _ _).trans_eq hlen.symm, rfl, rfl⟩

/-! ### Encode after decode (R138) -/

/-- Encoding the IPv4 address read at an index gives back its four bytes. -/
theorem ip4Bytes_ip4At {b : List Byte} {i : Nat} (h : i + 4 ≤ b.length) : ip4Bytes (ip4At b i) = slice b i 4 := by
  iterate 4 rw [slice_succ (by omega)]
  simp [ip4Bytes, ip4At, slice]

/-- A byte among the first `n` replaced: the slices before and after it stay. -/
theorem set_take_eq_slices {b : List Byte} {i m n : Nat} (hn : n = i + 1 + m) (hb : n ≤ b.length) (x : Byte) :
    (b.take n).set i x = slice b 0 i ++ x :: slice b (i + 1) m := by
  have hi : i < (b.take n).length := by rw [List.length_take]; omega
  rw [List.set_eq_take_append_cons_drop, if_pos hi, List.take_take, List.drop_take, slice, slice, List.drop_zero]
  congr 3 <;> omega

/-- Byte 0 is written back from the version and the length in words that were read from it. -/
theorem versionByte_of_fields (b : List Byte) :
    ((ipFixedFields b).ver ++ BitVec.ofNat 4 ((ipFixedFields b).hlen / 4) : BitVec 8) = byteAt b 0 := by
  rw [ipFixedFields, Nat.mul_div_cancel _ (by decide), BitVec.ofNat_toNat, BitVec.setWidth_eq, versionByte_join]

/-- Byte 6 is written back from the flags and the offset that were read from it, its bit 7 as 0. -/
theorem flagsByte_of_fields (b : List Byte) :
    (0#1 ++ BitVec.ofBool (ipFixedFields b).df ++ BitVec.ofBool (ipFixedFields b).mf ++
      (ipFixedFields b).foff.extractLsb' 8 5 : BitVec 8) = byteAt b 6 &&& 0x7F := by
  have hhigh : (ipFixedFields b).foff.extractLsb' 8 5 = (byteAt b 6).extractLsb' 0 5 := fragment_high _ _
  rw [hhigh]
  exact flagsByte_join _

/-- Byte 7 is written back from the offset that was read from it. -/
theorem fragmentByte_of_fields (b : List Byte) : (ipFixedFields b).foff.extractLsb' 0 8 = byteAt b 7 := fragment_low _ _

/-- The fields read from a fixed part encode to its adjacent slices, but for the flags byte, whose bit 7 goes out as 0. -/
theorem ipEncode_of_fields {b : List Byte} (h : 20 ≤ b.length) (opts : List Byte) :
    ipEncode { ipFixedFields b with opts := opts } = slice b 0 6 ++ (byteAt b 6 &&& 0x7F) :: slice b 7 13 ++ opts := by
  have hfirst : [byteAt b 0, byteAt b 1] = slice b 0 2 := by
    iterate 2 rw [slice_succ (by omega)]
    simp [slice]
  have hmiddle : [byteAt b 7, byteAt b 8, byteAt b 9] = slice b 7 3 := by
    iterate 3 rw [slice_succ (by omega)]
    simp [slice]
  calc ipEncode { ipFixedFields b with opts := opts }
    _ = [byteAt b 0, byteAt b 1] ++ bytes16 (be16 b 2) ++ bytes16 (be16 b 4) ++
          ((byteAt b 6 &&& 0x7F) :: ([byteAt b 7, byteAt b 8, byteAt b 9] ++
            bytes16 (be16 b 10) ++ ip4Bytes (ip4At b 12) ++ ip4Bytes (ip4At b 16))) ++ opts := by
      rw [ipEncode, versionByte_of_fields, flagsByte_of_fields, fragmentByte_of_fields]
      rfl
    _ = slice b 0 2 ++ slice b (0 + 2) 2 ++ slice b (0 + (2 + 2)) 2 ++
          ((byteAt b 6 &&& 0x7F) :: (slice b 7 3 ++
            slice b (7 + 3) 2 ++ slice b (7 + (3 + 2)) 4 ++ slice b (7 + (3 + 2 + 4)) 4)) ++ opts := by
      rw [hfirst, hmiddle, bytes16_be16 (by omega), bytes16_be16 (by omega), bytes16_be16 (by omega),
        ip4Bytes_ip4At (by omega), ip4Bytes_ip4At (by omega)]
    _ = slice b 0 6 ++ (byteAt b 6 &&& 0x7F) :: slice b 7 13 ++ opts := by
      simp only [slice_append]

/-- The options stand where the fixed part ends, so the whole encoding is one slice with one byte replaced. -/
theorem ipEncode_of_ipDecode {b rest : List Byte} {h : Ip4Header} (hdecode : ipDecode b = .ok h rest) :
    ipEncode h = (b.take h.hlen).set 6 (byteAt b 6 &&& 0x7F) := by
  obtain ⟨hfixed, hmin, -, hmax, hfields, -⟩ := ipDecode_eq_ok_iff.1 hdecode
  have hlen : h.hlen = (ipFixedFields b).hlen := by rw [hfields]
  rw [← hlen] at hmin hmax
  calc ipEncode h
    _ = ipEncode { ipFixedFields b with opts := slice b (7 + 13) (h.hlen - 20) } := by
      rw [hlen, hfields]
      rfl
    _ = slice b 0 6 ++ (byteAt b 6 &&& 0x7F) :: slice b 7 13 ++ slice b (7 + 13) (h.hlen - 20) :=
      ipEncode_of_fields hfixed _
    _ = slice b 0 6 ++ (byteAt b 6 &&& 0x7F) :: slice b 7 (13 + (h.hlen - 20)) := by
      rw [List.append_assoc, List.cons_append, slice_append]
    _ = (b.take h.hlen).set 6 (byteAt b 6 &&& 0x7F) := (set_take_eq_slices (by omega) hmax _).symm

/-! ### The obligation -/

/-- Settles O6: an encoding carries each field at its offset, and the fields that were read are adjacent slices of the consumed bytes that
cover them, but for bit 7 of byte 6. -/
theorem ip4HeaderRoundTrip : Obligations.Ip4HeaderRoundTrip := by
  refine ⟨fun h tail hwf => ipDecode_ipEncode hwf tail, fun b rest h hdecode => ?_⟩
  obtain ⟨hwf, -, hrest⟩ := ipDecode_wf hdecode
  exact ⟨hwf, hrest, ipEncode_of_ipDecode hdecode⟩

end Sys2Proof.Machine
end

section
/-! PROOFS. The nine operations on `IP4`, the fields and bytes of its header as numbers, and the checksum that it stores (43_ipv4.md
R121 to R136, R139). -/

namespace Sys2Proof.Machine

/-! ### What each operation is (R124 to R136) -/

theorem exec_ipNew (id : U16) (s : State) : exec (.ipNew id) s = .next ((s.putIp4 (ipNewHeader id)).answered .ok .none) := rfl

theorem exec_ipTtl (ttl : Byte) (s : State) :
    exec (.ipTtl ttl) s = (ipSetter (fun h => { h with ttl := ttl }) s).outcome (.ipTtl ttl) := rfl

theorem exec_ipProtocol (proto : Byte) (s : State) :
    exec (.ipProtocol proto) s = (ipSetter (fun h => { h with proto := proto }) s).outcome (.ipProtocol proto) := rfl

theorem exec_ipDestination (dst : Ip4) (s : State) :
    exec (.ipDestination dst) s = (ipSetter (fun h => { h with dst := dst }) s).outcome (.ipDestination dst) := rfl

theorem exec_ipDec (s : State) : exec .ipDec s = (decodeOp ipDecode State.putIp4 .ip4 s).outcome .ipDec := rfl

theorem exec_ipEnc (s : State) : exec .ipEnc s = (encodeOp s.ip4.valid (ipEncode s.ip4.hdr) s).outcome .ipEnc := rfl

theorem exec_ipLoad (ver : BitVec 4) (hlen : Nat) (tos : Byte) (tlen id : U16) (df mf : Bool) (foff : BitVec 13)
    (ttl proto : Byte) (csum : U16) (src dst : Ip4) (opts : List Byte) (s : State) :
    exec (.ipLoad ver hlen tos tlen id df mf foff ttl proto csum src dst opts) s =
      (ipLoadOp ⟨ver, hlen, tos, tlen, id, df, mf, foff, ttl, proto, csum, src, dst, opts⟩ s).outcome
        (.ipLoad ver hlen tos tlen id df mf foff ttl proto csum src dst opts) := rfl

/-! ### The setters (R123), one equation per case -/

section Setters

variable {s : State} (f : Ip4Header → Ip4Header)

theorem ipSetter_noValue (h : s.ip4.valid = false) : ipSetter f s = raise s .eNoValue := if_pos h

theorem ipSetter_valid (h : s.ip4.valid = true) : ipSetter f s = .done (s.putIp4 (f s.ip4.hdr)) .ok .none := by
  rw [ipSetter, if_neg (by simp [h])]

end Setters

/-! ### `IP.LOAD` (R133), one equation per case -/

section Load

variable {h : Ip4Header} {s : State}

theorem ipLoadOp_of_wf (hwf : h.wf = true) : ipLoadOp h s = .done (s.putIp4 h) .ok .none := by
  rcases ipLoadOp_cases h s with ⟨-, hdone⟩ | ⟨hnot, -⟩
  · exact hdone
  · simp [hwf] at hnot

theorem ipLoadOp_of_not_wf (hwf : ¬ h.wf = true) : ipLoadOp h s = raise s .eInval := by
  rcases ipLoadOp_cases h s with ⟨hyes, -⟩ | ⟨-, hraise⟩
  · exact absurd hyes hwf
  · exact hraise

end Load

/-! ### `IP.APPEND_OPT` (R128, R130), one equation per case -/

/-- `pad4` fills up with zero bytes to the next multiple of 4. -/
theorem pad4_eq (b : List Byte) : pad4 b = b ++ List.replicate ((b.length + 3) / 4 * 4 - b.length) 0 := by
  rw [pad4, zeros]
  congr 2
  omega

/-- The header with the padded options appended, its lengths as numbers. -/
theorem ipWithOptions_pad4 (h : Ip4Header) (opt : List Byte) :
    ipWithOptions h (pad4 opt) =
      { h with
        opts := h.opts ++ (opt ++ List.replicate ((opt.length + 3) / 4 * 4 - opt.length) 0)
        hlen := h.hlen + (opt.length + 3) / 4 * 4
        tlen := BitVec.ofNat 16 (h.tlen.toNat + (opt.length + 3) / 4 * 4) } := by
  rw [ipWithOptions, pad4_length, pad4_eq, BitVec.ofNat_add, BitVec.ofNat_toNat, BitVec.setWidth_eq]

section AppendOpt

variable {opt : List Byte} {s : State}

theorem exec_ipAppendOpt_noValue (h : s.ip4.valid = false) :
    exec (.ipAppendOpt opt) s = .next (s.answered .eNoValue .none) := by
  simp [exec, execIpAppendOpt, h]

theorem exec_ipAppendOpt_overflow (h : s.ip4.valid = true)
    (hover : s.ip4.hdr.hlen + (pad4 opt).length > 60 ∨ s.ip4.hdr.tlen.toNat + (pad4 opt).length > 0xFFFF) :
    exec (.ipAppendOpt opt) s = .next (s.answered .eInval .none) := by
  rw [exec, execIpAppendOpt]
  rw [if_neg (by simp [h])]
  split
  · rfl
  · rw [if_pos (hover.resolve_left ‹_›)]
    rfl

theorem exec_ipAppendOpt_fits (h : s.ip4.valid = true) (hhlen : s.ip4.hdr.hlen + (pad4 opt).length ≤ 60)
    (htlen : s.ip4.hdr.tlen.toNat + (pad4 opt).length ≤ 0xFFFF) :
    exec (.ipAppendOpt opt) s = .next ((s.putIp4 (ipWithOptions s.ip4.hdr (pad4 opt))).answered .ok .none) := by
  rw [exec, execIpAppendOpt]
  rw [if_neg (by simp [h]), if_neg (by omega), if_neg (by omega), OpEnd.outcome_done]

end AppendOpt

/-! ### `IP.CHECKSUM` (R131, R139) -/

/-- `IP4` with the header checksum stored, and the ghost bit that says so (70_reset_and_hazards.md R271). -/
def State.ipSummed (s : State) : State :=
  ((s.setIp4 ⟨true, { s.ip4.hdr with csum := csum16 (ipHeaderBytes s.ip4.hdr) }⟩).setAcc
    (foldedSum (ipHeaderBytes s.ip4.hdr))).setGhost s.ghost.ipSummed

@[simp] theorem State.ipSummed_ip4 (s : State) :
    s.ipSummed.ip4 = ⟨true, { s.ip4.hdr with csum := csum16 (ipHeaderBytes s.ip4.hdr) }⟩ := rfl

theorem exec_ipChecksum_noValue {s : State} (h : s.ip4.valid = false) :
    exec .ipChecksum s = .next (s.answered .eNoValue .none) := by
  simp [exec, execIpChecksum, h]

theorem exec_ipChecksum_valid {s : State} (h : s.ip4.valid = true) :
    exec .ipChecksum s = .next (s.ipSummed.answered .ok (.csum (csum16 (ipHeaderBytes s.ip4.hdr)))) := by
  simp [exec, execIpChecksum, h, State.ipSummed]

/-- The checksum covers the header with its own field zeroed, so what that field holds does not matter. -/
theorem ipHeaderBytes_withCsum (h : Ip4Header) (c : U16) : ipHeaderBytes { h with csum := c } = ipHeaderBytes h := rfl

/-- A header that stores its own checksum sums to `0xFFFF`: the field stands at an even index. -/
theorem foldedSum_ipEncode_summed (h : Ip4Header) :
    foldedSum (ipEncode { h with csum := csum16 (ipHeaderBytes h) }) = 0xFFFF := by
  obtain ⟨before, rest, heven, hsplit⟩ := ipEncode_split h
  rw [hsplit]
  exact foldedSum_with_own_csum heven (by rw [ipHeaderBytes, hsplit, bytes16_zero])

/-- So does an ICMP header that stores the checksum of itself and a payload, followed by that payload. -/
theorem foldedSum_icmpEncode_summed (h : IcmpHeader) (payload : List Byte) :
    foldedSum (icmpEncode { h with csum := csum16 (icmpSummedBytes h payload) } ++ payload) = 0xFFFF := by
  obtain ⟨before, rest, heven, hsplit⟩ := icmpEncode_split h
  rw [hsplit, List.append_assoc]
  exact foldedSum_with_own_csum heven (by rw [icmpSummedBytes, hsplit, bytes16_zero, List.append_assoc])

/-- The header `ICMP.CHECKSUM` leaves stores the checksum of itself and the payload (44_icmp.md R157). -/
theorem icmp_of_exec_icmpChecksum {payload : List Byte} {s t : State} (h : s.icmp.valid = true)
    (hexec : exec (.icmpChecksum payload) s = .next t) :
    t.icmp.hdr = { s.icmp.hdr with csum := csum16 (icmpSummedBytes s.icmp.hdr payload) } := by
  simp only [exec, execIcmpChecksum, h, Bool.true_eq_false, if_false, OpEnd.outcome_done, Host.Outcome.next.injEq] at hexec
  rw [← hexec]
  rfl

/-! ### The decode, its tests in order and its fields as numbers (R122) -/

section Decode

variable {b : List Byte}

theorem ipDecode_of_short (h : b.length < 20) : ipDecode b = .err .eTrunc := if_pos h

theorem ipDecode_of_badLengths (h : 20 ≤ b.length)
    (hbad : (ipFixedFields b).hlen < 20 ∨ (ipFixedFields b).tlen.toNat < (ipFixedFields b).hlen) :
    ipDecode b = .err .eInval := by
  rw [ipDecode, if_neg (by omega)]
  dsimp only
  split
  · rfl
  · rw [if_pos (hbad.resolve_left ‹_›)]

theorem ipDecode_of_cutOptions (h : 20 ≤ b.length) (hmin : 20 ≤ (ipFixedFields b).hlen)
    (htlen : (ipFixedFields b).hlen ≤ (ipFixedFields b).tlen.toNat) (hcut : b.length < (ipFixedFields b).hlen) :
    ipDecode b = .err .eTrunc := by
  rw [ipDecode, if_neg (by omega)]
  dsimp only
  rw [if_neg (by omega), if_neg (by omega), if_pos (by rw [List.length_drop]; omega)]

theorem ipDecode_of_complete (hmin : 20 ≤ (ipFixedFields b).hlen)
    (htlen : (ipFixedFields b).hlen ≤ (ipFixedFields b).tlen.toNat) (hmax : (ipFixedFields b).hlen ≤ b.length) :
    ipDecode b = .ok { ipFixedFields b with opts := (b.drop 20).take ((ipFixedFields b).hlen - 20) }
      (b.drop (ipFixedFields b).hlen) :=
  ipDecode_eq_ok_iff.2 ⟨hmin.trans hmax, hmin, htlen, hmax, rfl, rfl⟩

end Decode

/-- A bit of a byte as a digit of its number. -/
theorem getLsbD_eq_digit (x : Byte) (i : Nat) : x.getLsbD i = (x.toNat / 2 ^ i % 2 == 1) := by
  rw [BitVec.getLsbD, Nat.testBit_eq_decide_div_mod_eq]
  rfl

/-- The fields of the fixed part as the numbers R122 writes. -/
theorem ipFixedFields_eq (b : List Byte) :
    ipFixedFields b = {
      ver := BitVec.ofNat 4 ((byteAt b 0).toNat / 16), hlen := (byteAt b 0).toNat % 16 * 4, tos := byteAt b 1
      tlen := be16 b 2, id := be16 b 4
      df := (byteAt b 6).toNat / 64 % 2 == 1, mf := (byteAt b 6).toNat / 32 % 2 == 1
      foff := BitVec.ofNat 13 ((be16 b 6).toNat % 8192), ttl := byteAt b 8, proto := byteAt b 9, csum := be16 b 10
      src := ip4At b 12, dst := ip4At b 16, opts := [] } := by
  have hver : (byteAt b 0).extractLsb' 4 4 = BitVec.ofNat 4 ((byteAt b 0).toNat / 16) := by
    rw [BitVec.extractLsb', Nat.shiftRight_eq_div_pow]
  have hfoff : (be16 b 6).extractLsb' 0 13 = BitVec.ofNat 13 ((be16 b 6).toNat % 8192) := by
    rw [BitVec.extractLsb', Nat.shiftRight_zero]
    exact BitVec.eq_of_toNat_eq (by simp)
  rw [ipFixedFields, hver, hfoff, getLsbD_eq_digit, getLsbD_eq_digit]
  simp only [BitVec.extractLsb'_toNat, Nat.shiftRight_zero]
  rfl

/-! ### The bytes of an encoding as numbers (R121) -/

theorem versionByte_eq_ofNat (v n : BitVec 4) : (v ++ n : BitVec 8) = BitVec.ofNat 8 (v.toNat * 16 + n.toNat) := by
  revert v n
  decide

theorem flagsByte_eq_ofNat (df mf : Bool) (x : BitVec 5) :
    (0#1 ++ BitVec.ofBool df ++ BitVec.ofBool mf ++ x : BitVec 8) = BitVec.ofNat 8 (df.toNat * 64 + mf.toNat * 32 + x.toNat) := by
  revert df mf x
  decide

/-- The encoding of a valid header with its three packed bytes as sums: the count of words fits 4 bits, the offset's high part 5. -/
theorem ipEncode_eq {h : Ip4Header} (hwf : h.wf = true) :
    ipEncode h = [BitVec.ofNat 8 (h.ver.toNat * 16 + h.hlen / 4), h.tos] ++ bytes16 h.tlen ++ bytes16 h.id ++
      [BitVec.ofNat 8 (h.df.toNat * 64 + h.mf.toNat * 32 + h.foff.toNat / 256), BitVec.ofNat 8 (h.foff.toNat % 256), h.ttl,
        h.proto] ++ bytes16 h.csum ++ ip4Bytes h.src ++ ip4Bytes h.dst ++ h.opts := by
  have hwords : (BitVec.ofNat 4 (h.hlen / 4)).toNat = h.hlen / 4 := by
    have := Ip4Header.hlen_of_words hwf
    omega
  have hhigh : (h.foff.extractLsb' 8 5).toNat = h.foff.toNat / 256 := by
    have := h.foff.isLt
    rw [BitVec.extractLsb'_toNat, Nat.shiftRight_eq_div_pow]
    omega
  have hlow : h.foff.extractLsb' 0 8 = BitVec.ofNat 8 (h.foff.toNat % 256) :=
    BitVec.eq_of_toNat_eq (by simp)
  rw [ipEncode, versionByte_eq_ofNat, flagsByte_eq_ofNat, hwords, hhigh, hlow]

/-! ### The obligations -/

/-- Settles O14: `IP.NEW` has one outcome, the default header written and the answer `OK`. -/
theorem ipNewDefaults : Obligations.IpNewDefaults :=
  fun id s => ⟨rfl, exec_ipNew id s⟩

/-- Settles O15: the three operations are one setter with three changes of the header. -/
theorem ipSettersChangeOneField : Obligations.IpSettersChangeOneField := by
  refine ⟨fun _ => rfl, fun _ => rfl, fun _ => rfl, fun s => ⟨fun hinvalid => ?noValue, fun hvalid => ?changed⟩⟩
  case noValue =>
    simp only [exec_ipTtl, exec_ipProtocol, exec_ipDestination, ipSetter_noValue _ hinvalid, raise_eq, OpEnd.outcome_done,
      implies_true, and_self]
  case changed =>
    simp only [exec_ipTtl, exec_ipProtocol, exec_ipDestination, ipSetter_valid _ hvalid, OpEnd.outcome_done]
    exact ⟨fun _ => rfl, fun _ => rfl, fun _ => rfl⟩

/-- Settles O16: the padded operand has the length `n` the statement names, and each of its two bounds refuses the whole. -/
theorem ipAppendOptPadsAndGrows : Obligations.IpAppendOptPadsAndGrows := by
  intro opt s n
  have hlen : (pad4 opt).length = n := pad4_length opt
  refine ⟨rfl, exec_ipAppendOpt_noValue, fun hvalid hover => ?overflow, fun hvalid hhlen htlen => ?fits⟩
  case overflow => exact exec_ipAppendOpt_overflow hvalid (by rwa [hlen])
  case fits =>
    rw [exec_ipAppendOpt_fits hvalid (by rwa [hlen]) (by rwa [hlen]), ipWithOptions_pad4]
    rfl

/-- Settles O17: `IP.CHECKSUM` stores and returns the checksum of the header bytes it sums, and leaves their folded sum in `ACC`. -/
theorem ipChecksumStoresHeaderChecksum : Obligations.IpChecksumStoresHeaderChecksum :=
  ⟨rfl, fun s => ⟨exec_ipChecksum_noValue, fun hvalid => ⟨foldedSum (ipHeaderBytes s.ip4.hdr), exec_ipChecksum_valid hvalid⟩⟩⟩

/-- Settles O18: a decode bound to the cursor ends as the valid bit and then the decode of the remainder say, whose tests and fields are
those of the fixed part as numbers. -/
theorem ipDecDecodesRemainder : Obligations.IpDecDecodesRemainder := by
  refine ⟨rfl, fun s => ⟨fun hinvalid => ?noValue, fun hvalid hpos => ?_⟩⟩
  case noValue =>
    rw [exec_ipDec, decodeOp_noValue hinvalid, raise_eq, OpEnd.outcome_done]
  intro b hlen tlen h
  have hfields := ipFixedFields_eq b
  have hhlen : (ipFixedFields b).hlen = hlen := by rw [hfields]
  have htlen : (ipFixedFields b).tlen = tlen := rfl
  have hrefused : ∀ {e : Status}, ipDecode b = .err e → ipDecode b = .err e ∧ exec .ipDec s = .next (s.answered e .none) :=
    fun hdecode => ⟨hdecode, by rw [exec_ipDec, decodeOp_err hvalid hpos hdecode, raise_eq, OpEnd.outcome_done]⟩
  refine ⟨fun hshort => ?short, fun hfixed hbad => ?badLengths, fun hfixed hmin hmax hcut => ?cutOptions,
    fun hmin hmax hroom => ?complete⟩
  case short => exact hrefused (ipDecode_of_short hshort)
  case badLengths => exact hrefused (ipDecode_of_badLengths hfixed (by rwa [hhlen, htlen]))
  case cutOptions =>
    exact hrefused (ipDecode_of_cutOptions hfixed (by rwa [hhlen]) (by rwa [hhlen, htlen]) (by rwa [hhlen]))
  case complete =>
    have hdecode : ipDecode b = .ok h (b.drop hlen) := by
      rw [ipDecode_of_complete (by rwa [hhlen]) (by rwa [hhlen, htlen]) (by rwa [hhlen]), hfields]
      rfl
    have hend : s.rx.pos + hlen ≤ s.rxlen := by
      have : b.length = s.rxlen - s.rx.pos := List.length_drop
      omega
    refine ⟨hdecode, ?_⟩
    rw [exec_ipDec, decodeOp_ok hvalid hend hdecode, OpEnd.outcome_done]
    rfl

/-- Settles O19: an encode bound to `TXB` ends as the valid bit and then the room for the header's `hlen` bytes say. -/
theorem ipEncAppendsHeader : Obligations.IpEncAppendsHeader := by
  refine ⟨rfl, fun s => ?_⟩
  intro h e
  refine ⟨fun hinvalid => ?noValue, fun hvalid hwf => ?_⟩
  case noValue =>
    rw [exec_ipEnc, hinvalid, encodeOp_noValue, raise_eq, OpEnd.outcome_done]
  have hbytes : ipEncode h = e := ipEncode_eq hwf
  have hlen : e.length = h.hlen := by rw [← hbytes, ipEncode_length_of_wf hwf]
  refine ⟨hbytes, hlen, fun hfull => ?full, fun hroom => ?fits⟩
  case full =>
    rw [exec_ipEnc, hvalid, hbytes, encodeOp_full (by rwa [hlen]), raise_eq, OpEnd.outcome_done]
  case fits =>
    rw [exec_ipEnc, hvalid, hbytes, encodeOp_fits (by rwa [hlen]), OpEnd.outcome_done]
    rfl

/-- Settles O20: what `IP.LOAD` tests is the invariant of a valid header, clause by clause. -/
theorem ipLoadChecksInvariant : Obligations.IpLoadChecksInvariant := by
  intro ver hlen tos tlen id df mf foff ttl proto csum src dst opts s good
  have hwf : Ip4Header.wf ⟨ver, hlen, tos, tlen, id, df, mf, foff, ttl, proto, csum, src, dst, opts⟩ = true ↔ good :=
    Ip4Header.wf_iff _
  rw [exec_ipLoad]
  refine ⟨rfl, fun hgood => ?placed, fun hbad => ?refused⟩
  case placed =>
    rw [ipLoadOp_of_wf (hwf.2 hgood), OpEnd.outcome_done]
    rfl
  case refused =>
    rw [ipLoadOp_of_not_wf (fun h => hbad (hwf.1 h)), raise_eq, OpEnd.outcome_done]

/-- Settles O25: both operations put the checksum of the bytes with its field zeroed into that field, at an even index; the second
`IP.CHECKSUM` sums the same bytes as the first. -/
theorem storedChecksumsVerify : Obligations.StoredChecksumsVerify := by
  refine ⟨fun s t hvalid hexec => ?ip, fun payload s t hvalid hexec => ?icmp⟩
  case ip =>
    rw [exec_ipChecksum_valid hvalid, Host.Outcome.next.injEq] at hexec
    have hip4 : t.ip4 = ⟨true, { s.ip4.hdr with csum := csum16 (ipHeaderBytes s.ip4.hdr) }⟩ := by
      rw [← hexec, State.answered_ip4, State.ipSummed_ip4]
    have hsame : ipHeaderBytes t.ip4.hdr = ipHeaderBytes s.ip4.hdr := by rw [hip4, ipHeaderBytes_withCsum]
    have hfold : foldedSum (ipEncode t.ip4.hdr) = 0xFFFF := by
      rw [hip4]
      exact foldedSum_ipEncode_summed s.ip4.hdr
    refine ⟨hfold, csum16_eq_zero hfold, _, exec_ipChecksum_valid (by rw [hip4]), ?_, ?_⟩
    · rw [State.answered_ip4, State.ipSummed_ip4, hsame, hip4]
    · rw [State.answered_reply, hsame, ← hexec, State.answered_reply]
  case icmp =>
    have hfold := foldedSum_icmpEncode_summed s.icmp.hdr payload
    rw [← icmp_of_exec_icmpChecksum hvalid hexec] at hfold
    exact ⟨hfold, csum16_eq_zero hfold⟩

end Sys2Proof.Machine
end

section
/-! PROOFS. The ICMP header: its codec as an inverse in both directions, with and without the pair, and the four operations bound to it
(44_icmp.md R150 to R157). -/

namespace Sys2Proof.Machine

/-! ### The decode and the encode, by whether the type has the pair (R151, R152) -/

section Codec

variable {b : List Byte} {h : IcmpHeader}

theorem icmpDecode_of_short (hshort : b.length < 4 ∨ hasPair (byteAt b 0) = true ∧ b.length < 8) :
    icmpDecode b = .err .eTrunc := by
  rw [icmpDecode]
  split
  · rfl
  · obtain ⟨hpair, hcut⟩ := hshort.resolve_left ‹_›
    rw [if_pos hpair, if_pos hcut]

theorem icmpDecode_of_pair (hpair : hasPair (byteAt b 0) = true) (hlen : 8 ≤ b.length) :
    icmpDecode b = .ok ⟨byteAt b 0, byteAt b 1, be16 b 2, be16 b 4, be16 b 6⟩ (b.drop 8) :=
  icmpDecode_eq_ok_iff.2 (.inl ⟨hpair, hlen, rfl, rfl⟩)

theorem icmpDecode_of_no_pair (hpair : hasPair (byteAt b 0) = false) (hlen : 4 ≤ b.length) :
    icmpDecode b = .ok ⟨byteAt b 0, byteAt b 1, be16 b 2, 0, 0⟩ (b.drop 4) :=
  icmpDecode_eq_ok_iff.2 (.inr ⟨hpair, hlen, rfl, rfl⟩)

theorem icmpEncode_of_pair (hpair : hasPair h.type = true) :
    icmpEncode h = [h.type, h.code] ++ bytes16 h.csum ++ bytes16 h.ident ++ bytes16 h.seq := by
  rw [icmpEncode, if_pos hpair, List.append_assoc _ (bytes16 h.ident)]

theorem icmpEncode_of_no_pair (hpair : hasPair h.type = false) : icmpEncode h = [h.type, h.code] ++ bytes16 h.csum := by
  rw [icmpEncode, if_neg (by simp [hpair]), List.append_nil]

end Codec

/-! ### Decode after encode (R153) -/

/-- Type, code and checksum stand at their offsets in every encoding, whatever follows. -/
theorem icmpEncode_fields (h : IcmpHeader) (tail : List Byte) :
    byteAt (icmpEncode h ++ tail) 0 = h.type ∧ byteAt (icmpEncode h ++ tail) 1 = h.code ∧ be16 (icmpEncode h ++ tail) 2 = h.csum :=
  ⟨rfl, rfl, bytes16_join h.csum⟩

/-- The pair, where the type has it, stands behind them. -/
theorem icmpEncode_pair_fields {h : IcmpHeader} (hpair : hasPair h.type = true) (tail : List Byte) :
    be16 (icmpEncode h ++ tail) 4 = h.ident ∧ be16 (icmpEncode h ++ tail) 6 = h.seq := by
  rw [icmpEncode_of_pair hpair]
  exact ⟨bytes16_join h.ident, bytes16_join h.seq⟩

/-- A valid header outside the family is its first three fields: the others are 0 (10_state.md R19). -/
theorem IcmpHeader.eq_of_no_pair {h : IcmpHeader} (hwf : h.wf = true) (hpair : hasPair h.type = false) :
    ⟨h.type, h.code, h.csum, 0, 0⟩ = h := by
  obtain ⟨type, code, csum, ident, seq⟩ := h
  obtain ⟨rfl, rfl⟩ : ident = 0 ∧ seq = 0 := (IcmpHeader.wf_iff _).1 hwf |>.resolve_left (by simp [hpair])
  rfl

theorem icmpDecode_icmpEncode {h : IcmpHeader} (hwf : h.wf = true) (tail : List Byte) :
    icmpDecode (icmpEncode h ++ tail) = .ok h tail := by
  obtain ⟨htype, hcode, hcsum⟩ := icmpEncode_fields h tail
  have hlen : (icmpEncode h ++ tail).length = (icmpEncode h).length + tail.length := List.length_append
  cases hpair : hasPair h.type with
  | true =>
    obtain ⟨hident, hseq⟩ := icmpEncode_pair_fields hpair tail
    have henc : (icmpEncode h).length = 8 := by rw [icmpEncode_length, if_pos hpair]
    rw [icmpDecode_of_pair (by rwa [htype]) (by omega), htype, hcode, hcsum, hident, hseq, List.drop_left' henc]
  | false =>
    have henc : (icmpEncode h).length = 4 := by rw [icmpEncode_length, if_neg (by simp [hpair])]
    rw [icmpDecode_of_no_pair (by rwa [htype]) (by omega), htype, hcode, hcsum, IcmpHeader.eq_of_no_pair hwf hpair,
      List.drop_left' henc]

/-! ### Encode after decode (R153) -/

/-- Type, code and checksum as read from a sequence encode to its first 4 bytes. -/
theorem icmpFixedFields_bytes {b : List Byte} (h : 4 ≤ b.length) :
    [byteAt b 0, byteAt b 1] ++ bytes16 (be16 b 2) = slice b 0 4 := by
  have hfirst : [byteAt b 0, byteAt b 1] = slice b 0 2 := by
    iterate 2 rw [slice_succ (by omega)]
    simp [slice]
  rw [hfirst, bytes16_be16 (by omega)]
  exact slice_append b 0 2 2

/-- The fields that were read are adjacent slices that cover the consumed bytes. -/
theorem icmpEncode_append_of_icmpDecode {b rest : List Byte} {h : IcmpHeader} (hdecode : icmpDecode b = .ok h rest) :
    icmpEncode h ++ rest = b := by
  rcases icmpDecode_eq_ok_iff.1 hdecode with ⟨hpair, hlen, rfl, rfl⟩ | ⟨hpair, hlen, rfl, rfl⟩
  case inl =>
    have henc : icmpEncode ⟨byteAt b 0, byteAt b 1, be16 b 2, be16 b 4, be16 b 6⟩ = b.take 8 :=
      calc icmpEncode ⟨byteAt b 0, byteAt b 1, be16 b 2, be16 b 4, be16 b 6⟩
        _ = slice b 0 4 ++ slice b (0 + 4) 2 ++ slice b (0 + (4 + 2)) 2 := by
          rw [icmpEncode_of_pair hpair, icmpFixedFields_bytes (by omega), bytes16_be16 (by omega), bytes16_be16 (by omega)]
        _ = slice b 0 8 := by rw [slice_append, slice_append]
        _ = b.take 8 := by rw [slice, List.drop_zero]
    rw [henc, List.take_append_drop]
  case inr =>
    have henc : icmpEncode ⟨byteAt b 0, byteAt b 1, be16 b 2, 0, 0⟩ = b.take 4 := by
      rw [icmpEncode_of_no_pair hpair, icmpFixedFields_bytes hlen, slice, List.drop_zero]
    rw [henc, List.take_append_drop]

/-! ### The operations (R154 to R157) -/

/-- The header of `ICMP.LOAD` with the family test made once for both operands of the pair. -/
theorem icmpLoadHeader_eq (type code : Byte) (ident seq : U16) :
    icmpLoadHeader type code ident seq =
      if hasPair type = true then ⟨type, code, 0, ident, seq⟩ else ⟨type, code, 0, 0, 0⟩ := by
  rw [icmpLoadHeader]
  split <;> rfl

theorem exec_icmpLoad (type code : Byte) (ident seq : U16) (s : State) :
    exec (.icmpLoad type code ident seq) s = .next ((s.putIcmp (icmpLoadHeader type code ident seq)).answered .ok .none) := rfl

theorem exec_icmpDec (s : State) : exec .icmpDec s = (decodeOp icmpDecode State.putIcmp .icmp s).outcome .icmpDec := rfl

theorem exec_icmpEnc (s : State) : exec .icmpEnc s = (encodeOp s.icmp.valid (icmpEncode s.icmp.hdr) s).outcome .icmpEnc := rfl

/-- `ICMP.DEC` where the remainder decodes and `n` bytes of it are the header. -/
theorem exec_icmpDec_ok {s : State} {h : IcmpHeader} {n : Nat} (hvalid : s.rx.valid = true) (hpos : s.rx.pos ≤ s.rxlen)
    (hlen : n ≤ (s.mem.rxb.drop s.rx.pos).length)
    (hdecode : icmpDecode (s.mem.rxb.drop s.rx.pos) = .ok h ((s.mem.rxb.drop s.rx.pos).drop n)) :
    exec .icmpDec s = .next (((s.putIcmp h).setRx { s.rx with pos := s.rx.pos + n }).answered .ok (.icmp h)) := by
  have hend : s.rx.pos + n ≤ s.rxlen := by
    have : (s.mem.rxb.drop s.rx.pos).length = s.rxlen - s.rx.pos := List.length_drop
    omega
  rw [exec_icmpDec, decodeOp_ok hvalid hend hdecode, OpEnd.outcome_done]

/-- `ICMP` with the checksum of its header and a payload stored, and the ghost values that say so (70_reset_and_hazards.md R271). -/
def State.icmpSummed (s : State) (payload : List Byte) : State :=
  ((s.setIcmp ⟨true, { s.icmp.hdr with csum := csum16 (icmpSummedBytes s.icmp.hdr payload) }⟩).setAcc
    (foldedSum (icmpSummedBytes s.icmp.hdr payload))).setGhost (s.ghost.icmpSummed payload)

section Checksum

variable {s : State} (payload : List Byte)

theorem exec_icmpChecksum_noValue (h : s.icmp.valid = false) :
    exec (.icmpChecksum payload) s = .next (s.answered .eNoValue .none) := by
  simp [exec, execIcmpChecksum, h]

theorem exec_icmpChecksum_valid (h : s.icmp.valid = true) :
    exec (.icmpChecksum payload) s =
      .next ((s.icmpSummed payload).answered .ok (.csum (csum16 (icmpSummedBytes s.icmp.hdr payload)))) := by
  simp [exec, execIcmpChecksum, h, State.icmpSummed]

end Checksum

/-! ### The obligations -/

/-- Settles O7: an encoding carries each field at its offset, and the fields that were read are adjacent slices of the consumed bytes; a
type outside the family has no pair on either side. -/
theorem icmpHeaderRoundTrip : Obligations.IcmpHeaderRoundTrip := by
  refine ⟨fun h tail hwf => icmpDecode_icmpEncode hwf tail, fun b rest h hdecode => ?_⟩
  obtain ⟨hwf, -⟩ := icmpDecode_wf hdecode
  exact ⟨hwf, icmpEncode_append_of_icmpDecode hdecode, icmpEncode_length h⟩

/-- Settles O21: `ICMP.LOAD` has one outcome, the header it makes written, its checksum no longer fresh, and the answer `OK`. -/
theorem icmpLoadWritesRegister : Obligations.IcmpLoadWritesRegister := by
  refine fun type code ident seq s => ⟨rfl, ?_⟩
  rw [exec_icmpLoad, icmpLoadHeader_eq]
  rfl

/-- Settles O22: a decode bound to the cursor ends as the valid bit and then the decode of the remainder say. -/
theorem icmpDecReadsAtCursor : Obligations.IcmpDecReadsAtCursor := by
  refine ⟨rfl, fun s => ⟨fun hinvalid => ?noValue, fun hvalid hpos => ?_⟩⟩
  case noValue =>
    rw [exec_icmpDec, decodeOp_noValue hinvalid, raise_eq, OpEnd.outcome_done]
  refine ⟨fun hshort => ?short, fun hlen hpair => ?pair, fun hlen hpair => ?noPair⟩
  case short =>
    rw [exec_icmpDec, decodeOp_err hvalid hpos (icmpDecode_of_short hshort), raise_eq, OpEnd.outcome_done]
  case pair => exact exec_icmpDec_ok hvalid hpos hlen (icmpDecode_of_pair hpair hlen)
  case noPair => exact exec_icmpDec_ok hvalid hpos hlen (icmpDecode_of_no_pair hpair hlen)

/-- Settles O23: an encode bound to `TXB` ends as the valid bit and then the room for the header's own bytes say; no other byte is
appended. -/
theorem icmpEncAppendsHeader : Obligations.IcmpEncAppendsHeader := by
  refine ⟨rfl, fun s => ?_⟩
  intro h e
  have hbytes : icmpEncode h = e := rfl
  refine ⟨fun hinvalid => ?noValue, fun hvalid hfull => ?full, fun hvalid hroom => ?fits⟩
  case noValue =>
    rw [exec_icmpEnc, hinvalid, encodeOp_noValue, raise_eq, OpEnd.outcome_done]
  case full =>
    rw [exec_icmpEnc, hvalid, hbytes, encodeOp_full hfull, raise_eq, OpEnd.outcome_done]
  case fits =>
    rw [exec_icmpEnc, hvalid, hbytes, encodeOp_fits hroom, OpEnd.outcome_done]
    rfl

/-- Settles O24: `ICMP.CHECKSUM` stores and returns the checksum of the bytes it sums, and leaves their folded sum in `ACC`. -/
theorem icmpChecksumCoversPayload : Obligations.IcmpChecksumCoversPayload :=
  fun payload s => ⟨rfl, exec_icmpChecksum_noValue payload,
    fun hvalid => ⟨foldedSum (icmpSummedBytes s.icmp.hdr payload), exec_icmpChecksum_valid payload hvalid⟩⟩

end Sys2Proof.Machine
end

section
/-! PROOFS. The operations on the two frame buffers: `TXB` emptied and extended, the remainder of `RXB` returned and its cursor put back
(45_socket.md R180 to R183). -/

namespace Sys2Proof.Machine

/-! ### `TXB` (R180, R181) -/

section Tx

variable {s : State} {data : List Byte}

/-- Setting the length to 0 leaves no byte in the buffer. -/
theorem exec_txClear (s : State) : exec .txClear s = .next ((s.setMem (s.mem.setBuf .txb [])).answered .ok .none) := by
  rw [← Memory.setLen_zero]
  rfl

theorem exec_txAppend_fits (h : s.txlen + data.length ≤ Config.txCap) :
    exec (.txAppend data) s = .next ((s.appended data).answered .ok .none) := by
  simp only [exec, execTxAppend, appendTx_fits h, OpEnd.outcome_done]

theorem exec_txAppend_full (h : Config.txCap < s.txlen + data.length) :
    exec (.txAppend data) s = .next (s.answered .eInval .none) := by
  simp only [exec, execTxAppend, appendTx_full h, raise_eq, OpEnd.outcome_done]

end Tx

/-! ### `RXB` (R182, R183) -/

section Rx

variable {s : State}

theorem exec_rxRest_noValue (h : s.rx.valid = false) : exec .rxRest s = .next (s.answered .eNoValue .none) := by
  simp only [exec, execRxRest, h, if_true, raise_eq, OpEnd.outcome_done]

theorem exec_rxRest_valid (hvalid : s.rx.valid = true) (hpos : s.rx.pos ≤ s.rxlen) :
    exec .rxRest s = .next (s.answered .ok (.rest (s.mem.rxb.drop s.rx.pos))) := by
  simp only [exec, execRxRest, hvalid, Bool.true_eq_false, if_false, State.remainder_eq hpos, OpEnd.outcome_done]

theorem exec_rxRewind_noValue (h : s.rx.valid = false) : exec .rxRewind s = .next (s.answered .eNoValue .none) := by
  simp only [exec, execRxRewind, h, if_true, raise_eq, OpEnd.outcome_done]

theorem exec_rxRewind_valid (h : s.rx.valid = true) :
    exec .rxRewind s = .next ((s.setRx { s.rx with pos := 0 }).answered .ok .none) := by
  simp only [exec, execRxRewind, h, Bool.true_eq_false, if_false, OpEnd.outcome_done]

end Rx

/-! ### The obligations -/

/-- Settles O30: `TX.CLEAR` has one outcome, and `TX.APPEND` ends as the room left in `TXB` says. -/
theorem txBufferOperations : Obligations.TxBufferOperations :=
  ⟨rfl, fun _ => rfl, fun s => ⟨exec_txClear s, fun _ => ⟨exec_txAppend_fits, exec_txAppend_full⟩⟩⟩

/-- Settles O31: both operations end as the valid bit `RXV` says, and only `RX.REWIND` moves the cursor. -/
theorem rxBufferOperations : Obligations.RxBufferOperations :=
  ⟨rfl, rfl, fun _ => ⟨fun hinvalid => ⟨exec_rxRest_noValue hinvalid, exec_rxRewind_noValue hinvalid⟩,
    fun hvalid => ⟨exec_rxRest_valid hvalid, exec_rxRewind_valid hvalid⟩⟩⟩

end Sys2Proof.Machine
end

section
/-! PROOFS. The filter predicate: loaded whole by `FLT.SET`, and met by two headers exactly when every set field is equal (47_consumers.md
R215, R216). -/

namespace Sys2Proof.Machine

/-! ### The predicate (R216) -/

/-- One field of the predicate, `unset` and set in one statement: whatever value it is set to, the decoded value is that one. -/
theorem fieldMatches_iff {α : Type} [DecidableEq α] (want : Option α) (got : α) :
    fieldMatches want got = true ↔ ∀ v, want = some v → v = got := by
  rw [fieldMatches, decide_eq_true_iff]
  cases want with
  | none => simp
  | some v => simp

theorem fltMatch_iff (p : FltReg) (e : EthHeader) (h : Ip4Header) :
    fltMatch p e h = true ↔
      (∀ m, p.smac = some m → m = e.src) ∧ (∀ m, p.dmac = some m → m = e.dst) ∧ (∀ a, p.sip = some a → a = h.src) ∧
        (∀ a, p.dip = some a → a = h.dst) := by
  simp only [fltMatch, Bool.and_eq_true, fieldMatches_iff, and_assoc]

/-! ### The operation `FLT.SET` (R215) -/

theorem exec_fltSet (smac dmac : Option Mac) (sip dip : Option Ip4) (s : State) :
    exec (.fltSet smac dmac sip dip) s = .next ((s.setFlt ⟨smac, dmac, sip, dip⟩).answered .ok .none) := rfl

/-! ### The obligation -/

/-- Settles O40: `FLT.SET` has one outcome, and the predicate is the conjunction of its four fields. -/
theorem fltSetLoadsPredicate : Obligations.FltSetLoadsPredicate :=
  ⟨fun smac dmac sip dip s => ⟨rfl, exec_fltSet smac dmac sip dip s⟩, fltMatch_iff, rfl⟩

end Sys2Proof.Machine
end

section
/-! PROOFS. The matrix of operations and statuses: the row of each operation holds every status it answers with, and only the operations
that run a receive wait (60_exceptions.md R245). -/

namespace Sys2Proof.Machine

open Sys2Proof

/-! ### The rows of the matrix (R245) -/

/-- Every row has the column `OK`. -/
@[simp] theorem ok_mem_statusesOf (i : Instr) : .ok ∈ statusesOf i := by
  cases i <;> exact List.mem_cons_self

/-- What the link acknowledges is in every row that has the column `E_IO`. -/
theorem ackStatus_mem_statusesOf {i : Instr} (hio : .eIo ∈ statusesOf i) (a : LinkAck) : ackStatus a ∈ statusesOf i := by
  cases a with
  | ok => exact ok_mem_statusesOf i
  | fail => exact hio

/-- An operation that runs a receive is one that may block. -/
theorem mayBlock_of_receivesOn {s : State} {i : Instr} {k : Nat} (h : receivesOn s i k) : mayBlock i = true := by
  cases i with
  | sockRecv | anaStep | fltStep | arpPoll => rfl
  | _ => exact h.elim

/-- A receive hands on the link's `E_IO`, but in `ARP.POLL`, where it is `E_NOREPLY` (46_arp.md R195). -/
theorem eIo_mem_statusesOf {s : State} {i : Instr} {k : Nat} (h : receivesOn s i k) (hne : i ≠ .arpPoll) : .eIo ∈ statusesOf i := by
  cases i with
  | sockRecv | anaStep | fltStep => simp [statusesOf]
  | arpPoll => exact absurd rfl hne
  | _ => exact h.elim

/-- The loop bodies hand on the two statuses a decode of a captured frame ends with (47_consumers.md R211, R217). -/
theorem decodeError_mem_statusesOf {i : Instr} {k : Nat} {e : Status} (hi : i = .anaStep k ∨ i = .fltStep k)
    (he : e = .eTrunc ∨ e = .eInval) : e ∈ statusesOf i := by
  rcases hi with rfl | rfl <;> rcases he with rfl | rfl <;> simp [statusesOf]

/-! ### States an operation may leave under the matrix -/

/-- State `t` after operation `i` is within the matrix: a status is one of the row, and to have none is for those that may block. -/
def KeepsToMatrix (i : Instr) (t : State) : Prop :=
  (∀ r, t.reply = some r → r.status ∈ statusesOf i) ∧ (t.reply = none → mayBlock i = true)

theorem KeepsToMatrix.answered {i : Instr} {e : Status} (he : e ∈ statusesOf i) (s : State) (res : Result) :
    KeepsToMatrix i (s.answered e res) :=
  ⟨fun _ hr => Option.some.inj hr ▸ he, nofun⟩

theorem KeepsToMatrix.answered_ok (i : Instr) (s : State) (res : Result) : KeepsToMatrix i (s.answered .ok res) :=
  .answered (ok_mem_statusesOf i) s res

theorem KeepsToMatrix.waiting {i : Instr} (hi : mayBlock i = true) (s : State) : KeepsToMatrix i (s.waiting i) :=
  ⟨nofun, fun _ => hi⟩

/-- Whatever an operation can do is within the matrix: it waits in a receive, answers `OK`, or answers one of the errors named here. -/
theorem Happens.keepsToMatrix {s t : State} {i : Instr} (h : Happens s i t) : KeepsToMatrix i t := by
  cases h with
  | raises _ _ _ hrow => exact .answered hrow _ _
  | waits _ _ _ _ _ hrecv => exact .waiting (mayBlock_of_receivesOn hrecv) _
  | linkFails _ _ _ _ _ hrecv hne => exact .answered (eIo_mem_statusesOf hrecv hne) _ _
  | sockOpenRefused => exact .answered (by simp [statusesOf]) _ _
  | sockSend _ _ a | arpStart _ _ _ _ a => exact .answered (ackStatus_mem_statusesOf (by simp [statusesOf]) a) _ _
  | arpClosed | arpNoReply | arpForeign => exact .answered (by simp [statusesOf]) _ _
  | skipsEth _ _ _ _ _ _ _ hloop => exact .answered (decodeError_mem_statusesOf hloop (.inl rfl)) _ _
  | skipsIp _ _ _ _ _ _ _ _ _ _ hloop _ _ herr => exact .answered (decodeError_mem_statusesOf hloop (ipDecode_err herr)) _ _
  | _ => exact .answered_ok _ _ _

/-! ### The obligation -/

/-- Settles O49: every next state of an operation is one that can happen, and all of those are within the matrix. -/
theorem statusesKeepToMatrix : Obligations.StatusesKeepToMatrix :=
  fun _ _ _ hexec => (exec_happens hexec).keepsToMatrix

end Sys2Proof.Machine
end

section
/-! PROOFS. The commands of the host: the command of an operation decodes to it, and to nothing else (30_encoding.md R76, R77). -/

namespace Sys2Proof

/-! ### Decode and encode as inverses -/

/-- A command is its selector's number with its operands. -/
theorem Command.mk_of_fields {c : Command} {n : Nat} {args : List Operand} (hsel : c.sel.toNat = n) (hargs : c.args = args) :
    ⟨BitVec.ofNat 8 n, args⟩ = c := by
  rw [← hsel, ← hargs, BitVec.ofNat_toNat, BitVec.setWidth_eq]

/-- The row of an operation gives it back from its own operands; only `SOCK.SEND` has one that can be out of its type. -/
theorem decode_encode {i : Instr} (hwf : i.wf = true) : decode (encode i) = .instr i := by
  cases i with
  | sockSend k dest =>
    have hdest : dest.wf = true := hwf
    simp [encode, decode, hdest]
  | _ => rfl

/-- Only the command of a well-formed operation decodes to it: each row fixes the selector and reads every operand. -/
theorem wf_and_encode_of_decode {c : Command} {i : Instr} (h : decode c = .instr i) : i.wf = true ∧ encode i = c := by
  unfold decode at h
  split at h
  case h_19 hsel => -- `SOCK.SEND`, the one row that also tests an operand's width
    split at h
    · rename_i hargs
      split at h
      · rename_i hdest
        cases h
        exact ⟨hdest, Command.mk_of_fields hsel hargs⟩
      · cases h
    · cases h
  case h_30 => cases h -- no row
  all_goals
    rename_i hsel
    split at h
    · rename_i hargs
      cases h
      exact ⟨rfl, Command.mk_of_fields hsel hargs⟩
    · cases h

/-! ### The obligations -/

/-- Settles O45: decode reads back each row that encode writes, and a row that was read is the one encode writes. -/
theorem commandRoundTrip : Obligations.CommandRoundTrip :=
  ⟨fun _ => decode_encode, fun _ _ => wf_and_encode_of_decode⟩

/-- Settles O46: each command is the encoding of the operation it stands for, but the last, whose selector has no row. -/
theorem selectorsDecode : Obligations.SelectorsDecode :=
  ⟨decode_encode (i := .csum [1, 2]) rfl, decode_encode (i := .ipDec) rfl, decode_encode (i := .icmpChecksum []) rfl,
    decode_encode (i := .sockOpen 1 (.single 0x0800) 64) rfl, decode_encode (i := .arpPoll) rfl,
    decode_encode (i := .fltStep 0) rfl, rfl⟩

end Sys2Proof
end

section
/-! PROOFS. One step: what it does for each input of the host, and the cases a property of every step is proved by
(10_state.md R12, 70_reset_and_hazards.md R260, R262). -/

namespace Sys2Proof.Machine

open Sys2Proof

/-! ### The step, one equation per thing to do -/

section Step

variable {s : State} {rest : List HostInput} {c : Command} {i : Instr}

theorem step_reset (h : s.host = .reset :: rest) : step s = .next (s.setHost rest).applyReset := by
  simp [step, fetch, h]

theorem step_resume (hbusy : s.busy = some i) (hhost : ∀ rest, s.host ≠ .reset :: rest) : step s = exec i s := by
  rcases h : s.host with _ | ⟨_ | _, rest⟩
  · simp [step, fetch, h, hbusy]
  · simp [step, fetch, h, hbusy]
  · exact absurd h (hhost rest)

theorem step_idle (hbusy : s.busy = none) (hhost : s.host = []) : step s = .next s := by
  simp [step, fetch, hhost, hbusy]

theorem step_instr (hbusy : s.busy = none) (hhost : s.host = .issue c :: rest) (hdecode : decode c = .instr i) :
    step s = exec i (s.setHost rest) := by
  simp [step, fetch, hhost, hbusy, hdecode]

theorem step_unassigned (hbusy : s.busy = none) (hhost : s.host = .issue c :: rest) (hdecode : decode c = .unassigned) :
    step s = .next ((s.setHost rest).answered .eInval .none) := by
  simp [step, fetch, hhost, hbusy, hdecode, rejectSelector, State.answered, State.setBusy, State.setReply]

theorem step_badOperands (hbusy : s.busy = none) (hhost : s.host = .issue c :: rest) (hdecode : decode c = .badOperands) :
    step s = .refused (.operandOutOfType c.sel) := by
  simp [step, fetch, hhost, hbusy, hdecode]

end Step

/-- All that a step can do: a reset, an operation of which the state at most lost its first command, the answer to an unassigned
selector, nothing, or the refusal of operands out of their types. -/
theorem step_cases (s : State) :
    (∃ rest, s.host = .reset :: rest ∧ step s = .next (s.setHost rest).applyReset) ∨
    (∃ i, step s = exec i s) ∨
    (∃ rest i, step s = exec i (s.setHost rest)) ∨
    (∃ rest, step s = .next ((s.setHost rest).answered .eInval .none)) ∨
    step s = .next s ∨
    ∃ sel, step s = .refused (.operandOutOfType sel) := by
  by_cases hreset : ∃ rest, s.host = .reset :: rest
  · obtain ⟨rest, h⟩ := hreset
    exact .inl ⟨rest, h, step_reset h⟩
  rw [not_exists] at hreset
  refine .inr ?_
  cases hbusy : s.busy with
  | some i => exact .inl ⟨i, step_resume hbusy hreset⟩
  | none =>
    refine .inr ?_
    rcases hhost : s.host with _ | ⟨c | _, rest⟩
    · exact .inr (.inr (.inl (step_idle hbusy hhost)))
    · cases hdecode : decode c with
      | instr i => exact .inl ⟨rest, i, step_instr hbusy hhost hdecode⟩
      | unassigned => exact .inr (.inl ⟨rest, step_unassigned hbusy hhost hdecode⟩)
      | badOperands => exact .inr (.inr (.inr ⟨c.sel, step_badOperands hbusy hhost hdecode⟩))
    · exact absurd hhost (hreset rest)

/-- A property of states that does not speak of the host's inputs holds after every step but a reset when every answer to an unassigned
selector and everything an operation can do keeps it. -/
theorem step_keeps_unless_reset {P : State → Prop} {s t : State} (hhost : ∀ u rest, P u → P (u.setHost rest))
    (hanswer : ∀ u, P u → P (u.answered .eInval .none)) (hop : ∀ i u v, P u → Happens u i v → P v) (h : P s)
    (hstep : step s = .next t) (hreset : ∀ rest, s.host ≠ .reset :: rest) : P t := by
  rcases step_cases s with ⟨rest, e, -⟩ | ⟨i, e⟩ | ⟨rest, i, e⟩ | ⟨rest, e⟩ | e | ⟨sel, e⟩
  · exact absurd e (hreset rest)
  · exact hop i s t h (exec_happens (e ▸ hstep))
  · exact hop i _ t (hhost s rest h) (exec_happens (e ▸ hstep))
  · cases e ▸ hstep
    exact hanswer _ (hhost s rest h)
  · cases e ▸ hstep
    exact h
  · cases e ▸ hstep

/-- A property that in addition holds after a reset from any state that has it is kept by every step. -/
theorem step_keeps {P : State → Prop} {s t : State} (hhost : ∀ u rest, P u → P (u.setHost rest))
    (hreset : ∀ u, P u → P u.applyReset) (hanswer : ∀ u, P u → P (u.answered .eInval .none))
    (hop : ∀ i u v, P u → Happens u i v → P v) (h : P s) (hstep : step s = .next t) : P t := by
  by_cases hr : ∃ rest, s.host = .reset :: rest
  · obtain ⟨rest, hr⟩ := hr
    cases (step_reset hr) ▸ hstep
    exact hreset _ (hhost s rest h)
  · exact step_keeps_unless_reset hhost hanswer hop h hstep (not_exists.1 hr)

/-! ### Selectors without an operation (30_encoding.md R76) -/

/-- A selector whose number heads no row is unassigned, whatever its operands. -/
theorem decode_unassigned {sel : Byte} (args : List Operand)
    (h : sel.toNat ∉ [0x01, 0x10, 0x11, 0x12, 0x20, 0x21, 0x22, 0x23, 0x24, 0x25, 0x26, 0x27, 0x28, 0x30, 0x31, 0x32, 0x33, 0x40, 0x41,
      0x42, 0x48, 0x49, 0x4A, 0x4B, 0x50, 0x51, 0x60, 0x68, 0x69]) : decode ⟨sel, args⟩ = .unassigned := by
  unfold decode
  split
  case h_30 => rfl -- the last arm of the table: no row
  all_goals
    rename_i hsel
    exact absurd (by rw [hsel]; decide) h

/-! ### The obligations -/

/-- Settles O43: the step's equations for a command, for an operation in progress, and for neither. -/
theorem stepRunsIssuedOperation : Obligations.StepRunsIssuedOperation :=
  ⟨fun _ _ _ _ hbusy hhost hdecode => ⟨(wf_and_encode_of_decode hdecode).1, step_instr hbusy hhost hdecode⟩,
    fun _ _ hbusy hhost => step_resume hbusy hhost, fun _ hbusy hhost => step_idle hbusy hhost⟩

/-- Settles O44: such a command decodes to no operation, and the step answers it. -/
theorem unassignedSelectorChangesNothing : Obligations.UnassignedSelectorChangesNothing :=
  fun _ _ args _ hbusy hhost hsel => step_unassigned hbusy hhost (decode_unassigned args hsel)

end Sys2Proof.Machine
end

section
/-! PROOFS. The machine's invariant: kept by each register write under its own condition, and so by everything an operation can do and by
every step (10_state.md R16 to R26). -/

namespace Sys2Proof.Machine

open Sys2Proof

/-! ### What the link leaves of the state -/

section AfterAck

variable (s : State) (o a : List LinkAck) (n : Nat) (ev : LinkEvent)

@[simp] theorem State.afterAck_eth : (s.afterAck o a n ev).eth = s.eth := rfl
@[simp] theorem State.afterAck_ip4 : (s.afterAck o a n ev).ip4 = s.ip4 := rfl
@[simp] theorem State.afterAck_icmp : (s.afterAck o a n ev).icmp = s.icmp := rfl
@[simp] theorem State.afterAck_acc : (s.afterAck o a n ev).acc = s.acc := rfl
@[simp] theorem State.afterAck_mem : (s.afterAck o a n ev).mem = s.mem := rfl
@[simp] theorem State.afterAck_rx : (s.afterAck o a n ev).rx = s.rx := rfl
@[simp] theorem State.afterAck_sock : (s.afterAck o a n ev).sock = s.sock := rfl
@[simp] theorem State.afterAck_arp : (s.afterAck o a n ev).arp = s.arp := rfl
@[simp] theorem State.afterAck_tally : (s.afterAck o a n ev).tally = s.tally := rfl
@[simp] theorem State.afterAck_flt : (s.afterAck o a n ev).flt = s.flt := rfl
@[simp] theorem State.afterAck_lmac : (s.afterAck o a n ev).lmac = s.lmac := rfl
@[simp] theorem State.afterAck_ghost : (s.afterAck o a n ev).ghost = s.ghost := rfl
@[simp] theorem State.afterAck_host : (s.afterAck o a n ev).host = s.host := rfl
@[simp] theorem State.afterAck_busy : (s.afterAck o a n ev).busy = s.busy := rfl
@[simp] theorem State.afterAck_reply : (s.afterAck o a n ev).reply = s.reply := rfl
@[simp] theorem State.afterAck_trace : (s.afterAck o a n ev).trace = s.trace ++ [ev] := rfl
@[simp] theorem State.afterAck_openSlot (k : Nat) : (s.afterAck o a n ev).openSlot k = s.openSlot k := rfl

end AfterAck

/-- `LinkOpen` takes one answer and records it; the rest of the state is as it was. -/
theorem linkOpen_eq_afterAck {s t : State} {k : Nat} {flt : EtherFilter} {a : LinkAck} (h : linkOpen s k flt = (a, t)) :
    ∃ acks draws, t = s.afterAck acks s.link.sendAcks draws (.opened k flt a) := by
  rcases linkOpen_cases s k flt with ⟨_, rest, -, e⟩ | ⟨-, _, e⟩ <;> cases h.symm.trans e
  · exact ⟨rest, _, rfl⟩
  · exact ⟨[], _, rfl⟩

/-- So does `LinkSend`. -/
theorem linkSend_eq_afterAck {s t : State} {k : Nat} {f : List Byte} {dest : LinkAddr} {a : LinkAck}
    (h : linkSend s k f dest = (a, t)) : ∃ acks draws, t = s.afterAck s.link.openAcks acks draws (.sent k f dest a) := by
  rcases linkSend_cases s k f dest with ⟨_, rest, -, e⟩ | ⟨-, _, e⟩ <;> cases h.symm.trans e
  · exact ⟨rest, _, rfl⟩
  · exact ⟨[], _, rfl⟩

/-- What a receive that waits leaves of the scripts is what follows the answers it used. -/
theorem State.NoAnswer.rest_subset {s : State} {k : Nat} {slot : SockSlot} {dropped rest : List RecvAnswer}
    (h : s.NoAnswer k slot dropped rest) : rest ⊆ s.link.offers := by
  rcases h.script with e | ⟨-, rfl⟩
  · rw [e]
    exact fun a ha => by simp [ha]
  · exact List.nil_subset _

theorem State.LinkFails.rest_subset {s : State} {k : Nat} {slot : SockSlot} {dropped rest : List RecvAnswer}
    (h : s.LinkFails k slot dropped rest) : rest ⊆ s.link.offers := by
  rw [h.script]
  exact fun a ha => by simp [ha]

theorem State.Delivers.rest_subset {s : State} {k : Nat} {slot : SockSlot} {dropped : List RecvAnswer} {f : List Byte} {src : LinkAddr}
    {rest : List RecvAnswer} (h : s.Delivers k slot dropped f src rest) : rest ⊆ s.link.offers := by
  rw [h.script]
  exact fun a ha => by simp [ha]

/-! ### The slots after `SOCK.OPEN` -/

/-- A slot other than the one that was set is open exactly when it was. -/
theorem State.openSlot_setSock_ne {s : State} {k j : Nat} (hk : k < Config.nsock) (slot : SockSlot) (hne : j ≠ k) :
    (s.setSock (s.sock.set k slot hk)).openSlot j = s.openSlot j := by
  unfold State.openSlot
  split
  · simp [Vector.getElem_set_ne _ _ (Ne.symm hne)]
  · rfl

/-- A slot set to open settings is open with them. -/
theorem State.openSlot_setSock_self {s : State} {k : Nat} (hk : k < Config.nsock) {slot : SockSlot} (ho : slot.isOpen = true) :
    (s.setSock (s.sock.set k slot hk)).openSlot k = some slot :=
  State.openSlot_eq_some_iff.2 ⟨hk, by simp, ho⟩

/-- Opening a closed slot leaves every open slot as it was. -/
theorem State.openSlot_setSock_of_some {s : State} {k j : Nat} {slot new : SockSlot} (hk : k < Config.nsock)
    (hclosed : (s.openSlot k).isSome = false) (ho : s.openSlot j = some slot) :
    (s.setSock (s.sock.set k new hk)).openSlot j = some slot := by
  have hne : j ≠ k := by
    rintro rfl
    simp [ho] at hclosed
  rw [State.openSlot_setSock_ne hk new hne, ho]

/-! ### Counting a protocol (47_consumers.md R211) -/

/-- The keys after a count are those before it and the one counted. -/
theorem key_of_mem_tallyAdd {p : Byte} {t : Tally} {e : Byte × Nat} (h : e ∈ tallyAdd p t) : e.1 = p ∨ ∃ a ∈ t, a.1 = e.1 := by
  induction t with
  | nil => exact .inl (by rw [List.mem_singleton.1 h])
  | cons head rest ih =>
    obtain ⟨q, n⟩ := head
    unfold tallyAdd at h
    split at h
    · rcases List.mem_cons.1 h with rfl | h
      · exact .inl rfl
      · exact .inr ⟨e, h, rfl⟩
    split at h
    · rcases List.mem_cons.1 h with rfl | h
      · exact .inr ⟨(q, n), List.mem_cons_self, rfl⟩
      · exact .inr ⟨e, List.mem_cons_of_mem _ h, rfl⟩
    · rcases List.mem_cons.1 h with rfl | h
      · exact .inr ⟨(q, n), List.mem_cons_self, rfl⟩
      · exact (ih h).imp_right fun ⟨a, ha, hkey⟩ => ⟨a, List.mem_cons_of_mem _ ha, hkey⟩

/-- The keys still rise after a count. -/
theorem tallyAdd_keys (p : Byte) {t : Tally} (h : t.Pairwise fun a b => a.1.toNat < b.1.toNat) :
    (tallyAdd p t).Pairwise fun a b => a.1.toNat < b.1.toNat := by
  induction t with
  | nil => exact List.pairwise_singleton _ _
  | cons head rest ih =>
    obtain ⟨q, n⟩ := head
    obtain ⟨hhead, hrest⟩ := List.pairwise_cons.1 h
    unfold tallyAdd
    split
    · rename_i hlt
      refine List.pairwise_cons.2 ⟨fun e he => ?_, h⟩
      rcases List.mem_cons.1 he with rfl | he
      · exact hlt
      · exact hlt.trans (hhead e he)
    split
    · exact List.pairwise_cons.2 ⟨hhead, hrest⟩
    · rename_i hnlt hne
      refine List.pairwise_cons.2 ⟨fun e he => ?_, ih hrest⟩
      rcases key_of_mem_tallyAdd he with hp | ⟨a, ha, hkey⟩
      · have : p.toNat ≠ q.toNat := fun h => hne (BitVec.eq_of_toNat_eq h)
        simp only [hp]
        omega
      · exact hkey ▸ hhead a ha

/-- Every count of the tally is still at least 1. -/
theorem tallyAdd_counts (p : Byte) {t : Tally} (h : ∀ e ∈ t, 1 ≤ e.2) : ∀ e ∈ tallyAdd p t, 1 ≤ e.2 := by
  induction t with
  | nil => exact fun e he => by simp [List.mem_singleton.1 he]
  | cons head rest ih =>
    obtain ⟨q, n⟩ := head
    obtain ⟨hhead, hrest⟩ := List.forall_mem_cons.1 h
    unfold tallyAdd
    split
    · exact List.forall_mem_cons.2 ⟨le_rfl, h⟩
    split
    · exact List.forall_mem_cons.2 ⟨Nat.le_add_left 1 n, hrest⟩
    · exact List.forall_mem_cons.2 ⟨hhead, ih hrest⟩

/-! ### Headers that stay valid (10_state.md R16, R19) -/

theorem ipNewHeader_wf (id : U16) : (ipNewHeader id).wf = true := by
  simp [Ip4Header.wf_iff, ipNewHeader]

/-- Options padded to a multiple of 4, within both bounds, keep a header valid. -/
theorem ipWithOptions_wf {h : Ip4Header} {p : List Byte} (hwf : h.wf = true) (hmod : p.length % 4 = 0) (hhlen : h.hlen + p.length ≤ 60)
    (htlen : h.tlen.toNat + p.length ≤ 0xFFFF) : (ipWithOptions h p).wf = true := by
  obtain ⟨h4, hmin, -, hopts, hle⟩ := h.wf_iff.1 hwf
  have hsum : (h.tlen + BitVec.ofNat 16 p.length).toNat = h.tlen.toNat + p.length := by
    rw [BitVec.toNat_add, BitVec.toNat_ofNat]
    omega
  simp only [Ip4Header.wf_iff, ipWithOptions, List.length_append, hsum]
  omega

theorem icmpLoadHeader_wf (type code : Byte) (ident seq : U16) : (icmpLoadHeader type code ident seq).wf = true := by
  cases h : hasPair type <;> simp [IcmpHeader.wf, icmpLoadHeader, h]

/-! ### The invariant after each write -/

namespace State.Inv

variable {s : State} (h : s.Inv)
include h

theorem setHost (rest : List HostInput) : (s.setHost rest).Inv := { h with }

/-- An operation that has ended is in progress no more. -/
theorem answered (e : Status) (r : Result) : (s.answered e r).Inv := { h with busy := nofun }

theorem waiting {i : Instr} (hi : mayBlock i = true) : (s.waiting i).Inv :=
  { h with busy := fun _ hj => Option.some.inj hj ▸ ⟨hi, rfl⟩ }

theorem setEth (v : EthReg) : (s.setEth v).Inv := { h with }

theorem setAcc (v : Nat) : (s.setAcc v).Inv := { h with }

theorem setGhost (v : Ghost) : (s.setGhost v).Inv := { h with }

theorem setFlt (v : FltReg) : (s.setFlt v).Inv := { h with }

theorem setIp4 {hdr : Ip4Header} (hwf : hdr.wf = true) : (s.setIp4 ⟨true, hdr⟩).Inv := { h with ip4 := fun _ => hwf }

theorem setIcmp {hdr : IcmpHeader} (hwf : hdr.wf = true) : (s.setIcmp ⟨true, hdr⟩).Inv := { h with icmp := fun _ => hwf }

theorem putIp4 {hdr : Ip4Header} (hwf : hdr.wf = true) : (s.putIp4 hdr).Inv := (h.setIp4 hwf).setGhost _

theorem putIcmp {hdr : IcmpHeader} (hwf : hdr.wf = true) : (s.putIcmp hdr).Inv := (h.setIcmp hwf).setGhost _

/-- The cursor may move within the captured bytes. -/
theorem setCursor {n : Nat} (hvalid : s.rx.valid = true) (hn : n ≤ s.rxlen) : (s.setRx { s.rx with pos := n }).Inv :=
  { h with
    rxEmpty := fun hv => absurd (hvalid.symm.trans hv) (by simp)
    cursor := hn }

/-- `TXB` may hold any bytes within its capacity. -/
theorem setTxb {b : List Byte} (hb : b.length ≤ Config.txCap) : (s.setMem (s.mem.setBuf .txb b)).Inv :=
  { h with mem := (Memory.wf_iff _).2 ⟨hb, ((Memory.wf_iff _).1 h.mem).2⟩ }

theorem appended {data : List Byte} (hroom : s.txlen + data.length ≤ Config.txCap) : (s.appended data).Inv :=
  h.setTxb (by rwa [List.length_append])

theorem setTally {t : Tally} (hkeys : t.Pairwise fun a b => a.1.toNat < b.1.toNat) (hcounts : ∀ e ∈ t, 1 ≤ e.2) :
    (s.setTally t).Inv := { h with tallyKeys := hkeys, tallyCounts := hcounts }

theorem setArp {v : ArpReg} (hwait : v.state = .awaitingReply → (s.openSlot v.sock).isSome = true)
    (herr : v.state = .failed → v.err = .eIo ∨ v.err = .eNoReply) : (s.setArp v).Inv := { h with arpWait := hwait, arpErr := herr }

/-- A closed slot may be opened with a capacity that is allowed: the other slots are as they were. -/
theorem openSock {k cap : Nat} (flt : EtherFilter) (hk : k < Config.nsock) (hclosed : (s.openSlot k).isSome = false)
    (hcap : cap ≤ Config.capMax) : (s.setSock (s.sock.set k ⟨true, flt, cap⟩ hk)).Inv :=
  { h with
    slots := by
      intro j slot hj
      by_cases hjk : j = k
      · subst hjk
        rw [State.openSlot_setSock_self hk rfl, Option.some.injEq] at hj
        exact hj ▸ hcap
      · rw [State.openSlot_setSock_ne hk _ hjk] at hj
        exact h.slots j slot hj
    arpWait := by
      intro hwait
      obtain ⟨slot, hslot⟩ := Option.isSome_iff_exists.1 (h.arpWait hwait)
      rw [State.setSock_arp, State.openSlot_setSock_of_some hk hclosed hslot, Option.isSome_some] }

theorem afterAck (openAcks sendAcks : List LinkAck) (draws : Nat) (ev : LinkEvent) : (s.afterAck openAcks sendAcks draws ev).Inv :=
  { h with }

/-- What is left of the link's scripts still comes with indexes of their width. -/
theorem afterAnswers (k : Nat) (used : List RecvAnswer) {rest : List RecvAnswer} (hrest : rest ⊆ s.link.offers) :
    (s.afterAnswers k used rest).Inv :=
  { h with
    inbound := by
      intro f src hf
      rcases List.mem_append.1 hf with hf | hf
      · exact LinkEnv.offers_fit h.inbound (hrest hf)
      · exact h.inbound f src (List.mem_append_right _ hf) }

theorem captured {f : List Byte} {cap : Nat} {src : LinkAddr} (hcap : cap ≤ Config.capMax) (hsrc : src.wf = true) :
    (s.captured f cap src).Inv :=
  { h with
    mem := (Memory.wf_iff _).2 ⟨((Memory.wf_iff _).1 h.mem).1, (List.length_take_le cap f).trans hcap⟩
    rxEmpty := nofun
    cursor := Nat.zero_le _
    rxSrc := hsrc }

theorem afterFrame {k : Nat} {slot : SockSlot} {dropped : List RecvAnswer} {f : List Byte} {src : LinkAddr} {rest : List RecvAnswer}
    (hd : s.Delivers k slot dropped f src rest) : (s.afterFrame k dropped f src rest slot.cap).Inv :=
  (h.afterAnswers k _ hd.rest_subset).captured (h.slots k slot hd.slotOpen) (LinkEnv.offers_fit (f := f) h.inbound (by simp [hd.script]))

omit h in
/-- The invariant at power-on, and with whatever of the link, its record and the host a reset keeps. -/
theorem reset : State.reset.Inv where
  mem := Memory.wf_reset
  rxEmpty := fun _ => ⟨rfl, rfl⟩
  cursor := le_rfl
  ip4 := nofun
  icmp := nofun
  slots := fun k _ hk => absurd (State.reset_openSlot k ▸ hk) nofun
  arpWait := nofun
  arpErr := nofun
  tallyKeys := List.Pairwise.nil
  tallyCounts := nofun
  inbound := nofun
  rxSrc := rfl
  busy := nofun

theorem applyReset : s.applyReset.Inv := { reset with inbound := h.inbound }

/-- The decode of a captured frame's two headers stands within the capture. -/
theorem afterHeaders {k : Nat} {slot : SockSlot} {dropped : List RecvAnswer} {f : List Byte} {src : LinkAddr} {rest : List RecvAnswer}
    (hd : s.Delivers k slot dropped f src rest) (e : EthHeader) {hdr : Ip4Header} (hwf : hdr.wf = true)
    (hlen : 14 + hdr.hlen ≤ (f.take slot.cap).length) :
    ((s.afterFrame k dropped f src rest slot.cap).afterHeaders e hdr src).Inv :=
  (((h.afterFrame hd).setEth ⟨true, e⟩).putIp4 hwf).setCursor rfl hlen

end State.Inv

/-- Everything an operation can do keeps the invariant. -/
theorem Happens.keepsInv {s t : State} {i : Instr} (hs : s.Inv) (h : Happens s i t) : t.Inv := by
  cases h with
  | raises => exact hs.answered _ _
  | waits _ k _ _ _ hrecv hn => exact (hs.afterAnswers k _ hn.rest_subset).waiting (mayBlock_of_receivesOn hrecv)
  | linkFails _ k _ _ _ _ _ hn => exact (hs.afterAnswers k _ hn.rest_subset).answered _ _
  | csum => exact (hs.setAcc _).answered _ _
  | ethLoad => exact (hs.setEth _).answered _ _
  | ethDec hdr hvalid hpos => exact ((hs.setEth ⟨true, hdr⟩).setCursor hvalid hpos).answered _ _
  | ethEnc _ hroom | ipEnc _ hroom | icmpEnc _ hroom | txAppend _ hroom => exact (hs.appended hroom).answered _ _
  | ipNew id => exact (hs.putIp4 (ipNewHeader_wf id)).answered _ _
  | ipTtl _ hvalid | ipProtocol _ hvalid | ipDestination _ hvalid =>
    refine (hs.putIp4 ?_).answered _ _
    exact hs.ip4 hvalid
  | ipAppendOpt opt hvalid hhlen htlen =>
    have hmod : (pad4 opt).length % 4 = 0 := by rw [pad4_length]; omega
    exact (hs.putIp4 (ipWithOptions_wf (hs.ip4 hvalid) hmod hhlen htlen)).answered _ _
  | ipChecksum hvalid =>
    refine (((hs.setIp4 ?_).setAcc _).setGhost _).answered _ _
    exact hs.ip4 hvalid
  | ipDec hdr hvalid hwf hpos => exact ((hs.putIp4 hwf).setCursor hvalid hpos).answered _ _
  | ipLoad hdr hwf => exact (hs.putIp4 hwf).answered _ _
  | icmpLoad => exact (hs.putIcmp (icmpLoadHeader_wf _ _ _ _)).answered _ _
  | icmpDec hdr n hvalid hwf hpos => exact ((hs.putIcmp hwf).setCursor hvalid hpos).answered _ _
  | icmpChecksum _ hvalid =>
    refine (((hs.setIcmp ?_).setAcc _).setGhost _).answered _ _
    exact hs.icmp hvalid
  | sockOpen k flt cap hk u hclosed hcap hlink =>
    obtain ⟨acks, draws, rfl⟩ := linkOpen_eq_afterAck hlink
    exact ((hs.afterAck acks _ draws _).openSock flt hk hclosed hcap).answered _ _
  | sockOpenRefused k flt cap u _ hlink =>
    obtain ⟨acks, draws, rfl⟩ := linkOpen_eq_afterAck hlink
    exact (hs.afterAck acks _ draws _).answered _ _
  | sockSend k dest a u _ hlink =>
    obtain ⟨acks, draws, rfl⟩ := linkSend_eq_afterAck hlink
    exact (hs.afterAck _ acks draws _).answered _ _
  | sockRecv _ _ _ _ _ _ hd => exact (hs.afterFrame hd).answered _ _
  | txClear =>
    rw [Memory.setLen_zero]
    exact (hs.setTxb (Nat.zero_le _)).answered _ _
  | rxRest => exact hs.answered _ _
  | rxRewind hvalid => exact (hs.setCursor hvalid (Nat.zero_le _)).answered _ _
  | arpStart k target lip lmac a u hopen hlink =>
    obtain ⟨acks, draws, rfl⟩ := linkSend_eq_afterAck hlink
    rw [Memory.overwrite_eq]
    have hreq : (arpRequest target lip lmac).length ≤ Config.txCap := Nat.le_add_left 42 _
    refine (((hs.setTxb hreq).afterAck _ acks draws _).setArp ?_ ?_).answered _ _
    · cases a with
      | ok => exact fun _ => hopen
      | fail => exact nofun
    · cases a with
      | ok => exact nofun
      | fail => exact fun _ => .inl rfl
  | arpClosed => exact (hs.setArp (by simp) fun _ => .inr rfl).answered _ _
  | arpNoReply _ _ _ _ hn => exact ((hs.afterAnswers _ _ hn.rest_subset).setArp (by simp) fun _ => .inr rfl).answered _ _
  | arpResolved _ _ _ _ _ _ hd => exact ((hs.afterFrame hd).setArp (by simp) (by simp)).answered _ _
  | arpForeign _ _ _ _ _ _ hd => exact (hs.afterFrame hd).answered _ _
  | skipsEth _ _ _ _ _ _ _ _ hd => exact (hs.afterFrame hd).answered _ _
  | skipsIp _ _ slot _ f _ _ _ r _ _ hd heth =>
    have hlen : 14 ≤ (f.take slot.cap).length := (ethDecode_eq_ok_iff.1 heth).1
    exact (((hs.afterFrame hd).setEth _).setCursor rfl hlen).answered _ _
  | counts _ _ _ _ _ _ e _ hdr _ hd _ _ hwf hlen =>
    exact ((hs.afterHeaders hd e hwf hlen).setTally (tallyAdd_keys _ hs.tallyKeys) (tallyAdd_counts _ hs.tallyCounts)).answered _ _
  | filters _ _ _ _ _ _ e _ hdr _ _ hd _ _ hwf hlen => exact (hs.afterHeaders hd e hwf hlen).answered _ _
  | fltSet => exact (hs.setFlt _).answered _ _

/-! ### The obligations -/

/-- Settles O57: a step is a reset, an answer, or one of the things an operation can do, and each keeps the invariant. -/
theorem stepKeepsInvariant : Obligations.StepKeepsInvariant :=
  fun _ _ hs => step_keeps (fun _ rest hu => hu.setHost rest) (fun _ hu => hu.applyReset) (fun _ hu => hu.answered _ _)
    (fun _ _ _ hu => Happens.keepsInv hu) hs

end Sys2Proof.Machine
end

section
/-! PROOFS. What good states promise: the ghost flags kept by every step, checksums that verify once sent, and no step that faults
(70_reset_and_hazards.md R270 to R272, 20_memory.md R45, 60_exceptions.md R230). -/

namespace Sys2Proof.Machine

open Sys2Proof

/-! ### The ghost flags after each write (R271) -/

namespace State.FreshInv

variable {s : State}

/-- The promise speaks of the two headers and the ghost values alone. -/
theorem congr {t : State} (h : s.FreshInv) (hip4 : t.ip4 = s.ip4) (hicmp : t.icmp = s.icmp) (hghost : t.ghost = s.ghost) :
    t.FreshInv := by
  obtain ⟨hip, hic⟩ := h
  constructor
  · rwa [hghost, hip4]
  · rwa [hghost, hicmp]

/-- Where no checksum is fresh nothing is promised. -/
theorem of_stale (hip : s.ghost.ipFresh = false) (hicmp : s.ghost.icmpFresh = false) : s.FreshInv where
  ip := fun h => absurd (hip.symm.trans h) (by simp)
  icmp := fun h => absurd (hicmp.symm.trans h) (by simp)

theorem putIp4 (h : s.FreshInv) (hdr : Ip4Header) : (s.putIp4 hdr).FreshInv := { h with ip := nofun }

theorem putIcmp (h : s.FreshInv) (hdr : IcmpHeader) : (s.putIcmp hdr).FreshInv := { h with icmp := nofun }

/-- The checksum that `IP.CHECKSUM` stores is the header's: it does not cover its own field. -/
theorem ipSummed (h : s.FreshInv) : s.ipSummed.FreshInv := { h with ip := fun _ => ⟨rfl, rfl⟩ }

/-- So is the one `ICMP.CHECKSUM` stores, of the header and the payload it keeps as `over`. -/
theorem icmpSummed (h : s.FreshInv) (payload : List Byte) : (s.icmpSummed payload).FreshInv := { h with icmp := fun _ => ⟨rfl, rfl⟩ }

end State.FreshInv

/-- Everything an operation can do keeps the promise: it leaves both headers, or writes one as stale or with its checksum. -/
theorem Happens.keepsFresh {s t : State} {i : Instr} (hs : s.FreshInv) (h : Happens s i t) : t.FreshInv := by
  cases h with
  | ipNew | ipTtl | ipProtocol | ipDestination | ipAppendOpt | ipDec | ipLoad => exact (hs.putIp4 _).congr rfl rfl rfl
  | counts _ _ _ _ _ _ _ _ hdr | filters _ _ _ _ _ _ _ _ hdr => exact (hs.putIp4 hdr).congr rfl rfl rfl
  | icmpLoad | icmpDec => exact (hs.putIcmp _).congr rfl rfl rfl
  | ipChecksum => exact hs.ipSummed.congr rfl rfl rfl
  | icmpChecksum payload => exact (hs.icmpSummed payload).congr rfl rfl rfl
  | sockOpen _ _ _ _ _ _ _ hlink | sockOpenRefused _ _ _ _ _ hlink =>
    obtain ⟨_, _, rfl⟩ := linkOpen_eq_afterAck hlink
    exact hs.congr rfl rfl rfl
  | sockSend _ _ _ _ _ hlink | arpStart _ _ _ _ _ _ _ hlink =>
    obtain ⟨_, _, rfl⟩ := linkSend_eq_afterAck hlink
    exact hs.congr (by simp) (by simp) (by simp)
  | _ => exact hs.congr rfl rfl rfl

/-! ### Headers that verify (R270, R272) -/

/-- A header that stores its own checksum has the checksum 0 as it goes out. -/
theorem csum16_ipEncode_of_current {h : Ip4Header} (hcsum : h.csum = csum16 (ipHeaderBytes h)) : csum16 (ipEncode h) = 0 := by
  have hfold := foldedSum_ipEncode_summed h
  rw [← hcsum] at hfold
  exact csum16_eq_zero hfold

/-- So has an ICMP header that stores the checksum of itself and a payload, followed by that payload. -/
theorem csum16_icmpEncode_of_current {h : IcmpHeader} {payload : List Byte} (hcsum : h.csum = csum16 (icmpSummedBytes h payload)) :
    csum16 (icmpEncode h ++ payload) = 0 := by
  have hfold := foldedSum_icmpEncode_summed h payload
  rw [← hcsum] at hfold
  exact csum16_eq_zero hfold

theorem exec_ipEnc_fits {s : State} (hvalid : s.ip4.valid = true) (hroom : s.txlen + (ipEncode s.ip4.hdr).length ≤ Config.txCap) :
    exec .ipEnc s = .next ((s.appended (ipEncode s.ip4.hdr)).answered .ok .none) := by
  rw [exec_ipEnc, hvalid, encodeOp_fits hroom, OpEnd.outcome_done]

theorem exec_icmpEnc_fits {s : State} (hvalid : s.icmp.valid = true)
    (hroom : s.txlen + (icmpEncode s.icmp.hdr).length ≤ Config.txCap) :
    exec .icmpEnc s = .next ((s.appended (icmpEncode s.icmp.hdr)).answered .ok .none) := by
  rw [exec_icmpEnc, hvalid, encodeOp_fits hroom, OpEnd.outcome_done]

/-! ### How an operation ends (60_exceptions.md R230) -/

/-- With the cursor within the capture an operation has a next state. -/
theorem exec_next_of_cursor {s : State} (hcursor : s.rx.pos ≤ s.rxlen) (i : Instr) : ∃ t, exec i s = .next t ∧ Happens s i t := by
  rcases exec_answers i s with hnext | ⟨-, hbeyond⟩
  · exact hnext
  · exact absurd hcursor (Nat.not_le.2 hbeyond)

/-- In its next state an operation has ended with a reply, or waits in a receive. -/
theorem Happens.endsOrWaits {s t : State} {i : Instr} (h : Happens s i t) :
    (t.busy = none ∧ ∃ r, t.reply = some r) ∨ (mayBlock i = true ∧ t.busy = some i ∧ t.reply = none) := by
  cases h with
  | waits _ _ _ _ _ hrecv => exact .inr ⟨mayBlock_of_receivesOn hrecv, rfl, rfl⟩
  | _ => exact .inl ⟨rfl, _, rfl⟩

/-! ### The obligations -/

/-- Settles O56: at power-on the registers are empty and no checksum is fresh. -/
theorem resetSatisfiesInvariants : Obligations.ResetSatisfiesInvariants :=
  ⟨State.Inv.reset, State.FreshInv.of_stale rfl rfl⟩

/-- Settles O59: a step is a reset, after which nothing is fresh, an answer, or one of the things an operation can do. -/
theorem stepKeepsFreshness : Obligations.StepKeepsFreshness :=
  fun _ _ hs => step_keeps (fun _ _ hu => hu.congr rfl rfl rfl) (fun _ _ => .of_stale rfl rfl) (fun _ hu => hu.congr rfl rfl rfl)
    (fun _ _ _ hu => Happens.keepsFresh hu) hs

/-- Settles O58: a step faults only in an operation, and an operation only with the cursor beyond the capture. -/
theorem goodStatesNeverFault : Obligations.GoodStatesNeverFault := by
  intro s hs φ hfault
  have hop : ∀ i u, u.Inv → exec i u ≠ .fault φ := by
    intro i u hu he
    obtain ⟨t, hnext, -⟩ := exec_next_of_cursor hu.cursor i
    exact nomatch hnext.symm.trans he
  rcases step_cases s with ⟨_, -, e⟩ | ⟨i, e⟩ | ⟨rest, i, e⟩ | ⟨_, e⟩ | e | ⟨_, e⟩ <;> rw [e] at hfault
  · cases hfault
  · exact hop i s hs hfault
  · exact hop i _ (hs.setHost rest) hfault
  · cases hfault
  · cases hfault
  · cases hfault

/-- Settles O48: with the cursor within the capture there is a next state, and each that can happen has a reply or waits. -/
theorem operationEndsOrWaits : Obligations.OperationEndsOrWaits := by
  intro i s hs
  obtain ⟨t, hexec, ht⟩ := exec_next_of_cursor hs.cursor i
  exact ⟨t, hexec, ht.endsOrWaits⟩

/-- Settles O60: a fresh checksum is current, so the bytes that the encodes append sum to `0xFFFF`. -/
theorem freshEncodesVerify : Obligations.FreshEncodesVerify := by
  refine fun s hs hfresh => ⟨fun hip hroom => ?ip, fun hicmp hroom => ?icmp⟩
  case ip =>
    obtain ⟨hvalid, hcsum⟩ := hfresh.ip hip
    have hlen := ipEncode_length_of_wf (hs.ip4 hvalid)
    exact ⟨_, _, exec_ipEnc_fits hvalid (by rwa [hlen]), rfl, rfl, csum16_ipEncode_of_current hcsum⟩
  case icmp =>
    obtain ⟨hvalid, hcsum⟩ := hfresh.icmp hicmp
    rw [← icmpEncode_length] at hroom
    have hpayload : ((s.appended (icmpEncode s.icmp.hdr)).answered .ok .none).txlen + s.ghost.icmpOver.length ≤ Config.txCap := by
      rwa [State.txlen, State.answered_mem, State.appended, List.length_append]
    exact ⟨_, _, _, exec_icmpEnc_fits hvalid (by omega), exec_txAppend_fits hpayload, rfl, List.append_assoc _ _ _,
      csum16_icmpEncode_of_current hcsum⟩

end Sys2Proof.Machine
end

section
/-! PROOFS. Which operation writes which state, what an error leaves, and what only reset undoes (10_state.md R11 to R30, 46_arp.md R191,
20_memory.md R54, 60_exceptions.md R238). -/

namespace Sys2Proof.Machine

open Sys2Proof

/-! ### What is never undone but by reset (R11, R24) -/

/-- Every value and every open slot of `s` is still there in `t`. -/
structure State.KeepsOpen (s t : State) : Prop where
  eth : s.eth.valid = true → t.eth.valid = true
  ip4 : s.ip4.valid = true → t.ip4.valid = true
  icmp : s.icmp.valid = true → t.icmp.valid = true
  rx : s.rx.valid = true → t.rx.valid = true
  slots : ∀ k slot, s.openSlot k = some slot → t.openSlot k = some slot

namespace State.KeepsOpen

variable {s t u : State}

theorem refl (s : State) : s.KeepsOpen s := ⟨id, id, id, id, fun _ _ => id⟩

theorem trans (h : s.KeepsOpen t) (h' : t.KeepsOpen u) : s.KeepsOpen u :=
  ⟨h'.eth ∘ h.eth, h'.ip4 ∘ h.ip4, h'.icmp ∘ h.icmp, h'.rx ∘ h.rx, fun k slot => h'.slots k slot ∘ h.slots k slot⟩

end State.KeepsOpen

/-- No operation clears a valid bit, and the one that writes a slot writes a closed one. -/
theorem Happens.keepsOpen {s t : State} {i : Instr} (h : Happens s i t) : s.KeepsOpen t := by
  have hs := State.KeepsOpen.refl s
  cases h with
  | ethLoad => exact { hs with eth := fun _ => rfl }
  | ethDec _ hvalid => exact { hs with eth := fun _ => rfl }
  | ipNew | ipTtl | ipProtocol | ipDestination | ipAppendOpt | ipChecksum | ipDec | ipLoad => exact { hs with ip4 := fun _ => rfl }
  | icmpLoad | icmpDec | icmpChecksum => exact { hs with icmp := fun _ => rfl }
  | sockRecv | arpResolved | arpForeign | skipsEth => exact { hs with rx := fun _ => rfl }
  | skipsIp => exact { hs with eth := fun _ => rfl, rx := fun _ => rfl }
  | counts | filters => exact { hs with eth := fun _ => rfl, ip4 := fun _ => rfl, rx := fun _ => rfl }
  | sockOpen _ _ _ hk _ hclosed _ hlink =>
    obtain ⟨_, _, rfl⟩ := linkOpen_eq_afterAck hlink
    exact { hs with slots := fun _ _ hslot => State.openSlot_setSock_of_some hk hclosed hslot }
  | sockOpenRefused _ _ _ _ _ hlink =>
    obtain ⟨_, _, rfl⟩ := linkOpen_eq_afterAck hlink
    exact { hs with }
  | sockSend _ _ _ _ _ hlink =>
    obtain ⟨_, _, rfl⟩ := linkSend_eq_afterAck hlink
    exact { hs with }
  | arpStart _ _ _ _ _ _ _ hlink =>
    obtain ⟨_, _, rfl⟩ := linkSend_eq_afterAck hlink
    exact ⟨by simp, by simp, by simp, by simp, fun k _ hslot => (State.openSlot_congr (by simp) k).trans hslot⟩
  | _ => exact { hs with }

/-! ### The record of link events (20_memory.md R54) -/

/-- State `t` has added no send to the record of `s`. -/
def State.AddsNoSend (s t : State) : Prop :=
  ∃ added, t.trace = s.trace ++ added ∧ ∀ k f dest ack, LinkEvent.sent k f dest ack ∉ added

theorem State.AddsNoSend.of_eq {s t : State} (h : t.trace = s.trace) : s.AddsNoSend t := ⟨[], by simp [h]⟩

theorem State.AddsNoSend.received {s t : State} {k : Nat} {used : List RecvAnswer} (h : t.trace = s.trace ++ used.map (.received k)) :
    s.AddsNoSend t := ⟨_, h, by simp⟩

theorem State.AddsNoSend.opened {s t : State} {k : Nat} {flt : EtherFilter} {ack : LinkAck}
    (h : t.trace = s.trace ++ [.opened k flt ack]) : s.AddsNoSend t := ⟨_, h, by simp⟩

/-- An operation adds no send to the record, or it is one of the two that send and adds that send alone. -/
theorem Happens.record {s t : State} {i : Instr} (h : Happens s i t) :
    s.AddsNoSend t ∨ ∃ k f dest ack, t.trace = s.trace ++ [.sent k f dest ack] ∧
      (i = .sockSend k dest ∧ f = s.mem.txb ∨ (∃ target lip lmac, i = .arpStart k target lip lmac) ∧ f = t.mem.txb) := by
  cases h with
  | waits | linkFails | sockRecv | arpNoReply | arpResolved | arpForeign | skipsEth | skipsIp | counts | filters =>
    exact .inl (.received rfl)
  | sockOpen _ _ _ _ _ _ _ hlink | sockOpenRefused _ _ _ _ _ hlink =>
    obtain ⟨_, _, rfl⟩ := linkOpen_eq_afterAck hlink
    exact .inl (.opened rfl)
  | sockSend k dest ack _ _ hlink =>
    obtain ⟨_, _, rfl⟩ := linkSend_eq_afterAck hlink
    exact .inr ⟨k, s.mem.txb, dest, ack, rfl, .inl ⟨rfl, rfl⟩⟩
  | arpStart k target lip lmac ack _ _ hlink =>
    obtain ⟨_, _, rfl⟩ := linkSend_eq_afterAck hlink
    refine .inr ⟨k, arpRequest target lip lmac, arpDest, ack, by simp, .inr ⟨⟨target, lip, lmac, rfl⟩, ?_⟩⟩
    simp [Memory.overwrite_eq, Memory.setBuf]
  | _ => exact .inl (.of_eq rfl)

/-! ### The obligations -/

/-- Settles O50: what an operation can do with a status other than `OK` is a raise, a refusal of the link, or one of the four cases. -/
theorem errorsChangeNothing : Obligations.ErrorsChangeNothing := by
  intro i s t r hexec hreply herr
  cases exec_happens hexec with
  | raises | linkFails => exact .inl rfl
  | waits => cases hreply
  | sockOpenRefused _ _ _ _ _ hlink =>
    obtain ⟨_, _, rfl⟩ := linkOpen_eq_afterAck hlink
    exact .inl rfl
  | sockSend _ _ _ _ _ hlink =>
    obtain ⟨_, _, rfl⟩ := linkSend_eq_afterAck hlink
    exact .inl rfl
  | arpStart k target lip lmac ack _ _ hlink =>
    obtain ⟨_, _, rfl⟩ := linkSend_eq_afterAck hlink
    cases hreply
    cases ack with
    | ok => exact absurd rfl herr
    | fail =>
      rw [Memory.overwrite_eq]
      refine .inr (.inl ⟨k, target, lip, lmac, rfl, rfl, ?_⟩)
      generalize arpRequest target lip lmac = f
      rfl
  | arpClosed | arpNoReply =>
    cases hreply
    exact .inr (.inr (.inl ⟨rfl, rfl, rfl⟩))
  | arpForeign _ _ _ src =>
    cases hreply
    exact .inr (.inr (.inr (.inl ⟨rfl, rfl, _, src, rfl⟩)))
  | skipsEth _ k _ _ _ src _ hloop =>
    cases hreply
    exact .inr (.inr (.inr (.inr ⟨hloop.imp (⟨k, ·⟩) (⟨k, ·⟩), rfl, .inl rfl, _, src, .inl rfl⟩)))
  | skipsIp _ k _ _ _ src _ e _ _ hloop _ _ hdecode =>
    cases hreply
    exact .inr (.inr (.inr (.inr ⟨hloop.imp (⟨k, ·⟩) (⟨k, ·⟩), rfl, ipDecode_err hdecode, _, src, .inr ⟨e, rfl⟩⟩)))
  | _ =>
    cases hreply
    exact absurd rfl herr

/-- Settles O51: the reset step's equation; every other step keeps what an operation keeps. -/
theorem onlyResetClears : Obligations.OnlyResetClears := by
  refine ⟨fun s rest hhost => ⟨step_reset hhost, rfl, rfl, rfl, rfl⟩, fun s t hstep hreset => ?_⟩
  obtain ⟨heth, hip4, hicmp, hrx, hslots⟩ : s.KeepsOpen t :=
    step_keeps_unless_reset (P := s.KeepsOpen) (fun _ _ hu => { hu with }) (fun _ hu => { hu with })
      (fun _ _ _ hu h => hu.trans h.keepsOpen) (.refl s) hstep hreset
  exact ⟨heth, hip4, hicmp, hrx, hslots⟩

/-- Settles O52: the next states of an operation are written out as register writes, and each operation writes only what it is listed
for. -/
theorem writersOfState : Obligations.WritersOfState := by
  intro i s t hexec
  cases exec_happens hexec with
  | waits _ _ _ _ _ hrecv | linkFails _ _ _ _ _ hrecv =>
    have hblock := mayBlock_of_receivesOn hrecv
    simp [State.afterAnswers, hblock]
  | sockOpen _ _ _ _ _ _ _ hlink | sockOpenRefused _ _ _ _ _ hlink =>
    obtain ⟨_, _, rfl⟩ := linkOpen_eq_afterAck hlink
    simp
  | sockSend _ _ _ _ _ hlink | arpStart _ _ _ _ _ _ _ hlink =>
    obtain ⟨_, _, rfl⟩ := linkSend_eq_afterAck hlink
    simp [Memory.overwrite_eq, Memory.setBuf]
  | skipsEth _ _ _ _ _ _ _ hloop | skipsIp _ _ _ _ _ _ _ _ _ _ hloop =>
    rcases hloop with rfl | rfl <;> simp [State.afterFrame, State.captured, State.afterAnswers, mayBlock]
  | sockRecv | arpResolved | arpForeign | counts | filters | arpNoReply =>
    simp [State.afterFrame, State.captured, State.afterAnswers, State.afterHeaders, State.putIp4, mayBlock]
  | _ => simp [State.putIp4, State.putIcmp, State.appended, Memory.setLen, Memory.setBuf]

/-- Settles O53: a start leaves the resolver waiting or failed, a waiting poll leaves it resolved, failed or waiting, and nothing else
writes it. -/
theorem arpTransitions : Obligations.ArpTransitions := by
  intro i s t hexec
  cases exec_happens hexec with
  | sockOpen _ _ _ _ _ _ _ hlink | sockOpenRefused _ _ _ _ _ hlink =>
    obtain ⟨_, _, rfl⟩ := linkOpen_eq_afterAck hlink
    exact ⟨id, .inl, .inl⟩
  | sockSend _ _ _ _ _ hlink =>
    obtain ⟨_, _, rfl⟩ := linkSend_eq_afterAck hlink
    exact ⟨id, .inl, .inl⟩
  | arpStart k target lip lmac ack => cases ack <;> simp [arpAfterSend]
  | arpClosed | arpNoReply => simp
  | arpResolved _ _ _ _ _ hwait => simp [hwait]
  | _ => exact ⟨id, .inl, .inl⟩

/-- Settles O54: what an operation adds to the record has no send in it, or is one send of the two operations that send. -/
theorem recordIsAppendOnly : Obligations.RecordIsAppendOnly := by
  intro i s t hexec
  rcases (exec_happens hexec).record with ⟨added, htrace, hnone⟩ | ⟨k, f, dest, ack, htrace, hsend⟩
  · exact ⟨added, htrace, fun k f dest ack hmem => absurd hmem (hnone k f dest ack)⟩
  · refine ⟨_, htrace, fun k' f' dest' ack' hmem => ?_⟩
    cases List.mem_singleton.1 hmem
    exact ⟨hsend, rfl⟩

end Sys2Proof.Machine
end

section
/-! PROOFS. The zero sum, the refusals of the three decodes, and two decodes in sequence, as codecs and bound to the cursor
(40_checksum.md R93, 41_header_codec.md R100 to R106). -/

namespace Sys2Proof.Machine

open Sys2Proof

/-! ### The zero sum (40_checksum.md R93) -/

theorem byte_eq_zero_iff (x : Byte) : x = 0 ↔ x.toNat = 0 := BitVec.toNat_inj.symm

/-- Words sum to 0 only when every byte is 0. -/
theorem wordSum_eq_zero_iff : ∀ b : List Byte, wordSum b = 0 ↔ ∀ x ∈ b, x = 0
  | [] => by simp [wordSum]
  | [hi] => by
    rw [wordSum, List.forall_mem_singleton, byte_eq_zero_iff]
    omega
  | hi :: lo :: rest => by
    have hsum : wordSum (hi :: lo :: rest) = 0 ↔ hi = 0 ∧ lo = 0 ∧ wordSum rest = 0 := by
      rw [wordSum, byte_eq_zero_iff, byte_eq_zero_iff]
      omega
    rw [hsum, wordSum_eq_zero_iff rest, List.forall_mem_cons, List.forall_mem_cons]

/-! ### The refusals (R111, R122, R152) -/

section Refusals

variable {b : List Byte} {e : Status}

theorem ethDecode_eq_err_iff : ethDecode b = .err e ↔ b.length < 14 ∧ e = .eTrunc := by
  constructor
  · exact fun h => (ethDecode_err h).symm
  · rintro ⟨hshort, rfl⟩
    exact ethDecode_of_short hshort

theorem icmpDecode_eq_err_iff :
    icmpDecode b = .err e ↔ (b.length < 4 ∨ hasPair (byteAt b 0) = true ∧ b.length < 8) ∧ e = .eTrunc := by
  constructor
  · intro h
    refine ⟨?_, icmpDecode_err h⟩
    by_contra hlong
    rw [not_or, not_and, Nat.not_lt, Nat.not_lt] at hlong
    obtain ⟨hfour, height⟩ := hlong
    cases hpair : hasPair (byteAt b 0) with
    | true => exact nomatch (icmpDecode_of_pair hpair (height hpair)).symm.trans h
    | false => exact nomatch (icmpDecode_of_no_pair hpair hfour).symm.trans h
  · rintro ⟨hshort, rfl⟩
    exact icmpDecode_of_short hshort

/-- The stage at which a decode fails fixes its status: one of three, or none fails. -/
theorem ipDecode_eq_err_iff :
    ipDecode b = .err e ↔
      (b.length < 20 ∧ e = .eTrunc) ∨
        (20 ≤ b.length ∧ ((ipFixedFields b).hlen < 20 ∨ (ipFixedFields b).tlen.toNat < (ipFixedFields b).hlen) ∧ e = .eInval) ∨
        (20 ≤ b.length ∧ 20 ≤ (ipFixedFields b).hlen ∧ (ipFixedFields b).hlen ≤ (ipFixedFields b).tlen.toNat ∧
          b.length < (ipFixedFields b).hlen ∧ e = .eTrunc) := by
  constructor
  · intro h
    by_cases hfixed : b.length < 20
    · cases (ipDecode_of_short hfixed).symm.trans h
      exact .inl ⟨hfixed, rfl⟩
    rw [Nat.not_lt] at hfixed
    by_cases hbad : (ipFixedFields b).hlen < 20 ∨ (ipFixedFields b).tlen.toNat < (ipFixedFields b).hlen
    · cases (ipDecode_of_badLengths hfixed hbad).symm.trans h
      exact .inr (.inl ⟨hfixed, hbad, rfl⟩)
    rw [not_or, Nat.not_lt, Nat.not_lt] at hbad
    obtain ⟨hmin, htlen⟩ := hbad
    by_cases hcut : b.length < (ipFixedFields b).hlen
    · cases (ipDecode_of_cutOptions hfixed hmin htlen hcut).symm.trans h
      exact .inr (.inr ⟨hfixed, hmin, htlen, hcut, rfl⟩)
    · exact nomatch (ipDecode_of_complete hmin htlen (Nat.not_lt.1 hcut)).symm.trans h
  · rintro (⟨hshort, rfl⟩ | ⟨hfixed, hbad, rfl⟩ | ⟨hfixed, hmin, htlen, hcut, rfl⟩)
    · exact ipDecode_of_short hshort
    · exact ipDecode_of_badLengths hfixed hbad
    · exact ipDecode_of_cutOptions hfixed hmin htlen hcut

end Refusals

/-! ### Two codecs in sequence (R103) -/

section Sequence

variable {α β : Type} {A : Codec α} {B : Codec β} {input r : List Byte} {a : α} {e : Status}

theorem Codec.seq_decode_of_err (h : A.decode input = .err e) : (A.seq B).decode input = .err e := by
  simp only [Codec.seq, h]

theorem Codec.seq_decode_of_ok_err (ha : A.decode input = .ok a r) (hb : B.decode r = .err e) :
    (A.seq B).decode input = .err e := by
  simp only [Codec.seq, ha, hb]

theorem Codec.seq_decode_of_ok_ok {b : β} {rest : List Byte} (ha : A.decode input = .ok a r) (hb : B.decode r = .ok b rest) :
    (A.seq B).decode input = .ok (a, b) rest := by
  simp only [Codec.seq, ha, hb]

/-- All that a composed decode can do. -/
theorem Codec.seq_decode_cases (A : Codec α) (B : Codec β) (input : List Byte) :
    (∃ e, A.decode input = .err e ∧ (A.seq B).decode input = .err e) ∨
    (∃ a r e, A.decode input = .ok a r ∧ B.decode r = .err e ∧ (A.seq B).decode input = .err e) ∨
    ∃ a r b rest, A.decode input = .ok a r ∧ B.decode r = .ok b rest ∧ (A.seq B).decode input = .ok (a, b) rest := by
  cases ha : A.decode input with
  | err e => exact .inl ⟨e, rfl, Codec.seq_decode_of_err ha⟩
  | ok a r =>
    refine .inr ?_
    cases hb : B.decode r with
    | err e => exact .inl ⟨a, r, e, rfl, hb, Codec.seq_decode_of_ok_err ha hb⟩
    | ok b rest => exact .inr ⟨a, r, b, rest, rfl, hb, Codec.seq_decode_of_ok_ok ha hb⟩

end Sequence

/-! ### `DEC2` as two decodes bound to the cursor (R105, R106) -/

@[simp] theorem State.answered_status (s : State) (e : Status) (res : Result) : (s.answered e res).status = some e := rfl

theorem thenIfOk_of_ok {a b : Instr} {s t : State} (h : exec a s = .next t) (hok : t.status = some .ok) :
    thenIfOk a b s = exec b t := by
  simp only [thenIfOk, h, hok, if_true]

theorem thenIfOk_of_err {a b : Instr} {s t : State} (h : exec a s = .next t) (herr : t.status ≠ some .ok) :
    thenIfOk a b s = .next t := by
  simp only [thenIfOk, h, herr, if_false]

/-- The state after `ETH.DEC` read a header at the cursor. -/
def State.ethDecoded (s : State) (h : EthHeader) : State := (s.setEth ⟨true, h⟩).setRx { s.rx with pos := s.rx.pos + 14 }

section AtCursor

variable {s : State} {b r : List Byte} {e : EthHeader} {err : Status}

theorem exec_ethDec_of_ok (hvalid : s.rx.valid = true) (hrem : s.remainder = some b) (hdecode : ethDecode b = .ok e r) :
    exec .ethDec s = .next ((s.ethDecoded e).answered .ok (.eth e)) := by
  obtain ⟨hpos, rfl⟩ := State.remainder_eq_some_iff.1 hrem
  obtain ⟨hlen, -, rfl⟩ := ethDecode_eq_ok_iff.1 hdecode
  have hend : s.rx.pos + 14 ≤ s.rxlen := by
    rw [List.length_drop] at hlen
    rw [State.rxlen]
    omega
  rw [exec_ethDec, decodeOp_ok hvalid hend hdecode, OpEnd.outcome_done]
  rfl

theorem exec_ethDec_of_err (hvalid : s.rx.valid = true) (hrem : s.remainder = some b) (hdecode : ethDecode b = .err err) :
    exec .ethDec s = .next (s.answered err .none) := by
  obtain ⟨hpos, rfl⟩ := State.remainder_eq_some_iff.1 hrem
  rw [exec_ethDec, decodeOp_err hvalid hpos hdecode, raise_eq, OpEnd.outcome_done]

/-- What the first decode leaves is the remainder of the second. -/
theorem State.ethDecoded_remainder (hrem : s.remainder = some b) (hdecode : ethDecode b = .ok e r) :
    (s.ethDecoded e).remainder = some r := by
  obtain ⟨hpos, rfl⟩ := State.remainder_eq_some_iff.1 hrem
  obtain ⟨hlen, -, rfl⟩ := ethDecode_eq_ok_iff.1 hdecode
  refine State.remainder_eq_some_iff.2 ⟨?_, List.drop_drop⟩
  change s.rx.pos + 14 ≤ s.rxlen
  rw [List.length_drop] at hlen
  rw [State.rxlen]
  omega

theorem exec_ipDec_of_err (hvalid : s.rx.valid = true) (hrem : s.remainder = some b) (hdecode : ipDecode b = .err err) :
    exec .ipDec s = .next (s.answered err .none) := by
  obtain ⟨hpos, rfl⟩ := State.remainder_eq_some_iff.1 hrem
  rw [exec_ipDec, decodeOp_err hvalid hpos hdecode, raise_eq, OpEnd.outcome_done]

theorem exec_ipDec_of_ok {h : Ip4Header} (hvalid : s.rx.valid = true) (hrem : s.remainder = some b)
    (hdecode : ipDecode b = .ok h r) :
    ∃ t, exec .ipDec s = .next t ∧ t.status = some .ok ∧ t.eth = s.eth ∧ t.ip4 = ⟨true, h⟩ ∧ t.remainder = some r := by
  obtain ⟨hpos, rfl⟩ := State.remainder_eq_some_iff.1 hrem
  obtain ⟨-, hlen, rfl⟩ := ipDecode_wf hdecode
  have hend : s.rx.pos + h.hlen ≤ s.rxlen := by
    rw [List.length_drop] at hlen
    rw [State.rxlen] at hpos ⊢
    omega
  refine ⟨((s.putIp4 h).setRx { s.rx with pos := s.rx.pos + h.hlen }).answered .ok (.ip4 h), ?_, rfl, rfl, rfl, ?_⟩
  · rw [exec_ipDec, decodeOp_ok hvalid hend hdecode, OpEnd.outcome_done]
  · exact State.remainder_eq_some_iff.2 ⟨hend, List.drop_drop⟩

end AtCursor

/-! ### The obligations -/

/-- Settles O3: the fold of the word sum, which is 0 only for zero bytes. -/
theorem checksumFoldIsResidue : Obligations.ChecksumFoldIsResidue := by
  intro b
  obtain ⟨hle, hres, hzero⟩ := foldedSum_spec b
  exact ⟨hle, hres, hzero.trans (wordSum_eq_zero_iff b)⟩

/-- Settles O8: each decode's tests in order, the header length as the number R122 writes. -/
theorem decodeRefusals : Obligations.DecodeRefusals := by
  refine ⟨fun _ _ => ethDecode_eq_err_iff, fun _ _ => icmpDecode_eq_err_iff, fun b _ => ?_⟩
  have htlen : (ipFixedFields b).tlen = be16 b 2 := rfl
  rw [ipDecode_eq_err_iff, ipFixedFields_hlen, htlen]

/-- Settles O9: the composed decode's equations, the second decode fed with what the first left. -/
theorem composedCodecRoundTrip : Obligations.ComposedCodecRoundTrip := by
  intro α β A B okA okB hA hB
  refine ⟨fun a b tail ha hb => ?_, fun _ _ => Codec.seq_decode_of_err, fun _ _ _ _ => Codec.seq_decode_of_ok_err⟩
  have hfirst : A.decode (A.encode a ++ (B.encode b ++ tail)) = .ok a (B.encode b ++ tail) := hA a _ ha
  rw [← List.append_assoc] at hfirst
  exact Codec.seq_decode_of_ok_ok hfirst (hB b tail hb)

/-- Settles O10: the composed decode fails in the first codec, in the second, or in none, and `DEC2` ends accordingly. -/
theorem dec2IsComposedDecode : Obligations.Dec2IsComposedDecode := by
  intro s b hvalid hrem
  rcases Codec.seq_decode_cases ethCodec ipCodec b with ⟨err, heth, hseq⟩ | ⟨e, r, err, heth, hip, hseq⟩ |
    ⟨e, r, h, rest, heth, hip, hseq⟩ <;> rw [hseq]
  · have hexec := exec_ethDec_of_err hvalid hrem heth
    have hne : err ≠ .ok := by
      rw [(ethDecode_err heth).1]
      simp
    refine ⟨nofun, fun _ h => ?_⟩
    cases h
    exact ⟨_, thenIfOk_of_err hexec (by simpa using hne), rfl, rfl, fun _ => ⟨rfl, rfl⟩,
      fun e r hok => nomatch heth.symm.trans hok⟩
  · have hexec := exec_ethDec_of_ok hvalid hrem heth
    have hexec2 := exec_ipDec_of_err (s := (s.ethDecoded e).answered .ok (.eth e)) hvalid (State.ethDecoded_remainder hrem heth) hip
    refine ⟨nofun, fun _ h => ?_⟩
    cases h
    refine ⟨_, (thenIfOk_of_ok hexec rfl).trans hexec2, rfl, rfl, fun hshort => ?_, fun e' r' hok => ?_⟩
    · exact nomatch heth.symm.trans (ethDecode_of_short hshort)
    · cases heth.symm.trans hok
      exact ⟨rfl, State.ethDecoded_remainder hrem heth⟩
  · have hexec := exec_ethDec_of_ok hvalid hrem heth
    obtain ⟨t, hexec2, hstatus, heth', hip4, hrest⟩ :=
      exec_ipDec_of_ok (s := (s.ethDecoded e).answered .ok (.eth e)) hvalid (State.ethDecoded_remainder hrem heth) hip
    refine ⟨fun _ _ _ h => ?_, nofun⟩
    cases h
    exact ⟨t, (thenIfOk_of_ok hexec rfl).trans hexec2, hstatus, heth', hip4, hrest⟩

end Sys2Proof.Machine
end

section
/-! PROOFS. Where the buffers are written and read: appends at the end of `TXB`, and no read beyond the captured bytes
(20_memory.md R45, R46, 00_scope.md R8). -/

namespace Sys2Proof.Machine

open Sys2Proof

/-! ### Appends (20_memory.md R45, R46) -/

/-- An append that ended `OK` had room. -/
theorem appended_of_appendTx {i : Instr} {s t : State} {data : List Byte} (h : (appendTx s data).outcome i = .next t)
    (hok : t.status = some .ok) : s.txlen + data.length ≤ Config.txCap ∧ t.mem = s.mem.setBuf .txb (s.mem.txb ++ data) := by
  rcases appendTx_cases s data with ⟨-, e⟩ | ⟨hroom, e⟩ <;> rw [e] at h <;> cases h
  · cases hok
  · exact ⟨hroom, rfl⟩

/-- So had an encode, of a valid register. -/
theorem appended_of_encodeOp {i : Instr} {s t : State} {valid : Bool} {bytes : List Byte}
    (h : (encodeOp valid bytes s).outcome i = .next t) (hok : t.status = some .ok) :
    s.txlen + bytes.length ≤ Config.txCap ∧ t.mem = s.mem.setBuf .txb (s.mem.txb ++ bytes) := by
  cases valid with
  | false =>
    cases h
    cases hok
  | true => exact appended_of_appendTx h hok

/-! ### The obligations -/

/-- Settles O32: each of the four operations, ended `OK`, has appended its bytes, and an append leaves the indices below it and `RXB`. -/
theorem appendTouchesOnlyItsBytes : Obligations.AppendTouchesOnlyItsBytes := by
  intro i e s t hi hexec hreply
  have hok : t.status = some .ok := by rw [State.status, hreply, Option.map_some]
  obtain ⟨hroom, hmem⟩ : s.txlen + e.length ≤ Config.txCap ∧ t.mem = s.mem.setBuf .txb (s.mem.txb ++ e) := by
    rcases hi with ⟨rfl, rfl⟩ | ⟨rfl, rfl⟩ | ⟨rfl, rfl⟩ | rfl
    · exact appended_of_encodeOp hexec hok
    · exact appended_of_encodeOp hexec hok
    · exact appended_of_encodeOp hexec hok
    · exact appended_of_appendTx hexec hok
  have hlen : t.txlen = s.txlen + e.length := by
    rw [State.txlen, hmem, State.txlen, ← List.length_append]
    rfl
  refine ⟨fun a ha => ?_, fun j _ => ?_, fun a => ?_, hlen, hlen ▸ hroom⟩
  · rcases ha with hbelow | habove
    · rw [hmem]
      exact Memory.readByte_append_lt s.mem .txb e hbelow
    · rw [(Memory.readByte_eq_none_iff t.mem .txb a).2 (hlen.trans_le habove),
        (Memory.readByte_eq_none_iff s.mem .txb a).2 ((Nat.le_add_right _ _).trans habove)]
  · rw [hmem]
    exact Memory.readByte_append_ge s.mem .txb e j
  · rw [hmem, Memory.readByte_setBuf_of_ne s.mem (by simp)]

/-- Settles O33: the remainder of such a state is undefined, and all four operations read it first. -/
theorem cursorBeyondCaptureFaults : Obligations.CursorBeyondCaptureFaults := by
  intro s hvalid hbeyond
  refine ⟨?eth, ?ip, ?icmp, ?rest⟩
  case eth => rw [exec_ethDec, decodeOp_outside hvalid hbeyond, OpEnd.outcome_outOfBuffer]
  case ip => rw [exec_ipDec, decodeOp_outside hvalid hbeyond, OpEnd.outcome_outOfBuffer]
  case icmp => rw [exec_icmpDec, decodeOp_outside hvalid hbeyond, OpEnd.outcome_outOfBuffer]
  case rest => simp [exec, execRxRest, hvalid, State.remainder_eq_none hbeyond]

end Sys2Proof.Machine
end

section
/-! PROOFS. The socket operations: what the link is asked, what its answer makes of the block, what a receive captures and
which frames a filter passes (45_socket.md R166 to R178). -/

namespace Sys2Proof.Machine

open Sys2Proof

/-! ### The link's next answer (20_memory.md R52, R57) -/

section Answers

variable {s : State} {a : LinkAck} {acks : List LinkAck}

theorem linkOpen_of_script (k : Nat) (flt : EtherFilter) (h : s.link.openAcks = a :: acks) :
    linkOpen s k flt = (a, s.afterAck acks s.link.sendAcks s.link.draws (.opened k flt a)) := by
  rcases linkOpen_cases s k flt with ⟨_, _, hscript, e⟩ | ⟨hnone, -⟩
  · cases h.symm.trans hscript
    exact e
  · cases h.symm.trans hnone

theorem linkOpen_free (k : Nat) (flt : EtherFilter) (h : s.link.openAcks = []) :
    ∃ a, linkOpen s k flt = (a, s.afterAck [] s.link.sendAcks (s.link.draws + 1) (.opened k flt a)) := by
  rcases linkOpen_cases s k flt with ⟨_, _, hscript, -⟩ | ⟨-, hfree⟩
  · cases h.symm.trans hscript
  · exact hfree

theorem linkSend_of_script (k : Nat) (f : List Byte) (dest : LinkAddr) (h : s.link.sendAcks = a :: acks) :
    linkSend s k f dest = (a, s.afterAck s.link.openAcks acks s.link.draws (.sent k f dest a)) := by
  rcases linkSend_cases s k f dest with ⟨_, _, hscript, e⟩ | ⟨hnone, -⟩
  · cases h.symm.trans hscript
    exact e
  · cases h.symm.trans hnone

theorem linkSend_free (k : Nat) (f : List Byte) (dest : LinkAddr) (h : s.link.sendAcks = []) :
    ∃ a, linkSend s k f dest = (a, s.afterAck s.link.openAcks [] (s.link.draws + 1) (.sent k f dest a)) := by
  rcases linkSend_cases s k f dest with ⟨_, _, hscript, -⟩ | ⟨-, hfree⟩
  · cases h.symm.trans hscript
  · exact hfree

end Answers

/-! ### `SOCK.OPEN` (R166), one equation per case -/

section Open

variable {s : State} {k cap : Nat} {flt : EtherFilter}

theorem exec_sockOpen_refused (h : Config.nsock ≤ k ∨ (s.openSlot k).isSome = true ∨ Config.capMax < cap) :
    exec (.sockOpen k flt cap) s = .next (s.answered .eInval .none) := by
  rw [exec]
  rcases execSockOpen_cases k flt cap s with ⟨-, e⟩ | ⟨hk, hclosed, hcap, -⟩ | ⟨hk, hclosed, hcap, -⟩
  · exact e
  all_goals
    rcases h with h | h | h
    · omega
    · simp [h] at hclosed
    · omega

/-- An operand that passes every test is put to the link. -/
theorem exec_sockOpen_asks {a : LinkAck} {t : State} (hk : k < Config.nsock) (hclosed : (s.openSlot k).isSome = false)
    (hcap : cap ≤ Config.capMax) (hlink : linkOpen s k flt = (a, t)) :
    exec (.sockOpen k flt cap) s =
      .next ((t.setSock (if a = .ok then s.sock.set k ⟨true, flt, cap⟩ hk else s.sock)).answered
        (if a = .ok then .ok else .eIo) .none) := by
  rw [exec]
  rcases execSockOpen_cases k flt cap s with ⟨h, -⟩ | ⟨_, -, -, u, h, e⟩ | ⟨-, -, -, u, h, e⟩
  · rcases h with h | h | h
    · omega
    · simp [h] at hclosed
    · omega
  all_goals
    cases hlink.symm.trans h
    exact e

end Open

/-! ### `SOCK.SEND` (R171), one equation per case -/

section Send

variable {s : State} {k : Nat} {dest : LinkAddr}

theorem exec_sockSend_closed (h : (s.openSlot k).isSome = false) : exec (.sockSend k dest) s = .next (s.answered .eInval .none) := by
  rw [Option.isSome_eq_false_iff, Option.isNone_iff_eq_none] at h
  simp [exec, execSockSend, h]

theorem exec_sockSend_sends {a : LinkAck} {t : State} (hopen : (s.openSlot k).isSome = true)
    (hlink : linkSend s k s.mem.txb dest = (a, t)) :
    exec (.sockSend k dest) s = .next (t.answered (if a = .ok then .ok else .eIo) .none) := by
  obtain ⟨slot, hslot⟩ := Option.isSome_iff_exists.1 hopen
  simp [exec, execSockSend, hslot, hlink, ackStatus_eq]

end Send

/-! ### `SOCK.RECV` (R175) -/

theorem exec_sockRecv (k : Nat) (s : State) : exec (.sockRecv k) s = (receive k s).outcome (.sockRecv k) := rfl

theorem exec_sockRecv_closed {k : Nat} {s : State} (h : (s.openSlot k).isSome = false) :
    exec (.sockRecv k) s = .next (s.answered .eInval .none) := by
  rw [exec_sockRecv, receive_closed h, raise_eq, OpEnd.outcome_done]

/-! ### The obligations -/

/-- Settles O26: the tests of R166, and with all of them passed the link's answer, from its script or free. -/
theorem sockOpenOpensSlot : Obligations.SockOpenOpensSlot := by
  refine fun k flt cap s => ⟨exec_sockOpen_refused, fun hk rest hclosed hcap =>
    ⟨fun hok => ?ok, fun hfail => ?fail, fun hnone => ?free⟩⟩
  case ok => exact exec_sockOpen_asks hk hclosed hcap (linkOpen_of_script k flt hok)
  case fail => exact exec_sockOpen_asks hk hclosed hcap (linkOpen_of_script k flt hfail)
  case free =>
    obtain ⟨ack, hlink⟩ := linkOpen_free k flt hnone
    rw [← hnone] at hlink
    exact ⟨ack, exec_sockOpen_asks hk hclosed hcap hlink⟩

/-- Settles O27: an open slot's frame goes to the link as `TXB` stands, and the answer is the status. -/
theorem sockSendHandsOverFrame : Obligations.SockSendHandsOverFrame := by
  refine fun k dest s => ⟨exec_sockSend_closed, fun hopen => ⟨fun rest hok => ?ok, fun rest hfail => ?fail, fun hnone => ?free⟩⟩
  case ok => exact exec_sockSend_sends hopen (linkSend_of_script k _ dest hok)
  case fail => exact exec_sockSend_sends hopen (linkSend_of_script k _ dest hfail)
  case free =>
    obtain ⟨ack, hlink⟩ := linkSend_free k s.mem.txb dest hnone
    rw [← hnone] at hlink
    exact ⟨ack, exec_sockSend_sends hopen hlink⟩

/-- Settles O28: the receive's equations, one per thing the link can bring. -/
theorem sockRecvCapturesFirstPassing : Obligations.SockRecvCapturesFirstPassing := by
  refine fun k s => ⟨exec_sockRecv_closed, fun slot dropped f src rest h => ?delivers, fun slot dropped rest h => ?fails,
    fun slot dropped rest h => ?waits⟩
  case delivers => rw [exec_sockRecv, receive_delivers h, OpEnd.outcome_done]
  case fails => rw [exec_sockRecv, receive_linkFails h, raise_eq, OpEnd.outcome_done]
  case waits => rw [exec_sockRecv, receive_noAnswer h, OpEnd.outcome_blocked]

/-- Settles O29: the length test and the two bytes as one big-endian number. -/
theorem filterTestsEthertype : Obligations.FilterTestsEthertype := by
  refine ⟨fun _ => rfl, fun e f => ?_⟩
  have hword : be16 f 12 = e ↔ (byteAt f 12).toNat * 256 + (byteAt f 13).toNat = e.toNat := by
    rw [← BitVec.toNat_inj, be16_toNat]
  simp only [passes, Bool.and_eq_true, decide_eq_true_eq, beq_iff_eq, hword]

end Sys2Proof.Machine
end

section
/-! PROOFS. The ARP state machine: the request that a start sends, the frame that a poll judges, and the exchange over both
(46_arp.md R192 to R199). -/

namespace Sys2Proof.Machine

open Sys2Proof

/-! ### `ARP.START` (R192, R193) -/

section Start

variable {s : State} {k : Nat} {target lip : Ip4} {lmac : Mac}

/-- The request overwrites the whole of `TXB`. -/
def State.withRequest (s : State) (target lip : Ip4) (lmac : Mac) : State :=
  s.setMem (s.mem.setBuf .txb (arpRequest target lip lmac))

theorem exec_arpStart_closed (h : (s.openSlot k).isSome = false) :
    exec (.arpStart k target lip lmac) s = .next (s.answered .eInval .none) := by
  rw [Option.isSome_eq_false_iff, Option.isNone_iff_eq_none] at h
  simp [exec, execArpStart, h]

theorem exec_arpStart_sends {a : LinkAck} {t : State} (hopen : (s.openSlot k).isSome = true)
    (hlink : linkSend (s.withRequest target lip lmac) k (arpRequest target lip lmac) arpDest = (a, t)) :
    exec (.arpStart k target lip lmac) s =
      .next ((t.setArp (arpAfterSend a k s.arp)).answered (if a = .ok then .ok else .eIo) .none) := by
  obtain ⟨slot, hslot⟩ := Option.isSome_iff_exists.1 hopen
  rw [State.withRequest, ← Memory.overwrite_eq] at hlink
  simp [exec, execArpStart, hslot, hlink, ackStatus_eq]

theorem arpAfterSend_eq (a : LinkAck) (k : Nat) (r : ArpReg) :
    arpAfterSend a k r =
      if a = .ok then { r with sock := k, state := .awaitingReply } else { r with sock := k, state := .failed, err := .eIo } := by
  cases a <;> rfl

end Start

/-! ### `ARP.POLL` (R195, R198) -/

section Poll

variable {s : State}

theorem exec_arpPoll_inval (h : s.arp.state ≠ .awaitingReply) : exec .arpPoll s = .next (s.answered .eInval .none) := by
  simp [exec, execArpPoll, h]

/-- A poll of an exchange that waits is a receive, judged. -/
theorem exec_arpPoll_waiting (h : s.arp.state = .awaitingReply) :
    exec .arpPoll s = ((receive s.arp.sock s).andThen arpJudge fun s1 _ => arpNoReply s1).outcome .arpPoll := by
  simp [exec, execArpPoll, h]

theorem arpMatch_iff (f : List Byte) : arpMatch f = true ↔ 42 ≤ f.length ∧ byteAt f 20 = 0x00 ∧ byteAt f 21 = 0x02 := by
  have hop : be16 f 20 = 0x0002 ↔ byteAt f 20 = 0x00 ∧ byteAt f 21 = 0x02 := by
    have hlow := (byteAt f 21).isLt
    rw [← BitVec.toNat_inj, ← BitVec.toNat_inj, ← BitVec.toNat_inj, be16_toNat]
    change (byteAt f 20).toNat * 256 + (byteAt f 21).toNat = 2 ↔ (byteAt f 20).toNat = 0 ∧ (byteAt f 21).toNat = 2
    omega
  simp only [arpMatch, Bool.and_eq_true, decide_eq_true_eq, beq_iff_eq, hop]

theorem arpJudge_match (h : arpMatch s.mem.rxb = true) :
    arpJudge s = .done (s.setArp { s.arp with mac := macAt s.mem.rxb 22, state := .resolved }) .ok (.mac (macAt s.mem.rxb 22)) :=
  if_pos h

theorem arpJudge_foreign (h : arpMatch s.mem.rxb = false) : arpJudge s = raise s .eNoMatch := if_neg (by simp [h])

/-- A poll that was brought a frame judges the captured bytes. -/
theorem exec_arpPoll_delivers {slot : SockSlot} {dropped : List RecvAnswer} {f : List Byte} {src : LinkAddr} {rest : List RecvAnswer}
    (hwait : s.arp.state = .awaitingReply) (h : s.Delivers s.arp.sock slot dropped f src rest) :
    exec .arpPoll s = (arpJudge (s.afterFrame s.arp.sock dropped f src rest slot.cap)).outcome .arpPoll := by
  rw [exec_arpPoll_waiting hwait, receive_delivers h, OpEnd.andThen_ok, State.afterFrame]

theorem exec_arpPoll_noAnswer {slot : SockSlot} {dropped rest : List RecvAnswer} (hwait : s.arp.state = .awaitingReply)
    (h : s.NoAnswer s.arp.sock slot dropped rest) :
    exec .arpPoll s = .next ((s.afterAnswers s.arp.sock dropped rest).waiting .arpPoll) := by
  rw [exec_arpPoll_waiting hwait, receive_noAnswer h, OpEnd.andThen_blocked, OpEnd.outcome_blocked]

end Poll

/-! ### `ARP.RESOLVE` (R199) -/

section Resolve

variable {s t : State} {k : Nat} {target lip : Ip4} {lmac : Mac}

/-- A start that did not end `OK` had a closed slot, or was refused by the link and has failed. -/
theorem exec_arpStart_notOk (h : exec (.arpStart k target lip lmac) s = .next t) (herr : t.status ≠ some .ok) :
    t.status = some .eInval ∨ t.status = some .eIo ∧ t.arp.state = .failed := by
  cases hopen : (s.openSlot k).isSome with
  | false =>
    cases (exec_arpStart_closed hopen).symm.trans h
    exact .inl rfl
  | true =>
    cases hlink : linkSend (s.withRequest target lip lmac) k (arpRequest target lip lmac) arpDest with
    | mk a u =>
      cases (exec_arpStart_sends hopen hlink).symm.trans h
      cases a with
      | ok => exact absurd rfl herr
      | fail => exact .inr ⟨rfl, rfl⟩

/-- A poll whose status ends the loop has resolved the address, was out of place, or has failed. -/
theorem exec_arpPoll_ends {r : Reply} (h : exec .arpPoll s = .next t) (hreply : t.reply = some r) (hend : r.status ≠ .eNoMatch) :
    (t.status = some .ok ∧ t.arp.state = .resolved ∧ t.reply = some ⟨.ok, .mac t.arp.mac⟩) ∨ t.status = some .eInval ∨
      t.status = some .eNoReply ∧ t.arp.state = .failed := by
  rw [exec] at h
  rcases execArpPoll_cases s with ⟨-, e⟩ | ⟨-, -, e⟩ | ⟨_, _, _, -, -, e⟩ | ⟨_, _, _, -, -, e⟩ |
    ⟨_, _, _, _, _, -, -, -, e⟩ | ⟨_, _, _, _, _, -, -, -, e⟩ <;> cases e.symm.trans h
  · exact .inr (.inl rfl)
  · exact .inr (.inr ⟨rfl, rfl⟩)
  · cases hreply
  · exact .inr (.inr ⟨rfl, rfl⟩)
  · exact .inl ⟨rfl, rfl, rfl⟩
  · cases hreply
    exact absurd rfl hend

/-- An exchange over slot `k` awaits a reply, and its link never brings one. -/
structure State.AwaitsInVain (s : State) (k : Nat) (slot : SockSlot) : Prop where
  state : s.arp.state = .awaitingReply
  sock : s.arp.sock = k
  slotOpen : s.openSlot k = some slot
  link : s.link.NeverReplies slot

/-- A start that the link took over such a link begins one. -/
theorem State.AwaitsInVain.start {slot : SockSlot} {acks : List LinkAck} (target lip : Ip4) (lmac : Mac)
    (hopen : s.openSlot k = some slot) (hacks : s.link.sendAcks = .ok :: acks) (hlink : s.link.NeverReplies slot) :
    ∃ t, exec (.arpStart k target lip lmac) s = .next t ∧ t.status = some .ok ∧ t.AwaitsInVain k slot := by
  have hsend := linkSend_of_script (s := s.withRequest target lip lmac) k (arpRequest target lip lmac) arpDest hacks
  have hisOpen : (s.openSlot k).isSome = true := Option.isSome_iff_exists.2 ⟨slot, hopen⟩
  refine ⟨_, exec_arpStart_sends hisOpen hsend, by simp, by simp [arpAfterSend], by simp [arpAfterSend], ?_,
    ⟨hlink.goesOn, hlink.foreign⟩⟩
  rw [← hopen]
  exact State.openSlot_congr (by simp [State.withRequest]) k

/-- Such an exchange goes on in the same way: its poll waits, or captures a frame that is no reply. -/
theorem State.AwaitsInVain.poll {slot : SockSlot} (h : s.AwaitsInVain k slot) :
    ∃ t, exec .arpPoll s = .next t ∧ t.reply.any (fun r => decide (r.status ≠ .eNoMatch)) = false ∧ t.AwaitsInVain k slot := by
  obtain ⟨hwait, rfl, hopen, hlink⟩ := h
  rcases hlink.receives hopen with ⟨d, r, hn, hl⟩ | ⟨d, f, src, r, hd, hforeign, hl⟩
  · exact ⟨_, exec_arpPoll_noAnswer hwait hn, rfl, hwait, rfl, hopen, hl⟩
  · refine ⟨(s.afterFrame s.arp.sock d f src r slot.cap).answered .eNoMatch .none, ?_, rfl, hwait, rfl, hopen, hl⟩
    rw [exec_arpPoll_delivers hwait hd, arpJudge_foreign hforeign, raise_eq, OpEnd.outcome_done]

end Resolve

/-! ### The obligations -/

/-- Settles O34: the request's bytes are the 42 of R192, and the link's answer, from its script or free, leaves the exchange waiting or
failed. -/
theorem arpStartSendsOnce : Obligations.ArpStartSendsOnce := by
  intro k target lip lmac s m f dest
  have hf : arpRequest target lip lmac = f := rfl
  refine ⟨exec_arpStart_closed, fun hopen => ⟨fun rest hok => ?ok, fun rest hfail => ?fail, fun hnone => ?free⟩⟩
  case ok =>
    rw [exec_arpStart_sends hopen (linkSend_of_script k _ arpDest hok), hf]
    rfl
  case fail =>
    rw [exec_arpStart_sends hopen (linkSend_of_script k _ arpDest hfail), hf]
    rfl
  case free =>
    obtain ⟨ack, hlink⟩ := linkSend_free (s := s.withRequest target lip lmac) k (arpRequest target lip lmac) arpDest hnone
    refine ⟨ack, ?_⟩
    rw [exec_arpStart_sends hopen hlink, arpAfterSend_eq, ← hnone, hf]
    rfl

/-- Settles O35: the poll's equations, one per thing the receive can come to. -/
theorem arpPollJudgesOneFrame : Obligations.ArpPollJudgesOneFrame := by
  refine fun s => ⟨exec_arpPoll_inval, fun hwait => ⟨fun slot dropped f src rest h => ?delivers, fun slot dropped rest h => ?fails,
    fun hclosed => ?closed, fun slot dropped rest h => exec_arpPoll_noAnswer hwait h⟩⟩
  case delivers =>
    intro g t mac
    have hexec : exec .arpPoll s = (arpJudge t).outcome .arpPoll := exec_arpPoll_delivers hwait h
    have hg : t.mem.rxb = g := rfl
    refine ⟨fun hmatch => ?_, fun hforeign => ?_⟩
    · rw [hexec, arpJudge_match (hg ▸ (arpMatch_iff g).2 hmatch), OpEnd.outcome_done]
      rfl
    · rw [hexec, arpJudge_foreign (hg ▸ Bool.eq_false_iff.2 fun hmatch => hforeign ((arpMatch_iff g).1 hmatch)), raise_eq,
        OpEnd.outcome_done]
  case fails =>
    rw [exec_arpPoll_waiting hwait, receive_linkFails h, raise_eq, OpEnd.andThen_err _ _ _ _ (by simp), arpNoReply, raise_eq,
      OpEnd.outcome_done]
    rfl
  case closed =>
    rw [exec_arpPoll_waiting hwait, receive_closed hclosed, raise_eq, OpEnd.andThen_err _ _ _ _ (by simp), arpNoReply, raise_eq,
      OpEnd.outcome_done]
    rfl

/-- Settles O36: the loop ends on a start that was not `OK` or a poll that did not answer `E_NOMATCH`; over a link that never replies it
keeps awaiting in vain. -/
theorem arpResolveOutcomes : Obligations.ArpResolveOutcomes := by
  refine ⟨fun fuel k target lip lmac s t hrun => ?ends, fun k target lip lmac s slot rest hopen hacks hlink fuel => ?endless⟩
  case ends =>
    unfold runArpResolve at hrun
    split at hrun
    case h_1 u hstart =>
      split at hrun
      · obtain ⟨v, r, hpoll, hreply, hstop⟩ := repeatUntil_ended hrun
        rcases exec_arpPoll_ends hpoll hreply (of_decide_eq_true hstop) with hok | hinval | hfailed
        · exact .inl hok
        · exact .inr (.inl hinval)
        · exact .inr (.inr (.inr hfailed))
      · rename_i herr
        cases hrun
        rcases exec_arpStart_notOk hstart herr with hinval | hfailed
        · exact .inr (.inl hinval)
        · exact .inr (.inr (.inl hfailed))
    case h_2 => cases hrun
  case endless =>
    obtain ⟨u, hstart, hok, hu⟩ := State.AwaitsInVain.start target lip lmac hopen hacks hlink
    obtain ⟨t, hrun, ht⟩ := repeatUntil_unended (P := fun v => v.AwaitsInVain k slot) (fun _ hv => hv.poll) fuel hu
    refine ⟨t, ?_, ht.state⟩
    simp only [runArpResolve, hstart, hok, if_true, hrun]

/-- Settles O37: a reply has 42 bytes, and no more than the capacity are captured. -/
theorem arpNeedsCapacity42 : Obligations.ArpNeedsCapacity42 := by
  intro s t slot r hopen hcap hexec hreply hok
  cases exec_happens hexec with
  | arpResolved slot' _ f _ _ _ hd hmatch =>
    obtain rfl : slot' = slot := Option.some.inj (hd.slotOpen.symm.trans hopen)
    obtain ⟨hlen, -⟩ := (arpMatch_iff _).1 hmatch
    rw [List.length_take] at hlen
    omega
  | raises _ _ hne =>
    cases hreply
    exact hne hok
  | waits => cases hreply
  | linkFails | arpClosed | arpNoReply | arpForeign | skipsEth =>
    cases hreply
    cases hok
  | skipsIp _ _ _ _ _ _ _ _ _ _ hloop => rcases hloop with h | h <;> cases h

end Sys2Proof.Machine
end

section
/-! PROOFS. The bodies of the two consumption loops and the tally that one of them counts in (47_consumers.md R211 to R219). -/

namespace Sys2Proof.Machine

open Sys2Proof

/-! ### The common part of both bodies (47_consumers.md R211, R217), one equation per case -/

section Capture

variable {s : State} {k : Nat} {onFrame : State → OpEnd} {slot : SockSlot} {dropped rest : List RecvAnswer}

theorem captureAndDecode_closed (h : (s.openSlot k).isSome = false) : captureAndDecode k onFrame s = raise s .eInval := by
  rw [captureAndDecode, receive_closed h, raise_eq, OpEnd.andThen_err _ _ _ _ (by simp), raise_eq]

theorem captureAndDecode_linkFails (h : s.LinkFails k slot dropped rest) :
    captureAndDecode k onFrame s = raise (s.afterAnswers k (dropped ++ [.fail]) rest) .eIo := by
  rw [captureAndDecode, receive_linkFails h, raise_eq, OpEnd.andThen_err _ _ _ _ (by simp), raise_eq]

theorem captureAndDecode_noAnswer (h : s.NoAnswer k slot dropped rest) :
    captureAndDecode k onFrame s = .blocked (s.afterAnswers k dropped rest) := by
  rw [captureAndDecode, receive_noAnswer h, OpEnd.andThen_blocked]

variable {f : List Byte} {src : LinkAddr}

/-- A captured frame is decoded from its first byte on. -/
theorem captureAndDecode_delivers (h : s.Delivers k slot dropped f src rest) :
    captureAndDecode k onFrame s =
      (ethDecOp (s.afterFrame k dropped f src rest slot.cap)).andThen (fun t => (ipDecOp t).andThen onFrame skipFrame) skipFrame := by
  rw [captureAndDecode, receive_delivers h, OpEnd.andThen_ok, State.afterFrame]

theorem captureAndDecode_short (h : s.Delivers k slot dropped f src rest) (hshort : (f.take slot.cap).length < 14) :
    captureAndDecode k onFrame s = .done (s.afterFrame k dropped f src rest slot.cap) .eTrunc .frameSkipped := by
  have hdec : ethDecOp (s.afterFrame k dropped f src rest slot.cap) = raise (s.afterFrame k dropped f src rest slot.cap) .eTrunc :=
    decodeOp_err rfl (Nat.zero_le _) (ethDecode_of_short hshort)
  rw [captureAndDecode_delivers h, hdec, raise_eq, OpEnd.andThen_err _ _ _ _ (by simp), skipFrame]

/-- With the Ethernet header decoded the IPv4 decode starts at index 14. -/
theorem captureAndDecode_eth {e : EthHeader} {r : List Byte} (h : s.Delivers k slot dropped f src rest)
    (heth : ethDecode (f.take slot.cap) = .ok e r) :
    captureAndDecode k onFrame s =
      (ipDecOp (((s.afterFrame k dropped f src rest slot.cap).setEth ⟨true, e⟩).setRx ⟨true, 14, src⟩)).andThen onFrame skipFrame := by
  obtain ⟨hlen, -, rfl⟩ := ethDecode_eq_ok_iff.1 heth
  have hdec : ethDecOp (s.afterFrame k dropped f src rest slot.cap) =
      .done (((s.afterFrame k dropped f src rest slot.cap).setEth ⟨true, e⟩).setRx ⟨true, 0 + 14, src⟩) .ok (.eth e) :=
    decodeOp_ok (n := 14) rfl (by rwa [State.afterFrame, State.captured, Nat.zero_add]) heth
  rw [captureAndDecode_delivers h, hdec, OpEnd.andThen_ok, Nat.zero_add]

theorem captureAndDecode_skipsIp {e : EthHeader} {r : List Byte} {err : Status} (h : s.Delivers k slot dropped f src rest)
    (heth : ethDecode (f.take slot.cap) = .ok e r) (hip : ipDecode r = .err err) :
    captureAndDecode k onFrame s =
      .done (((s.afterFrame k dropped f src rest slot.cap).setEth ⟨true, e⟩).setRx ⟨true, 14, src⟩) err .frameSkipped := by
  have hne : err ≠ .ok := by rcases ipDecode_err hip with rfl | rfl <;> simp
  obtain ⟨hlen, -, rfl⟩ := ethDecode_eq_ok_iff.1 heth
  have hdec : ipDecOp (((s.afterFrame k dropped f src rest slot.cap).setEth ⟨true, e⟩).setRx ⟨true, 14, src⟩) = raise _ err :=
    decodeOp_err rfl hlen hip
  rw [captureAndDecode_eth h heth, hdec, raise_eq, OpEnd.andThen_err _ _ _ _ hne, skipFrame]

/-- A frame that decodes is handed on with both headers in their registers and the cursor behind them. -/
theorem captureAndDecode_decoded {e : EthHeader} {r p : List Byte} {h : Ip4Header} (hd : s.Delivers k slot dropped f src rest)
    (heth : ethDecode (f.take slot.cap) = .ok e r) (hip : ipDecode r = .ok h p) :
    captureAndDecode k onFrame s = onFrame ((s.afterFrame k dropped f src rest slot.cap).afterHeaders e h src) ∧
      ((s.afterFrame k dropped f src rest slot.cap).afterHeaders e h src).remainder = some p := by
  obtain ⟨hlen, -, rfl⟩ := ethDecode_eq_ok_iff.1 heth
  obtain ⟨-, hhlen, rfl⟩ := ipDecode_wf hip
  have hend : 14 + h.hlen ≤ (f.take slot.cap).length := by
    rw [List.length_drop] at hhlen
    omega
  have hdec : ipDecOp (((s.afterFrame k dropped f src rest slot.cap).setEth ⟨true, e⟩).setRx ⟨true, 14, src⟩) =
      .done ((s.afterFrame k dropped f src rest slot.cap).afterHeaders e h src) .ok (.ip4 h) :=
    decodeOp_ok rfl hend hip
  refine ⟨?_, State.remainder_eq_some_iff.2 ⟨hend, List.drop_drop⟩⟩
  rw [captureAndDecode_eth hd heth, hdec, OpEnd.andThen_ok]

end Capture

/-! ### `ANA.STEP` and `FLT.STEP` -/

/-- What `ANA.STEP` does with a decoded frame. -/
def countFrame (t : State) : OpEnd :=
  .done (t.setTally (tallyAdd t.ip4.hdr.proto t.tally)) .ok (.tally (tallyAdd t.ip4.hdr.proto t.tally))

/-- What `FLT.STEP` does with a decoded frame. -/
def filterFrame (t : State) : OpEnd :=
  if fltMatch t.flt t.eth.hdr t.ip4.hdr then
    match t.remainder with
    | none => .outOfBuffer
    | some payload => .done t .ok (.isMatch (fltRecord t.ip4.hdr payload))
  else .done t .ok .noMatch

theorem exec_anaStep (k : Nat) (s : State) : exec (.anaStep k) s = (captureAndDecode k countFrame s).outcome (.anaStep k) := rfl

theorem exec_fltStep (k : Nat) (s : State) : exec (.fltStep k) s = (captureAndDecode k filterFrame s).outcome (.fltStep k) := rfl

theorem filterFrame_noMatch {t : State} (h : fltMatch t.flt t.eth.hdr t.ip4.hdr = false) : filterFrame t = .done t .ok .noMatch :=
  if_neg (by simp [h])

theorem filterFrame_match {t : State} {payload : List Byte} (h : fltMatch t.flt t.eth.hdr t.ip4.hdr = true)
    (hrem : t.remainder = some payload) : filterFrame t = .done t .ok (.isMatch (fltRecord t.ip4.hdr payload)) := by
  simp only [filterFrame, h, if_true, hrem]

/-! ### The tally (47_consumers.md R211) -/

/-- A key below every key of a tally is not in it. -/
theorem lookup_eq_none_of_lt {p : Byte} {t : Tally} (h : ∀ e ∈ t, p.toNat < e.1.toNat) : t.lookup p = none := by
  rw [List.lookup_eq_none_iff]
  intro e he
  exact bne_iff_ne.2 fun hp : p = e.1 => absurd (h e he) (hp ▸ lt_irrefl _)

theorem lookup_tallyAdd_self (p : Byte) {t : Tally} (h : t.Pairwise fun a b => a.1.toNat < b.1.toNat) :
    (tallyAdd p t).lookup p = some ((t.lookup p).getD 0 + 1) := by
  induction t with
  | nil => simp [tallyAdd]
  | cons head rest ih =>
    obtain ⟨q, n⟩ := head
    obtain ⟨hhead, hrest⟩ := List.pairwise_cons.1 h
    unfold tallyAdd
    split
    · rename_i hlt
      have hnone : ((q, n) :: rest).lookup p = none :=
        lookup_eq_none_of_lt (List.forall_mem_cons.2 ⟨hlt, fun e he => hlt.trans (hhead e he)⟩)
      simp [hnone]
    split
    · rename_i heq
      simp [heq]
    · rename_i hne
      rw [List.lookup_cons, List.lookup_cons, beq_false_of_ne hne]
      exact ih hrest

theorem lookup_tallyAdd_ne {p q : Byte} (hne : q ≠ p) (t : Tally) : (tallyAdd p t).lookup q = t.lookup q := by
  induction t with
  | nil => simp [tallyAdd, List.lookup_cons, beq_false_of_ne hne]
  | cons head rest ih =>
    obtain ⟨r, n⟩ := head
    unfold tallyAdd
    split
    · rw [List.lookup_cons, beq_false_of_ne hne]
    split
    · rename_i heq
      rw [List.lookup_cons, List.lookup_cons, ← heq, beq_false_of_ne hne]
    · rw [List.lookup_cons, List.lookup_cons, ih]

/-! ### The obligations -/

/-- Settles O38: the body's equations, one per thing the capture and the two decodes can come to. -/
theorem anaStepCountsProtocol : Obligations.AnaStepCountsProtocol := by
  refine fun k s => ⟨fun hclosed => ?closed, fun slot dropped rest h => ?fails, fun slot dropped rest h => ?waits,
    fun slot dropped f src rest h => ⟨fun hshort => ?short, fun e r err heth hip => ?skips, fun e r h' p heth hip => ?counts⟩⟩ <;>
    rw [exec_anaStep]
  case closed => rw [captureAndDecode_closed hclosed, raise_eq, OpEnd.outcome_done]
  case fails => rw [captureAndDecode_linkFails h, raise_eq, OpEnd.outcome_done]
  case waits => rw [captureAndDecode_noAnswer h, OpEnd.outcome_blocked]
  case short =>
    rw [captureAndDecode_short h hshort, OpEnd.outcome_done]
    rfl
  case skips =>
    rw [captureAndDecode_skipsIp h heth hip, OpEnd.outcome_done]
    rfl
  case counts =>
    rw [(captureAndDecode_decoded h heth hip).1, countFrame, OpEnd.outcome_done]
    rfl

/-- Settles O39: the tally's keys rise, so the count goes to the one entry of its key or where that entry would stand. -/
theorem tallyAddCountsOne : Obligations.TallyAddCountsOne :=
  fun p t hkeys => ⟨lookup_tallyAdd_self p hkeys, fun _ hne => lookup_tallyAdd_ne hne t⟩

/-- Settles O41: the same equations as for `ANA.STEP`, a decoded frame put to the predicate. -/
theorem fltStepReportsMatch : Obligations.FltStepReportsMatch := by
  refine fun k s => ⟨fun hclosed => ?closed, fun slot dropped rest h => ?fails, fun slot dropped rest h => ?waits,
    fun slot dropped f src rest h => ⟨fun hshort => ?short, fun e r err heth hip => ?skips, fun e r h' p heth hip =>
      ⟨fun hfilter => ?noMatch, fun hfilter => ?isMatch⟩⟩⟩ <;>
    rw [exec_fltStep]
  case closed => rw [captureAndDecode_closed hclosed, raise_eq, OpEnd.outcome_done]
  case fails => rw [captureAndDecode_linkFails h, raise_eq, OpEnd.outcome_done]
  case waits => rw [captureAndDecode_noAnswer h, OpEnd.outcome_blocked]
  case short =>
    rw [captureAndDecode_short h hshort, OpEnd.outcome_done]
    rfl
  case skips =>
    rw [captureAndDecode_skipsIp h heth hip, OpEnd.outcome_done]
    rfl
  case noMatch =>
    rw [(captureAndDecode_decoded h heth hip).1, filterFrame_noMatch hfilter, OpEnd.outcome_done]
    rfl
  case isMatch =>
    obtain ⟨hop, hrem⟩ := captureAndDecode_decoded (onFrame := filterFrame) h heth hip
    rw [hop, filterFrame_match hfilter hrem, OpEnd.outcome_done]
    rfl

end Sys2Proof.Machine
end

section
/-! PROOFS. Operations issued before the host has done what they need (70_reset_and_hazards.md R263, 60_exceptions.md R234,
R237). -/

namespace Sys2Proof.Machine

open Sys2Proof

/-- The status of a need that is not met. -/
theorem eq_of_unmet {met : Bool} {e e' : Status} (h : (if met = true then none else some e) = some e') : met = false ∧ e = e' := by
  cases met with
  | true => cases h
  | false => exact ⟨rfl, Option.some.inj h⟩

/-! ### The obligation -/

/-- Settles O47: each need is what its operation tests first. -/
theorem unpreparedOperationRaises : Obligations.UnpreparedOperationRaises := by
  intro i s e h
  cases i with
  | csum | ethLoad | ipNew | ipLoad | icmpLoad | sockOpen | txClear | txAppend | fltSet => cases h
  | ethDec | ipDec | icmpDec =>
    obtain ⟨hunmet, rfl⟩ := eq_of_unmet h
    simp only [exec_ethDec, exec_ipDec, exec_icmpDec, decodeOp_noValue hunmet, raise_eq, OpEnd.outcome_done]
  | ethEnc | ipEnc | icmpEnc =>
    obtain ⟨hunmet, rfl⟩ := eq_of_unmet h
    simp only [exec_ethEnc, exec_ipEnc, exec_icmpEnc, hunmet, encodeOp_noValue, raise_eq, OpEnd.outcome_done]
  | ipTtl | ipProtocol | ipDestination =>
    obtain ⟨hunmet, rfl⟩ := eq_of_unmet h
    simp only [exec_ipTtl, exec_ipProtocol, exec_ipDestination, ipSetter_noValue _ hunmet, raise_eq, OpEnd.outcome_done]
  | ipAppendOpt | ipChecksum =>
    obtain ⟨hunmet, rfl⟩ := eq_of_unmet h
    simp only [exec_ipAppendOpt_noValue hunmet, exec_ipChecksum_noValue hunmet]
  | icmpChecksum payload =>
    obtain ⟨hunmet, rfl⟩ := eq_of_unmet h
    exact exec_icmpChecksum_noValue payload hunmet
  | rxRest | rxRewind =>
    obtain ⟨hunmet, rfl⟩ := eq_of_unmet h
    simp only [exec_rxRest_noValue hunmet, exec_rxRewind_noValue hunmet]
  | sockSend | sockRecv | arpStart =>
    obtain ⟨hunmet, rfl⟩ := eq_of_unmet h
    simp only [exec_sockSend_closed hunmet, exec_sockRecv_closed hunmet, exec_arpStart_closed hunmet]
  | anaStep | fltStep =>
    obtain ⟨hunmet, rfl⟩ := eq_of_unmet h
    simp only [exec_anaStep, exec_fltStep, captureAndDecode_closed hunmet, raise_eq, OpEnd.outcome_done]
  | arpPoll =>
    simp only [missing, Option.ite_none_left_eq_some, Option.some.injEq] at h
    obtain ⟨hunmet, rfl⟩ := h
    exact exec_arpPoll_inval hunmet

end Sys2Proof.Machine
end

section
/-! PROOFS. A receive that nothing answers: it waits in every step, for ever (20_memory.md R53, 70_reset_and_hazards.md R275). -/

namespace Sys2Proof.Machine

open Sys2Proof

theorem exec_waits {s : State} {i : Instr} {k : Nat} {slot : SockSlot} {dropped rest : List RecvAnswer} (hi : receivesOn s i k)
    (h : s.NoAnswer k slot dropped rest) : exec i s = .next ((s.afterAnswers k dropped rest).waiting i) := by
  cases i with
  | sockRecv j =>
    obtain rfl : j = k := hi
    rw [exec_sockRecv, receive_noAnswer h, OpEnd.outcome_blocked]
  | anaStep j =>
    obtain rfl : j = k := hi
    rw [exec_anaStep, captureAndDecode_noAnswer h, OpEnd.outcome_blocked]
  | fltStep j =>
    obtain rfl : j = k := hi
    rw [exec_fltStep, captureAndDecode_noAnswer h, OpEnd.outcome_blocked]
  | arpPoll =>
    obtain ⟨hwait, rfl⟩ := hi
    exact exec_arpPoll_noAnswer hwait h
  | _ => exact hi.elim

/-- Operation `i` is in progress in a receive on slot `k`, and the host does not reset the block. -/
structure State.Receiving (s : State) (i : Instr) (k : Nat) (slot : SockSlot) : Prop where
  receives : receivesOn s i k
  busy : s.busy = some i
  reply : s.reply = none
  slotOpen : s.openSlot k = some slot
  noReset : ∀ rest, s.host ≠ .reset :: rest

section Receiving

variable {s : State} {i : Instr} {k : Nat} {slot : SockSlot}

/-- What a receive that waits changes is outside the block. -/
theorem State.sameBlock_afterAnswers_waiting (s : State) (i : Instr) (k : Nat) (used rest : List RecvAnswer) :
    s.sameBlock ((s.afterAnswers k used rest).waiting i) := rfl

theorem State.sameBlock.trans {s t u : State} (h : s.sameBlock t) (h' : t.sameBlock u) : s.sameBlock u := by
  unfold State.sameBlock at *
  rw [← h, ← h']

/-- Waiting goes on as it began. -/
theorem State.Receiving.afterAnswers (h : s.Receiving i k slot) (used rest : List RecvAnswer) :
    ((s.afterAnswers k used rest).waiting i).Receiving i k slot where
  receives := by
    have hi := h.receives
    cases i <;> exact hi
  busy := rfl
  reply := rfl
  slotOpen := h.slotOpen
  noReset := h.noReset

/-- While nothing answers, the step of a receive in progress waits. -/
theorem State.Receiving.step {dropped rest : List RecvAnswer} (h : s.Receiving i k slot) (hn : s.NoAnswer k slot dropped rest) :
    step s = .next ((s.afterAnswers k dropped rest).waiting i) := by
  rw [step_resume h.busy h.noReset, exec_waits h.receives hn]

theorem run_succ {s t : State} (h : step s = .next t) (n : Nat) : Host.Core.run core (n + 1) s = Host.Core.run core n t := by
  have hcore : core.step s = .next t := h
  simp only [Host.Core.run, hcore]

/-- Over a link that never brings a passing frame every run of a receive in progress leaves it waiting. -/
theorem State.Receiving.run (n : Nat) (h : s.Receiving i k slot) (hlink : s.link.NeverPasses slot.filter) :
    ∃ t, Host.Core.run core n s = .next t ∧ t.busy = some i ∧ t.reply = none ∧ s.sameBlock t ∧ t.host = s.host := by
  induction n generalizing s with
  | zero => exact ⟨s, rfl, h.busy, h.reply, rfl, rfl⟩
  | succ n ih =>
    obtain ⟨dropped, rest, hn, hleft⟩ := hlink.waits h.slotOpen
    obtain ⟨t, hrun, hbusy, hreply, hsame, hhost⟩ := ih (h.afterAnswers dropped rest) hleft
    exact ⟨t, (run_succ (h.step hn) n).trans hrun, hbusy, hreply,
      State.sameBlock.trans (s.sameBlock_afterAnswers_waiting i k dropped rest) hsame, hhost⟩

/-- Over a silent link the step of a receive in progress changes nothing at all. -/
theorem State.Receiving.step_silent (h : s.Receiving i k slot) (hinbound : s.link.inbound = []) (hcycle : s.link.cycle = [.silence]) :
    Machine.step s = .next s := by
  have hoffers : s.link.offers = [.silence] := by simp [LinkEnv.offers, hinbound, hcycle]
  have hdraws : s.link.drawsAfter = s.link.draws := by simp [LinkEnv.drawsAfter, hinbound, hcycle]
  have hn : s.NoAnswer k slot [] [] := ⟨h.slotOpen, .inl hoffers, nofun⟩
  have hsame : (s.afterAnswers k [] []).waiting i = s := by
    rw [State.afterAnswers, hdraws, List.map_nil, List.append_nil, State.waiting, ← hinbound, ← h.busy, ← h.reply]
  rw [h.step hn, hsame]

end Receiving

/-! ### The obligation -/

/-- Settles O55: each step of such a run waits again, and over a silent link it changes nothing. -/
theorem unansweredReceiveNeverEnds : Obligations.UnansweredReceiveNeverEnds := by
  intro n k i s slot hi hbusy hreply hopen hreset
  have hreceives : receivesOn s i k := by
    rcases hi with rfl | rfl | rfl | ⟨rfl, hwait⟩
    · rfl
    · rfl
    · rfl
    · exact hwait
  have h : s.Receiving i k slot := ⟨hreceives, hbusy, hreply, hopen, hreset⟩
  refine ⟨h.run n, fun hinbound hcycle => ?_⟩
  induction n with
  | zero => rfl
  | succ n ih => exact (run_succ (h.step_silent hinbound hcycle) n).trans ih

end Sys2Proof.Machine
end
